-- ==== Sys2Proof/Word.lean ====
section
/-! DEFINITION. The word types of the engine (00_scope.md R8, R9): 8-bit bytes, 16-bit command words and host
addresses, and the number of a bit of an 8-bit port. -/
namespace Sys2Proof

/-- 8 bits: a port register, a byte on the wire, a byte of host memory (R8). -/
abbrev Byte := BitVec 8

/-- 16 bits: a command or extension word (R80), a host address and a length (R8). -/
abbrev Word := BitVec 16

/-- The number of a bit of an 8-bit port register; bit 0 is the least significant (R9). -/
abbrev BitIndex := Fin 8

end Sys2Proof
end

