-- ==== Sys2Proof/Config.lean ====
section
/-! DEFINITION. The configuration record `cfg` (00_scope.md R6), the test configuration EXCFG
(95_test_vectors.md section 1), and the free values: constants with no body, of which nothing is known. -/
namespace Sys2Proof

/-- The clock-stretch policy `STRETCH` (R6, 41_bit_transport.md R120): no wait, or at most `polls` polls of CLOCK. -/
inductive Stretch where
  | none
  | wait (polls : Word)
  deriving DecidableEq, Repr

/-- The host addresses `first` to `last`, both included. -/
structure AddrRange where
  first : Word
  last  : Word
  deriving DecidableEq, Repr

/-- The configuration record of R6. The engine reads it and nothing writes it. The electrical delays `T_HALF`,
`T_SETUP` and `T_HOLD` are not modelled (R6, 70_reset_and_hazards.md R245). -/
structure Cfg where
  /-- `PORT_OUT_ADDR` -/
  portOutAddr : Word
  /-- `PORT_IN_ADDR`, may equal `PORT_OUT_ADDR` -/
  portInAddr : Word
  /-- `DDR_ADDR` -/
  ddrAddr : Word
  /-- `CLK_OUT_BIT` -/
  clkOutBit : BitIndex
  /-- `DATA_OUT_BIT` -/
  dataOutBit : BitIndex
  /-- `CLK_IN_BIT` -/
  clkInBit : BitIndex
  /-- `DATA_IN_BIT` -/
  dataInBit : BitIndex
  /-- `OUT_ACTIVE_LOW` -/
  outActiveLow : Bool
  /-- `IN_ACTIVE_LOW` -/
  inActiveLow : Bool
  /-- `DDR_OUT_VALUE`: the direction bit that makes a port bit an output -/
  ddrOutValue : Bool
  /-- `INIT_OUT` -/
  initOut : Byte
  /-- `INIT_DDR` -/
  initDdr : Byte
  /-- `RESET_OUT` -/
  resetOut : Byte
  /-- `RESET_DDR` -/
  resetDdr : Byte
  /-- `ARB_DETECT` -/
  arbDetect : Bool
  /-- `STRETCH` -/
  stretch : Stretch
  /-- `STOP_CLEARS_STARTED` -/
  stopClearsStarted : Bool
  /-- `MemAdmit`, as the address ranges it holds on: plain data, and every predicate on 16-bit addresses is one
  (DESIGN CHOICE, log 11, safe) -/
  memAdmit : List AddrRange
  /-- `POR_OUT`, the platform's power-on value of OUT (10_state.md R36) -/
  porOut : Byte
  /-- `POR_DDR`, the platform's power-on value of DDR (10_state.md R36) -/
  porDdr : Byte
  deriving DecidableEq, Repr

/-- `MemAdmit(a)` (R6). -/
def Cfg.admits (cfg : Cfg) (a : Word) : Bool :=
  cfg.memAdmit.any fun r => r.first ≤ a && a ≤ r.last

/-- EXCFG, the base configuration of the spec's test vectors (95_test_vectors.md section 1). No source gives the
reference hardware's values (91_not_in_source.md N2, N3); State.reset has these (DESIGN CHOICE, log 1, unsafe). -/
def Cfg.excfg : Cfg where
  portOutAddr := 0x8000#16
  portInAddr := 0x8001#16
  ddrAddr := 0x8002#16
  clkOutBit := 1
  dataOutBit := 0
  clkInBit := 1
  dataInBit := 0
  outActiveLow := false
  inActiveLow := false
  ddrOutValue := true
  initOut := 0x03#8
  initDdr := 0xFF#8
  resetOut := 0x00#8
  resetDdr := 0x00#8
  arbDetect := false
  stretch := .none
  stopClearsStarted := true
  memAdmit := [⟨0x0200#16, 0x7FFF#16⟩]
  porOut := 0x00#8
  porDdr := 0x00#8

/-! The free values. Each is applied to the number of the draw, so that two draws are unrelated. -/

/-- `Draw8()` (R10): "a fresh free 8-bit value under no law" (log 3, safe). -/
opaque Config.freeByte : Nat → Byte

/-- `EnvLow(CLOCK)` (R10, 10_state.md R28) at a sample for which State holds no answer (log 2, safe). -/
opaque Config.freeClockLow : Nat → Bool

/-- `EnvLow(DATA)` (R10, 10_state.md R28) at a sample for which State holds no answer (log 2, safe). -/
opaque Config.freeDataLow : Nat → Bool

end Sys2Proof
end

