-- ==== Sys2Proof/Syntax.lean ====
section
/-! DEFINITION. The thirteen commands of the engine (30_encoding.md R82), their mnemonics, and what a packet of
command words can turn out to be. -/
namespace Sys2Proof

/-- A bus line (00_scope.md R13). -/
inductive Line where
  | clock
  | data
  deriving DecidableEq, Repr

/-- The commands, one constructor for each row of the opcode map (R82), operands as R83 and R84 read them. Every term
is a legal command: the operand types hold exactly the values an encoding can hold. -/
inductive Instr where
  /-- RELEASE L (40_line_driver.md R100) -/
  | release (line : Line)
  /-- DRIVELOW L (R101) -/
  | drivelow (line : Line)
  /-- READLINE L (R102) -/
  | readline (line : Line)
  /-- WRBIT V (41_bit_transport.md R122) -/
  | wrbit (v : Bool)
  /-- RDBIT (R123) -/
  | rdbit
  /-- START (42_protocol_engine.md R141) -/
  | start
  /-- STOP (R142) -/
  | stop
  /-- WRBYTE IMM8 (R143) -/
  | wrbyte (imm8 : Byte)
  /-- RDBYTE LAST (R144) -/
  | rdbyte (last : Bool)
  /-- INIT (43_bus_handle.md R170) -/
  | init
  /-- RESET (R171) -/
  | reset
  /-- WRBYTES S, P, buf, len (R172) -/
  | wrbytes (sendStart sendStop : Bool) (buf len : Word)
  /-- RDBYTES P, buf, len (R173) -/
  | rdbytes (sendStop : Bool) (buf len : Word)
  deriving DecidableEq, Repr

/-- The names of the rows of the opcode map (R82). -/
inductive Mnemonic where
  | release | drivelow | readline | wrbit | rdbit | start | stop
  | wrbyte | rdbyte | init | reset | wrbytes | rdbytes
  deriving DecidableEq, Repr

/-- Why a command word is illegal: the two points of 30_encoding.md R85. -/
inductive Illegal where
  /-- R85 point 1: OP is 0x0, 0xE or 0xF. -/
  | reservedOpcode
  /-- R85 point 2: a bit that the row's mask covers differs from the row's match. -/
  | reservedBits
  deriving DecidableEq, Repr

/-- What the engine reads from the command interface: a legal command, or a packet whose command word is illegal,
kept with its words (R80, R85, R86). -/
inductive Command where
  | legal (i : Instr)
  | illegal (why : Illegal) (words : List Word)
  deriving DecidableEq, Repr

end Sys2Proof
end

