-- ==== Sys2Proof/WellFormed.lean ====
section
/-! DEFINITION. When a configuration is well formed (00_scope.md R7, and the range R6 gives the stretch bound): one named
check for each condition. Instructions need no check: every term of Instr is a legal command. -/
namespace Sys2Proof

/-- The conditions of R7, in its order, and last the range of `STRETCH = WAIT(N)` (R6; log 13). -/
inductive ConfigCheck where
  /-- `CLK_OUT_BIT != DATA_OUT_BIT` -/
  | outBitsDistinct
  /-- `CLK_IN_BIT != DATA_IN_BIT` -/
  | inBitsDistinct
  /-- On a shared port neither sense bit is an output bit. -/
  | sharedPortMasksDistinct
  /-- `DDR_ADDR` differs from both port addresses. -/
  | ddrAddrDistinct
  /-- `INIT_DDR` makes both output bits outputs. -/
  | initDrivesLines
  /-- On a shared port `INIT_DDR` makes both sense bits inputs. -/
  | initSensesLines
  /-- `INIT_OUT` releases both lines. -/
  | initReleasesLines
  /-- `N` of `WAIT(N)` is 1..65535 (R6). -/
  | stretchBoundPositive
  deriving DecidableEq, Repr

/-- Does the configuration meet the condition? -/
def Cfg.meets (cfg : Cfg) : ConfigCheck → Bool
  | .outBitsDistinct => cfg.clkOutBit != cfg.dataOutBit
  | .inBitsDistinct => cfg.clkInBit != cfg.dataInBit
  | .sharedPortMasksDistinct =>
    cfg.portInAddr != cfg.portOutAddr ||
      (cfg.clkInBit != cfg.clkOutBit && cfg.clkInBit != cfg.dataOutBit &&
        cfg.dataInBit != cfg.clkOutBit && cfg.dataInBit != cfg.dataOutBit)
  | .ddrAddrDistinct => cfg.ddrAddr != cfg.portOutAddr && cfg.ddrAddr != cfg.portInAddr
  | .initDrivesLines =>
    cfg.initDdr.getLsbD cfg.clkOutBit == cfg.ddrOutValue &&
      cfg.initDdr.getLsbD cfg.dataOutBit == cfg.ddrOutValue
  | .initSensesLines =>
    cfg.portInAddr != cfg.portOutAddr ||
      (cfg.initDdr.getLsbD cfg.clkInBit != cfg.ddrOutValue &&
        cfg.initDdr.getLsbD cfg.dataInBit != cfg.ddrOutValue)
  | .initReleasesLines =>
    cfg.initOut.getLsbD cfg.clkOutBit == !cfg.outActiveLow &&
      cfg.initOut.getLsbD cfg.dataOutBit == !cfg.outActiveLow
  | .stretchBoundPositive => cfg.stretch != .wait 0#16

/-- All the conditions, in the order of R7. -/
def ConfigCheck.all : List ConfigCheck :=
  [.outBitsDistinct, .inBitsDistinct, .sharedPortMasksDistinct, .ddrAddrDistinct, .initDrivesLines,
    .initSensesLines, .initReleasesLines, .stretchBoundPositive]

/-- The first condition the configuration fails, if any. -/
def Cfg.failedCheck (cfg : Cfg) : Option ConfigCheck :=
  ConfigCheck.all.find? fun c => !cfg.meets c

/-- "A configuration is well formed when every condition below holds" (R7). -/
def Cfg.wellFormed (cfg : Cfg) : Bool := ConfigCheck.all.all cfg.meets

end Sys2Proof
end

