-- ==== Sys2Proof/Decode.lean ====
section
/-! DEFINITION. The encoding of the commands (30_encoding.md R80 to R86, R90): the opcode map as a table, the decoder, total
on every stream of words, and the encoder. -/
namespace Sys2Proof

/-- A row of the opcode map (R82): "A word `W0` selects a row when `(W0 & mask) == match`". -/
structure OpcodeRow where
  mnemonic : Mnemonic
  pattern  : Word
  mask     : Word
  deriving DecidableEq, Repr

/-- The opcode map (R82). -/
def opcodeTable : List OpcodeRow :=
  [⟨.release,  0x1000#16, 0xFEFF#16⟩,
   ⟨.drivelow, 0x2000#16, 0xFEFF#16⟩,
   ⟨.readline, 0x3000#16, 0xFEFF#16⟩,
   ⟨.wrbit,    0x4000#16, 0xFEFF#16⟩,
   ⟨.rdbit,    0x5000#16, 0xFFFF#16⟩,
   ⟨.start,    0x6000#16, 0xFFFF#16⟩,
   ⟨.stop,     0x7000#16, 0xFFFF#16⟩] ++
  [⟨.wrbyte,   0x8000#16, 0xFF00#16⟩,
   ⟨.rdbyte,   0x9000#16, 0xFEFF#16⟩,
   ⟨.init,     0xA000#16, 0xFFFF#16⟩,
   ⟨.reset,    0xB000#16, 0xFFFF#16⟩,
   ⟨.wrbytes,  0xC000#16, 0xFCFF#16⟩,
   ⟨.rdbytes,  0xD000#16, 0xFEFF#16⟩]

/-- The word selects the row (R82). -/
def OpcodeRow.selects (r : OpcodeRow) (w0 : Word) : Bool := w0 &&& r.mask == r.pattern

/-- The row a command word selects, if any. -/
def opcodeRow (w0 : Word) : Option OpcodeRow := opcodeTable.find? (·.selects w0)

/-- `OP`, W0[15:12] (R81). -/
def opField (w0 : Word) : BitVec 4 := w0.extractLsb' 12 4

/-- `S`, W0[9] (R81). -/
def sField (w0 : Word) : Bool := w0.getLsbD 9

/-- `F`, W0[8] (R81): read as L, V, LAST or P (R83). -/
def fField (w0 : Word) : Bool := w0.getLsbD 8

/-- `IMM8`, W0[7:0] (R81). -/
def imm8Field (w0 : Word) : Byte := w0.extractLsb' 0 8

/-- "`L = 0` selects CLOCK and `L = 1` selects DATA" (R81). -/
def lineOfBit (b : Bool) : Line := if b then .data else .clock

/-- The operands of a selected row (R83, R84). -/
def readOperands (m : Mnemonic) (w0 w1 w2 : Word) : Instr :=
  match m with
  | .release  => .release (lineOfBit (fField w0))
  | .drivelow => .drivelow (lineOfBit (fField w0))
  | .readline => .readline (lineOfBit (fField w0))
  | .wrbit    => .wrbit (fField w0)
  | .rdbit    => .rdbit
  | .start    => .start
  | .stop     => .stop
  | .wrbyte   => .wrbyte (imm8Field w0)
  | .rdbyte   => .rdbyte (fField w0)
  | .init     => .init
  | .reset    => .reset
  | .wrbytes  => .wrbytes (sField w0) (fField w0) w1 w2
  | .rdbytes  => .rdbytes (fField w0) w1 w2

/-- "`OP = 0xC` or `0xD` means three words; every other value means one word. This holds even when the command word is
illegal" (R86). -/
def hasExtension (w0 : Word) : Bool := opField w0 == 0xC#4 || opField w0 == 0xD#4

/-- The words of the packet that W0 begins, given the two words that would extend it (R80, R86). -/
def packetWords (w0 w1 w2 : Word) : List Word := if hasExtension w0 then [w0, w1, w2] else [w0]

/-- Which point of R85 an illegal command word falls under. -/
def illegalReason (w0 : Word) : Illegal :=
  if opField w0 == 0x0#4 || opField w0 == 0xE#4 || opField w0 == 0xF#4 then .reservedOpcode else .reservedBits

/-- The decoder of one packet (R82, R85, R89): total, and an illegal word is named, never read as a neighbour. -/
def decode (w0 w1 w2 : Word) : Command :=
  match opcodeRow w0 with
  | some r => .legal (readOperands r.mnemonic w0 w1 w2)
  | none => .illegal (illegalReason w0) (packetWords w0 w1 w2)

/-- The first packet of a stream of command words, decoded, and the words after it; none while the packet is not
complete (R80, R86; log 10). -/
def fetchCommand (ws : List Word) : Option (Command × List Word) :=
  match ws with
  | [] => none
  | w0 :: rest =>
    if hasExtension w0 then
      match rest with
      | w1 :: w2 :: rest' => some (decode w0 w1 w2, rest')
      | _ => none
    else some (decode w0 0#16 0#16, rest)

/-! ### The encoder, from the same tables (R82, R83, R84) -/

/-- The bit that selects a line (R81). -/
def bitOfLine : Line → Bool
  | .clock => false
  | .data => true

/-- The word of a row with its `S`, `F` and `IMM8` fields filled in (R81). -/
def commandWord (op : BitVec 4) (s f : Bool) (imm8 : Byte) : Word :=
  op ++ 0#2 ++ BitVec.ofBool s ++ BitVec.ofBool f ++ imm8

/-- The words of a command (R82, R84). -/
def encode : Instr → List Word
  | .release l         => [commandWord 0x1#4 false (bitOfLine l) 0#8]
  | .drivelow l        => [commandWord 0x2#4 false (bitOfLine l) 0#8]
  | .readline l        => [commandWord 0x3#4 false (bitOfLine l) 0#8]
  | .wrbit v           => [commandWord 0x4#4 false v 0#8]
  | .rdbit             => [commandWord 0x5#4 false false 0#8]
  | .start             => [commandWord 0x6#4 false false 0#8]
  | .stop              => [commandWord 0x7#4 false false 0#8]
  | .wrbyte b          => [commandWord 0x8#4 false false b]
  | .rdbyte last       => [commandWord 0x9#4 false last 0#8]
  | .init              => [commandWord 0xA#4 false false 0#8]
  | .reset             => [commandWord 0xB#4 false false 0#8]
  | .wrbytes s p buf len => [commandWord 0xC#4 s p 0#8, buf, len]
  | .rdbytes p buf len => [commandWord 0xD#4 false p 0#8, buf, len]

/-! ### Words numbered as spec/opcode_table.json numbers them -/

/-- The packet whose bits are `w`: bit 0 is the least significant bit of W0, and W1 and W2 count on from it. -/
def tableWords (w : Nat) : List Word :=
  packetWords (BitVec.ofNat 16 w) (BitVec.ofNat 16 (w >>> 16)) (BitVec.ofNat 16 (w >>> 32))

/-- The command that the decoder reads from the packet whose low `nbits` bits are those of `w`, every bit above them 0. -/
def decodeTableWord (nbits w : Nat) : Option Instr :=
  match fetchCommand (tableWords (w % 2 ^ nbits)) with
  | some (.legal i, _) => some i
  | _ => none

end Sys2Proof
end

