-- ==== Sys2Proof/Machine/State.lean ====
section
/-! DEFINITION. The state of a run (10_state.md R20 to R36) as plain data, its one-field updates, the state at power-on and
at reset, and the reasons a step can stop. -/
namespace Sys2Proof.Machine

/-- The completion conditions of `RESULT.COND` (60_exceptions.md R200). Codes 6 and 7 are reserved and never written. -/
inductive Condition where
  | ok
  | arbLost
  | busTimeout
  | illegalCommand
  | notConfigured
  | bufferFault
  deriving DecidableEq, Repr

/-- The two conditions a command can raise while it runs (60_exceptions.md R203, R204). -/
inductive BusCondition where
  | arbLost
  | busTimeout
  deriving DecidableEq, Repr

/-- An event of the history (10_state.md R31). -/
inductive Event where
  /-- `PRd(a, v)`: a port read of address a that returned v. -/
  | portRead (a : Word) (v : Byte)
  /-- `PWr(a, v)`: a port write of v to address a. -/
  | portWrite (a : Word) (v : Byte)
  /-- `MRd(a, v)`: a buffer read of host address a that returned v. -/
  | memRead (a : Word) (v : Byte)
  /-- `MWr(a, v)`: a buffer write of v to host address a. -/
  | memWrite (a : Word) (v : Byte)
  /-- `Done(cmd, COND, VALUE)`: the completion of a command. -/
  | done (cmd : Command) (cond : Condition) (value : Byte)
  deriving DecidableEq, Repr

/-- One answer of the bus environment to a read of the input port (R28): which lines some agent other than the engine
pulls low at that moment (log 2, log 4). -/
structure EnvSample where
  clockLow : Bool
  dataLow  : Bool
  deriving DecidableEq, Repr

/-- No other agent drives either line. -/
def EnvSample.free : EnvSample := ⟨false, false⟩

/-- A move of the host between two commands (00_scope.md R3, 30_encoding.md R80, 70_reset_and_hazards.md R240, R242; log 9). -/
inductive HostMove where
  /-- deliver the next 16-bit word on the command interface -/
  | send (w : Word)
  /-- store a byte at a host address -/
  | store (a : Word) (v : Byte)
  deriving DecidableEq, Repr

/-- Host memory (R30): address and byte pairs in canonical form, addresses strictly rising, no entry equal to what an
unlisted address reads as. -/
abbrev Memory := List Host.Cell

/-- The fields of the 16-bit register `RESULT` (R24): COND [2:0] and VALUE [15:8]. The reserved bits [7:3] read 0 and hold
nothing, so the two fields are the whole register (`State.resultWord` is the word the host reads). -/
structure ResultReg where
  cond  : BitVec 3
  value : Byte
  deriving DecidableEq, Repr

/-- The state of a run. -/
structure State where
  /-- The configuration (00_scope.md R6); no step writes it (log 1). -/
  cfg : Cfg
  /-- `started`, the Bus State (R21) -/
  started : Bool
  /-- `configured` (R22) -/
  configured : Bool
  /-- `SHIFT` (R23) -/
  shift : Byte
  /-- `BITCNT` (R23) -/
  bitcnt : BitVec 4
  /-- `NACKACC` (R23) -/
  nackacc : Bool
  /-- `IDX` (R23) -/
  idx : Word
  /-- `RESULT` (R24) -/
  result : ResultReg
  /-- `OUT`, the output latch (R25) -/
  out : Byte
  /-- `DDR`, the direction register (R26) -/
  ddr : Byte
  /-- host memory (R30) -/
  mem : Memory
  /-- the event history, oldest event first (R31) -/
  history : List Event
  /-- the words delivered on the command interface and not yet read (30_encoding.md R80; log 8) -/
  stream : List Word
  /-- the host's moves to come (log 9) -/
  host : List HostMove
  /-- the environment's answers to come, the next one first (R28; log 2) -/
  env : List EnvSample
  /-- how many draws have been taken (00_scope.md R10; log 3) -/
  draws : Nat
  deriving DecidableEq, Repr

/-- Why the machine would stop with a fault. There is no such reason: every condition of the engine is a completion, after
which it "accepts the next packet in the same way" (60_exceptions.md R202, R209, R210). Nobody raises a fault (safe: none
is missing from the spec's list R200). -/
inductive Fault where
  deriving DecidableEq, Repr

/-- Why a step has no meaning. -/
inductive Refusal where
  /-- Raised by an arm of exec for a command that has no meaning yet; no arm is left (safe). -/
  | notModelled (mnemonic : String)
  /-- Raised by step: "A model refuses a configuration that fails any of them, naming the failed condition"
  (00_scope.md R7; log 13; safe). -/
  | configuration (check : ConfigCheck)
  deriving DecidableEq, Repr

namespace State

/-! ### One-field updates -/

/-- `started <- b` -/
def setStarted (s : State) (b : Bool) : State := { s with started := b }
/-- `configured <- b` -/
def setConfigured (s : State) (b : Bool) : State := { s with configured := b }
/-- `SHIFT <- v` -/
def setShift (s : State) (v : Byte) : State := { s with shift := v }
/-- `BITCNT <- n` -/
def setBitcnt (s : State) (n : BitVec 4) : State := { s with bitcnt := n }
/-- `NACKACC <- b` -/
def setNackacc (s : State) (b : Bool) : State := { s with nackacc := b }
/-- `IDX <- w` -/
def setIdx (s : State) (w : Word) : State := { s with idx := w }
/-- `RESULT <- r` -/
def setResult (s : State) (r : ResultReg) : State := { s with result := r }
/-- `OUT <- v` -/
def setOut (s : State) (v : Byte) : State := { s with out := v }
/-- `DDR <- v` -/
def setDdr (s : State) (v : Byte) : State := { s with ddr := v }
/-- host memory becomes `m` -/
def setMem (s : State) (m : Memory) : State := { s with mem := m }
/-- append an event to the history (R31) -/
def log (s : State) (e : Event) : State := { s with history := s.history ++ [e] }
/-- the words left on the command interface -/
def setStream (s : State) (ws : List Word) : State := { s with stream := ws }
/-- the host's moves left -/
def setHost (s : State) (ms : List HostMove) : State := { s with host := ms }
/-- the environment's answers left -/
def setEnv (s : State) (es : List EnvSample) : State := { s with env := es }
/-- the number of draws taken -/
def setDraws (s : State) (n : Nat) : State := { s with draws := n }

/-! ### Power-on -/

/-- Power-on under a configuration (R36, 70_reset_and_hazards.md R230): `started` and `configured` are 0, OUT and DDR hold
the platform's values, the history is empty, and what R36 calls unspecified is a free value (draws 0 to 6), within the range
R23 gives BITCNT (log 6). Host memory is the host's: empty here (log 5). -/
def powerOn (cfg : Cfg) : State where
  cfg := cfg
  started := false
  configured := false
  shift := Config.freeByte 0
  bitcnt := BitVec.ofNat 4 ((Config.freeByte 1).toNat % 9)
  nackacc := (Config.freeByte 2).getLsbD 0
  idx := Config.freeByte 3 ++ Config.freeByte 4
  result := ⟨(Config.freeByte 5).extractLsb' 0 3, Config.freeByte 6⟩
  out := cfg.porOut
  ddr := cfg.porDdr
  mem := []
  history := []
  stream := []
  host := []
  env := []
  draws := 7

/-- The machine right after reset: power-on under EXCFG (log 1). -/
def reset : State := powerOn Cfg.excfg

end State
end Sys2Proof.Machine
end

