-- ==== Sys2Proof/Machine/Flags.lean ====
section
/-! DEFINITION. The engine's flag-like state (10_state.md R35): the code of a completion condition, the RESULT word and its
fields, and the OR-accumulated acknowledgment NACKACC. -/
namespace Sys2Proof.Machine

/-- The code of a condition (60_exceptions.md R200). -/
def Condition.code : Condition → BitVec 3
  | .ok => 0#3
  | .arbLost => 1#3
  | .busTimeout => 2#3
  | .illegalCommand => 3#3
  | .notConfigured => 4#3
  | .bufferFault => 5#3

/-- `RESULT` after a completion: `{VALUE = v, COND = c}` (30_encoding.md R91). -/
def completionResult (c : Condition) (value : Byte) : ResultReg := ⟨c.code, value⟩

/-- The word of `RESULT` (R24): VALUE [15:8], reserved [7:3] reading 0, COND [2:0]. -/
def ResultReg.word (r : ResultReg) : Word := r.value ++ 0#5 ++ r.cond

/-- `RESULT` as the host reads it (R24). -/
def State.resultWord (s : State) : Word := s.result.word

/-- `NACKACC <- 0` (43_bus_handle.md R172). -/
def clearNack (s : State) : State := s.setNackacc false

/-- `NACKACC <- NACKACC | ack` (R172). -/
def accumulateNack (ack : Bool) (s : State) : State := s.setNackacc (s.nackacc || ack)

end Sys2Proof.Machine
end

