-- ==== Sys2Proof/Machine/Memory.lean ====
section
/-! DEFINITION. Host memory (10_state.md R30): what an unlisted address reads as, reading and writing one byte, and the
canonical form that every operation keeps. -/
namespace Sys2Proof.Machine

/-- What an address that is not listed reads as. The spec says that host memory at power-on is the host's (R36) and gives
no contents (DESIGN CHOICE, log 5, unsafe). -/
def unlistedByte : Byte := 0#8

/-- The byte at an address. -/
def readCell (m : Memory) (a : Nat) : Byte :=
  match m with
  | [] => unlistedByte
  | (b, v) :: rest => if b = a then v else readCell rest a

/-- The memory with the byte at an address replaced, in canonical form. -/
def writeCell (m : Memory) (a : Nat) (v : Byte) : Memory :=
  match m with
  | [] => if v = unlistedByte then [] else [(a, v)]
  | (b, w) :: rest =>
    if a < b then (if v = unlistedByte then (b, w) :: rest else (a, v) :: (b, w) :: rest)
    else if a = b then (if v = unlistedByte then rest else (a, v) :: rest)
    else (b, w) :: writeCell rest a v

/-- Every address listed is above `lo`, they rise strictly, each is a 16-bit address, and no byte is the unlisted one. -/
def Memory.wfAbove (lo : Option Nat) : Memory → Bool
  | [] => true
  | (b, w) :: rest =>
    (match lo with | none => true | some l => decide (l < b)) && decide (b < 65536) && w != unlistedByte &&
      Memory.wfAbove (some b) rest

/-- The canonical form. -/
def Memory.wf (m : Memory) : Bool := Memory.wfAbove none m

end Sys2Proof.Machine
end

