-- ==== Sys2Proof/Machine/Operands.lean ====
section
/-! DEFINITION. Every operand form of the commands (30_encoding.md R83, R84) as the machine uses it: single bits, lines and
the port bits they map to, the polarity of a drive, byte values, and the buffer range with its check. -/
namespace Sys2Proof.Machine

/-! ### Bits of a byte (00_scope.md R9) -/

/-- `v[k]` -/
def bitAt (v : Byte) (k : BitIndex) : Bool := v.getLsbD k.val

/-- `mask(k) = 1 << k` -/
def maskBit (k : BitIndex) : Byte := 1#8 <<< k.val

/-- `v` with bit k made x: `v | mask(k)` or `v & ~mask(k)` (40_line_driver.md R100, R101). -/
def putBit (v : Byte) (k : BitIndex) (x : Bool) : Byte :=
  if x then v ||| maskBit k else v &&& ~~~maskBit k

/-- The byte whose bit k is `f k`. -/
def byteOfBits (f : BitIndex → Bool) : Byte :=
  BitVec.ofBool (f 7) ++ BitVec.ofBool (f 6) ++ BitVec.ofBool (f 5) ++ BitVec.ofBool (f 4) ++
    BitVec.ofBool (f 3) ++ BitVec.ofBool (f 2) ++ BitVec.ofBool (f 1) ++ BitVec.ofBool (f 0)

/-- `zext_8` of one bit (R9). -/
def byteOfBit (x : Bool) : Byte := (BitVec.ofBool x).setWidth 8

/-- `((v << 1) | x) mod 256`: the next bit assembled, most significant first (42_protocol_engine.md R144). -/
def shiftIn (v : Byte) (x : Bool) : Byte := (v <<< 1) ||| byteOfBit x

/-! ### Lines (10_state.md R27 to R29) -/

/-- The bit of the output port that drives the line (00_scope.md R6). -/
def outBit (cfg : Cfg) : Line → BitIndex
  | .clock => cfg.clkOutBit
  | .data => cfg.dataOutBit

/-- The bit of the input port that senses the line (R6). -/
def inBit (cfg : Cfg) : Line → BitIndex
  | .clock => cfg.clkInBit
  | .data => cfg.dataInBit

/-- `RelBit = (OUT_ACTIVE_LOW ? 0 : 1)`: the output bit that releases a line (R29). -/
def relBit (cfg : Cfg) : Bool := !cfg.outActiveLow

/-- `DDR[k] == DDR_OUT_VALUE`: bit k of the output port is an output (R26). -/
def isOutput (s : State) (k : BitIndex) : Bool := bitAt s.ddr k == s.cfg.ddrOutValue

/-- `EngineLow(L)`: the engine drives the line low (R29). -/
def engineLow (s : State) (l : Line) : Bool :=
  isOutput s (outBit s.cfg l) && bitAt s.out (outBit s.cfg l) == !relBit s.cfg

/-- `EnvLow(L)` in an answer of the environment (R28). -/
def EnvSample.low (e : EnvSample) : Line → Bool
  | .clock => e.clockLow
  | .data => e.dataLow

/-- `Level(L) = not (EngineLow(L) or EnvLow(L))`, true for high (R28). -/
def level (s : State) (e : EnvSample) (l : Line) : Bool := !(engineLow s l || e.low l)

/-! ### The buffer of a transaction (30_encoding.md R84, 60_exceptions.md R207) -/

/-- The address is one of the three port registers. -/
def isPortAddr (cfg : Cfg) (a : Word) : Bool :=
  a == cfg.portOutAddr || a == cfg.portInAddr || a == cfg.ddrAddr

/-- `BufferOK(buf, len)` (R207). -/
def bufferOk (cfg : Cfg) (buf len : Word) : Bool :=
  len == 0#16 ||
    (decide (buf.toNat + len.toNat - 1 ≤ 0xFFFF) &&
      (List.range len.toNat).all fun i =>
        cfg.admits (buf + BitVec.ofNat 16 i) && !isPortAddr cfg (buf + BitVec.ofNat 16 i))

end Sys2Proof.Machine
end

