-- ==== Sys2Proof/Machine/Ops.lean ====
section
/-! DEFINITION. The operations every command is made of: draws, the port and buffer accesses (20_memory.md R51 to R53), the
line driver's procedures, the completion of a command (30_encoding.md R91) and the raising of a condition (60_exceptions.md
R202), and the frame in which a procedure becomes a command. -/
namespace Sys2Proof.Machine

/-- A procedure of the engine: it ends with a value, or a bus condition ends it and everything that called it (R202). -/
abbrev Proc := EStateM BusCondition State

/-- `if c: p` -/
def onlyIf (c : Bool) (p : Proc Unit) : Proc Unit := if c then p else pure ()

/-! ### Draws (00_scope.md R10) -/

/-- `Draw8()`: a free value, and the next draw is another one (log 3). -/
def draw8 (s : State) : Byte × State := (Config.freeByte s.draws, s.setDraws (s.draws + 1))

/-- The environment's answer to one read of the input port: the next one State holds, else a free one (R28; log 2). -/
def envSample (s : State) : EnvSample × State :=
  match s.env with
  | e :: rest => (e, s.setEnv rest)
  | [] => (⟨Config.freeClockLow s.draws, Config.freeDataLow s.draws⟩, s.setDraws (s.draws + 1))

/-! ### Port accesses -/

/-- Bit k of what a read of port address `a` returns (R51): a sense bit of the input port reads its pin, an output bit of the
output port reads its latch, every other bit is a draw. -/
def portBit (s : State) (a : Word) (e : EnvSample) (d : Byte) (k : BitIndex) : Bool :=
  if a = s.cfg.portInAddr ∧ k = s.cfg.clkInBit then (level s e .clock).xor s.cfg.inActiveLow
  else if a = s.cfg.portInAddr ∧ k = s.cfg.dataInBit then (level s e .data).xor s.cfg.inActiveLow
  else if a = s.cfg.portOutAddr ∧ isOutput s k then bitAt s.out k
  else bitAt d k

/-- The environment is asked once in each read of the input port (log 4), and in no other read. -/
def askEnv (a : Word) (s : State) : EnvSample × State :=
  if a = s.cfg.portInAddr then envSample s else (.free, s)

/-- `PortRead(a)` (R51), its value as the eight bits read; the event holds them as a byte. -/
def portReadBits (a : Word) (s : State) : (BitIndex → Bool) × State :=
  let (e, s1) := askEnv a s
  let (d, s2) := draw8 s1
  (portBit s a e d, s2.log (.portRead a (byteOfBits (portBit s a e d))))

/-- `PortRead(a)` (R51), its value as a byte. -/
def portRead (a : Word) (s : State) : Byte × State :=
  let (f, t) := portReadBits a s
  (byteOfBits f, t)

/-- The register a write to address `a` changes (R52). -/
def latchPort (a : Word) (v : Byte) (s : State) : State :=
  if a = s.cfg.portOutAddr then s.setOut v
  else if a = s.cfg.ddrAddr then s.setDdr v
  else s

/-- `PortWrite(a, v)` (R52). -/
def portWrite (a : Word) (v : Byte) (s : State) : State := (latchPort a v s).log (.portWrite a v)

/-! ### Buffer accesses (R53) -/

/-- `MemRead(addr, 1)`. -/
def memRead (a : Word) (s : State) : Byte × State :=
  let v := readCell s.mem a.toNat
  (v, s.log (.memRead a v))

/-- `MemWrite(addr, 1, v)`. -/
def memWrite (a : Word) (v : Byte) (s : State) : State :=
  (s.setMem (writeCell s.mem a.toNat v)).log (.memWrite a v)

/-! ### The line driver's procedures (40_line_driver.md) -/

/-- One read-modify-write of the output port that makes bit k x (R56). -/
def rmwOut (k : BitIndex) (x : Bool) (s : State) : State :=
  let (v, s1) := portRead s.cfg.portOutAddr s
  portWrite s.cfg.portOutAddr (putBit v k x) s1

/-- `Release(L)` (R100). -/
def releaseLine (l : Line) (s : State) : State := rmwOut (outBit s.cfg l) (relBit s.cfg) s

/-- `DriveLow(L)` (R101). -/
def driveLineLow (l : Line) (s : State) : State := rmwOut (outBit s.cfg l) (!relBit s.cfg) s

/-- `ReadLine(L)` (R102): the sense bit of one read of the input port, `v[b] ^ IN_ACTIVE_LOW`; true for high. -/
def readLine (l : Line) (s : State) : Bool × State :=
  let (f, t) := portReadBits s.cfg.portInAddr s
  ((f (inBit s.cfg l)).xor s.cfg.inActiveLow, t)

/-! ### Completion and conditions -/

/-- `Complete(c, v)` (R91): RESULT is written and `Done` appended. -/
def complete (c : Condition) (v : Byte) (cmd : Command) (s : State) : State :=
  (s.setResult (completionResult c v)).log (.done cmd c v)

/-- The cleanup of a condition (R202): ARB_LOST clears `started` and makes no access (R203); BUS_TIMEOUT releases DATA and
clears `started` (R204); the command faults change nothing (R205 to R207). -/
def cleanup (c : Condition) (s : State) : State :=
  match c with
  | .arbLost => s.setStarted false
  | .busTimeout => (releaseLine .data s).setStarted false
  | .ok => s
  | .illegalCommand => s
  | .notConfigured => s
  | .bufferFault => s

/-- `raise C(info)` (R202): the cleanup, then `Complete(code(C), Draw8())`. This is the engine's whole exception entry: it
saves no state, changes no mode and vectors nowhere (R209), and there is no return from it (R210): the next command is taken
as after any completion. The pair (buf, len) of a BUFFER_FAULT stands in the command that `Done` records (log 16). -/
def raiseCondition (c : Condition) (cmd : Command) (s : State) : State :=
  let (v, s1) := draw8 (cleanup c s)
  complete c v cmd s1

/-- The condition a procedure ended with. -/
def BusCondition.condition : BusCondition → Condition
  | .arbLost => .arbLost
  | .busTimeout => .busTimeout

/-- A procedure as a command: a normal end completes with OK and the value it returned, a bus condition is raised (R91). -/
def runProc (i : Instr) (p : Proc Byte) (s : State) : State :=
  match p s with
  | .ok v t => complete .ok v (.legal i) t
  | .error c t => raiseCondition c.condition (.legal i) t

/-- "Every command except INIT and RESET reads it and faults with NOT_CONFIGURED when it is 0" (10_state.md R22, R206). -/
def whenConfigured (i : Instr) (run : State → State) (s : State) : State :=
  if s.configured then run s else raiseCondition .notConfigured (.legal i) s

/-- BUFFER_FAULT "after decode and the configured check, before any bus activity, when `BufferOK(buf, len)` is false"
(R207). -/
def whenBufferOk (i : Instr) (buf len : Word) (run : State → State) (s : State) : State :=
  if bufferOk s.cfg buf len then run s else raiseCondition .bufferFault (.legal i) s

/-- A packet whose command word is illegal (30_encoding.md R85, R205): ILLEGAL_COMMAND, before any other check. -/
def illegalCommand (why : Illegal) (words : List Word) (s : State) : State :=
  raiseCondition .illegalCommand (.illegal why words) s

end Sys2Proof.Machine
end

