-- ==== Sys2Proof/Machine/BitTransport.lean ====
section
/-! DEFINITION. The Bit Transport: the stretch wait, the arbitration check, and the commands WRBIT and RDBIT
(41_bit_transport.md). -/
namespace Sys2Proof.Machine

/-- The polls of `StretchWait()` under `WAIT(n)`: it returns at the first poll that reads CLOCK high and raises BusTimeout
when all n read low (R120). -/
def pollClock : Nat → Proc Unit
  | 0 => throw .busTimeout
  | n + 1 => do
    let high ← modifyGet (readLine .clock)
    if high then pure () else pollClock n

/-- `StretchWait()` (R120). -/
def stretchWait : Proc Unit := do
  match (← get).cfg.stretch with
  | .none => pure ()
  | .wait polls => pollClock polls.toNat

/-- The sample of the arbitration check: "if ReadLine(DATA) == 0: raise ArbitrationLost()" (R121). -/
def sampleArbitration : Proc Unit := do
  let high ← modifyGet (readLine .data)
  if high then pure () else throw .arbLost

/-- `ArbCheck()` (R121). -/
def arbCheck : Proc Unit := do
  onlyIf (← get).cfg.arbDetect sampleArbitration

/-- "if v == 1: Release(DATA) else: DriveLow(DATA)" (R122). -/
def setData (v : Bool) (s : State) : State := if v then releaseLine .data s else driveLineLow .data s

/-- `WriteBit(v)` (R122). -/
def writeBit (v : Bool) : Proc Unit := do
  modify (setData v)
  modify (releaseLine .clock)
  stretchWait
  onlyIf v arbCheck
  modify (driveLineLow .clock)

/-- `ReadBit()` (R123). -/
def readBit : Proc Bool := do
  modify (releaseLine .data)
  modify (releaseLine .clock)
  stretchWait
  let x ← modifyGet (readLine .data)
  modify (driveLineLow .clock)
  return x

/-- `WriteBit(V); Complete(OK, 0x00)` (R122). -/
def wrbitCommand (v : Bool) : Proc Byte := do
  writeBit v
  return 0x00#8

/-- WRBIT V (R122). -/
def execWrbit (v : Bool) (s : State) : Host.Outcome State Fault Refusal :=
  .next (whenConfigured (.wrbit v) (runProc (.wrbit v) (wrbitCommand v)) s)

/-- `x <- ReadBit(); Complete(OK, zext_8(x))` (R123). -/
def rdbitCommand : Proc Byte := do
  let x ← readBit
  return byteOfBit x

/-- RDBIT (R123). -/
def execRdbit (s : State) : Host.Outcome State Fault Refusal :=
  .next (whenConfigured .rdbit (runProc .rdbit rdbitCommand) s)

end Sys2Proof.Machine
end

