-- ==== Sys2Proof/Machine/ProtocolEngine.lean ====
section
/-! DEFINITION. The Protocol Engine: START, STOP, WRBYTE and RDBYTE (42_protocol_engine.md). -/
namespace Sys2Proof.Machine

/-- The first steps of `Start()` when a START is already open: "repeated start: restore both lines high first" (R141). -/
def reopenLines : Proc Unit := do
  modify (releaseLine .data)
  modify (releaseLine .clock)
  stretchWait

/-- `Start()` (R141). -/
def startCondition : Proc Unit := do
  onlyIf (← get).started reopenLines
  arbCheck
  modify (driveLineLow .data)
  modify (driveLineLow .clock)
  modify (·.setStarted true)

/-- The last step of `Stop()`: `started <- 0` when `STOP_CLEARS_STARTED` (R142). -/
def closeTransaction (s : State) : State := if s.cfg.stopClearsStarted then s.setStarted false else s

/-- `Stop()` (R142). -/
def stopCondition : Proc Unit := do
  modify (driveLineLow .data)
  modify (releaseLine .clock)
  stretchWait
  modify (releaseLine .data)
  arbCheck
  modify closeTransaction

/-- `SHIFT[7 - BITCNT]`: the bit of SHIFT that goes out next (R143). -/
def nextBitOut (s : State) : Bool := s.shift.getLsbD (7 - s.bitcnt.toNat)

/-- One more bit of the byte is done; after the eighth BITCNT is 8, the end of its range (R23; log 7). -/
def countBit (s : State) : State := s.setBitcnt (s.bitcnt + 1#4)

/-- The last n passes of the loop of `WriteByte` over BITCNT (R143). -/
def sendBits : Nat → Proc Unit
  | 0 => pure ()
  | n + 1 => do
    writeBit (nextBitOut (← get))
    modify countBit
    sendBits n

/-- `SHIFT <- b` and the loop's `BITCNT <- 0` (R143, R144). -/
def loadShift (b : Byte) (s : State) : State := (s.setShift b).setBitcnt 0#4

/-- `WriteByte(b)` (R143): true is a NACK. -/
def writeByte (b : Byte) : Proc Bool := do
  modify (loadShift b)
  sendBits 8
  readBit

/-- The last n passes of the loop of `ReadByte` over BITCNT (R144). -/
def receiveBits : Nat → Proc Unit
  | 0 => pure ()
  | n + 1 => do
    let x ← readBit
    modify fun s => countBit (s.setShift (shiftIn s.shift x))
    receiveBits n

/-- `ReadByte(last)` (R144). -/
def readByte (last : Bool) : Proc Byte := do
  modify (loadShift 0x00#8)
  receiveBits 8
  writeBit last
  return (← get).shift

/-- `Start(); Complete(OK, 0x00)` (R141). -/
def startCommand : Proc Byte := do
  startCondition
  return 0x00#8

/-- START (R141). -/
def execStart (s : State) : Host.Outcome State Fault Refusal :=
  .next (whenConfigured .start (runProc .start startCommand) s)

/-- `Stop(); Complete(OK, 0x00)` (R142). -/
def stopCommand : Proc Byte := do
  stopCondition
  return 0x00#8

/-- STOP (R142). -/
def execStop (s : State) : Host.Outcome State Fault Refusal :=
  .next (whenConfigured .stop (runProc .stop stopCommand) s)

/-- `ack <- WriteByte(IMM8); Complete(OK, zext_8(ack))` (R143). -/
def wrbyteCommand (imm8 : Byte) : Proc Byte := do
  let ack ← writeByte imm8
  return byteOfBit ack

/-- WRBYTE b (R143). -/
def execWrbyte (imm8 : Byte) (s : State) : Host.Outcome State Fault Refusal :=
  .next (whenConfigured (.wrbyte imm8) (runProc (.wrbyte imm8) (wrbyteCommand imm8)) s)

/-- RDBYTE LAST (R144): `r <- ReadByte(LAST); Complete(OK, r)`. -/
def execRdbyte (last : Bool) (s : State) : Host.Outcome State Fault Refusal :=
  .next (whenConfigured (.rdbyte last) (runProc (.rdbyte last) (readByte last)) s)

end Sys2Proof.Machine
end

