-- ==== Sys2Proof/Machine/BusHandle.lean ====
section
/-! DEFINITION. The Bus Handle: INIT, RESET, WRBYTES and RDBYTES (43_bus_handle.md). -/
namespace Sys2Proof.Machine

/-- `Init()` (R170): two blind writes, the output port first. -/
def initPort (s : State) : State :=
  let s1 := portWrite s.cfg.portOutAddr s.cfg.initOut s
  let s2 := portWrite s.cfg.ddrAddr s.cfg.initDdr s1
  (s2.setStarted false).setConfigured true

/-- `Init(); Complete(OK, 0x00)` (R170). -/
def initCommand : Proc Byte := do
  modify initPort
  return 0x00#8

/-- INIT (R170): accepted whether or not the engine is configured. -/
def execInit (s : State) : Host.Outcome State Fault Refusal := .next (runProc .init initCommand s)

/-- `Reset()` (R171): two blind writes, the direction register first; `started` becomes a draw. -/
def resetPort (s : State) : State :=
  let s1 := portWrite s.cfg.ddrAddr s.cfg.resetDdr s
  let s2 := portWrite s.cfg.portOutAddr s.cfg.resetOut s1
  let (d, s3) := draw8 s2
  (s3.setStarted (bitAt d 0)).setConfigured false

/-- `Reset(); Complete(OK, 0x00)` (R171). -/
def resetCommand : Proc Byte := do
  modify resetPort
  return 0x00#8

/-- RESET (R171): accepted in any state. -/
def execReset (s : State) : Host.Outcome State Fault Refusal := .next (runProc .reset resetCommand s)

/-- IDX moves to the next buffer index; after the last it is `len` (R23; log 7). -/
def nextIndex (s : State) : State := s.setIdx (s.idx + 1#16)

/-- The last n passes of the loop of `WriteBytes` over IDX (R172). -/
def sendBytes (buf : Word) : Nat → Proc Unit
  | 0 => pure ()
  | n + 1 => do
    let b ← modifyGet (memRead (buf + (← get).idx))
    let ack ← writeByte b
    modify (accumulateNack ack)
    modify nextIndex
    sendBytes buf n

/-- `WriteBytes(s, p, buf, len)` (R172). -/
def writeBytes (sendStart sendStop : Bool) (buf len : Word) : Proc Byte := do
  modify clearNack
  onlyIf sendStart startCondition
  modify (·.setIdx 0#16)
  sendBytes buf len.toNat
  onlyIf sendStop stopCondition
  return byteOfBit (← get).nackacc

/-- WRBYTES S, P, buf, len (R172). -/
def execWrbytes (sendStart sendStop : Bool) (buf len : Word) (s : State) : Host.Outcome State Fault Refusal :=
  .next (whenConfigured (.wrbytes sendStart sendStop buf len)
    (whenBufferOk (.wrbytes sendStart sendStop buf len) buf len
      (runProc (.wrbytes sendStart sendStop buf len) (writeBytes sendStart sendStop buf len))) s)

/-- The last n passes of the loop of `ReadBytes` over IDX; `r` is the byte read last (R173). -/
def receiveBytes (buf len : Word) (r : Byte) : Nat → Proc Byte
  | 0 => pure r
  | n + 1 => do
    let r' ← readByte ((← get).idx == len - 1#16)
    modify fun s => memWrite (buf + s.idx) r' s
    modify nextIndex
    receiveBytes buf len r' n

/-- `ReadBytes(p, buf, len)` (R173). -/
def readBytes (sendStop : Bool) (buf len : Word) : Proc Byte := do
  let r0 ← modifyGet draw8
  modify (·.setIdx 0#16)
  let r ← receiveBytes buf len r0 len.toNat
  onlyIf sendStop stopCondition
  return r

/-- RDBYTES P, buf, len (R173). -/
def execRdbytes (sendStop : Bool) (buf len : Word) (s : State) : Host.Outcome State Fault Refusal :=
  .next (whenConfigured (.rdbytes sendStop buf len)
    (whenBufferOk (.rdbytes sendStop buf len) buf len
      (runProc (.rdbytes sendStop buf len) (readBytes sendStop buf len))) s)

end Sys2Proof.Machine
end

