-- ==== Sys2Proof/Machine/LineDriver.lean ====
section
/-! DEFINITION. The Line Driver commands RELEASE, DRIVELOW and READLINE (40_line_driver.md). -/
namespace Sys2Proof.Machine

/-- `Release(L); Complete(OK, 0x00)` (R100). -/
def releaseCommand (l : Line) : Proc Byte := do
  modify (releaseLine l)
  return 0x00#8

/-- RELEASE L (R100). -/
def execRelease (l : Line) (s : State) : Host.Outcome State Fault Refusal :=
  .next (whenConfigured (.release l) (runProc (.release l) (releaseCommand l)) s)

/-- `DriveLow(L); Complete(OK, 0x00)` (R101). -/
def drivelowCommand (l : Line) : Proc Byte := do
  modify (driveLineLow l)
  return 0x00#8

/-- DRIVELOW L (R101). -/
def execDrivelow (l : Line) (s : State) : Host.Outcome State Fault Refusal :=
  .next (whenConfigured (.drivelow l) (runProc (.drivelow l) (drivelowCommand l)) s)

/-- `x <- ReadLine(L); Complete(OK, zext_8(x))` (R102). -/
def readlineCommand (l : Line) : Proc Byte := do
  let x ← modifyGet (readLine l)
  return byteOfBit x

/-- READLINE L (R102). -/
def execReadline (l : Line) (s : State) : Host.Outcome State Fault Refusal :=
  .next (whenConfigured (.readline l) (runProc (.readline l) (readlineCommand l)) s)

end Sys2Proof.Machine
end

