-- ==== Sys2Proof/Machine/Dispatch.lean ====
section
/-! DEFINITION. The dispatch of a decoded command to its meaning (30_encoding.md R89), one arm per constructor. -/
namespace Sys2Proof.Machine

/-- What a command does. -/
def exec (i : Instr) (s : State) : Host.Outcome State Fault Refusal :=
  match i with
  | .release line => Sys2Proof.Machine.execRelease line s
  | .drivelow line => Sys2Proof.Machine.execDrivelow line s
  | .readline line => Sys2Proof.Machine.execReadline line s
  | .wrbit v => Sys2Proof.Machine.execWrbit v s
  | .rdbit => Sys2Proof.Machine.execRdbit s
  | .start => Sys2Proof.Machine.execStart s
  | .stop => Sys2Proof.Machine.execStop s
  | .wrbyte imm8 => Sys2Proof.Machine.execWrbyte imm8 s
  | .rdbyte last => Sys2Proof.Machine.execRdbyte last s
  | .init => Sys2Proof.Machine.execInit s
  | .reset => Sys2Proof.Machine.execReset s
  | .wrbytes sendStart sendStop buf len => Sys2Proof.Machine.execWrbytes sendStart sendStop buf len s
  | .rdbytes sendStop buf len => Sys2Proof.Machine.execRdbytes sendStop buf len s

end Sys2Proof.Machine
end

