-- ==== Sys2Proof/Machine/HostMoves.lean ====
section
/-! DEFINITION. What the host does between two commands (00_scope.md R3, 70_reset_and_hazards.md R240 to R242; log 9). -/
namespace Sys2Proof.Machine

/-- The host stores a byte: at a port address it changes the register there ("The engine would act on whatever it found",
R242; the input port has no storage, R27, log 18), elsewhere host memory. The history is the engine's and records nothing of
it (R31; log 17). -/
def hostStore (a : Word) (v : Byte) (s : State) : State :=
  if isPortAddr s.cfg a then latchPort a v s
  else s.setMem (writeCell s.mem a.toNat v)

/-- The effect of one move. -/
def hostMove (m : HostMove) (s : State) : State :=
  match m with
  | .send w => s.setStream (s.stream ++ [w])
  | .store a v => hostStore a v s

/-- The engine waits for a packet: the host makes its next move, and if it has none nothing changes (R230; log 10). -/
def hostTurn (s : State) : State :=
  match s.host with
  | [] => s
  | m :: rest => hostMove m (s.setHost rest)

end Sys2Proof.Machine
end

