-- ==== Sys2Proof/Machine/Step.lean ====
section
/-! DEFINITION. One step: the engine reads the next packet from the command interface, decodes it and executes it to its
completion (30_encoding.md R80, R89, R91); while no packet is complete the host moves. -/
namespace Sys2Proof.Machine

/-- A command, legal or not, on the state after its packet is read (R89). -/
def execCommand (cmd : Command) (s : State) : Host.Outcome State Fault Refusal :=
  match cmd with
  | .legal i => exec i s
  | .illegal why words => .next (illegalCommand why words s)

/-- One step. A configuration that is not well formed is refused (00_scope.md R7). -/
def step (s : State) : Host.Outcome State Fault Refusal :=
  match s.cfg.failedCheck with
  | some check => .refused (.configuration check)
  | none =>
    match fetchCommand s.stream with
    | some (cmd, rest) => execCommand cmd (s.setStream rest)
    | none => .next (hostTurn s)

/-- `s` with the packet whose bits are `w` (numbered as spec/opcode_table.json numbers them, every bit above `nbits` 0) next
on the command interface: the packet is put in front of the words already there, so the very next step runs it (log 8). -/
def State.withFetchWord (s : State) (nbits w : Nat) : State :=
  s.setStream (tableWords (w % 2 ^ nbits) ++ s.stream)

end Sys2Proof.Machine
end

