-- ==== Sys2Proof/Machine/Assembler.lean ====
section
/-! DEFINITION. The assembler syntax and the pseudo-instructions (30_encoding.md R87, R88): source text to statements, and
statements to the words the host sends. No step uses it; it says which words a program of statements is (log 15). -/
namespace Sys2Proof.Machine

/-- A statement (R87) or a pseudo-instruction (R88), numbers as written. -/
inductive Statement where
  | release (line : Line)
  | drivelow (line : Line)
  | readline (line : Line)
  | wrbit (v : Nat)
  | rdbit
  | start
  | stop
  | wrbyte (b : Nat)
  | rdbyte (last : Bool)
  | init
  | reset
  | wrbytes (s p buf len : Nat)
  | rdbytes (p buf len : Nat)
  /-- `RESTART`, a START meant for use while `started = 1` -/
  | restart
  /-- `ADDRW a`: START, then the address byte with its R/W bit 0 -/
  | addrw (a : Nat)
  /-- `ADDRR a`: START, then the address byte with its R/W bit 1 -/
  | addrr (a : Nat)
  deriving DecidableEq, Repr

/-- The operand an assembler refuses (R87: "refuses an operand outside its range by name and line"). -/
inductive AsmOperand where
  | v | b | s | p | buf | len | a
  deriving DecidableEq, Repr

/-- Why a line is refused. -/
inductive AsmReason where
  /-- the operand is outside its range -/
  | outOfRange (operand : AsmOperand)
  /-- the line is no statement of R87 or R88 -/
  | noStatement
  deriving DecidableEq, Repr

/-- What assembling gives: words, or the line refused and why; a program with a refused line has no words (DESIGN CHOICE,
log 20). -/
inductive Assembled where
  | words (ws : List Word)
  | refused (line : Nat) (reason : AsmReason)
  deriving DecidableEq, Repr

/-! ### Statements to commands -/

/-- A 0 or 1 operand. -/
def asmBit (operand : AsmOperand) (n : Nat) : Except AsmReason Bool :=
  if n = 0 then .ok false else if n = 1 then .ok true else .error (.outOfRange operand)

/-- An operand 0..255. -/
def asmByte (operand : AsmOperand) (n : Nat) : Except AsmReason Byte :=
  if n < 256 then .ok (BitVec.ofNat 8 n) else .error (.outOfRange operand)

/-- An operand 0..65535. -/
def asmWord (operand : AsmOperand) (n : Nat) : Except AsmReason Word :=
  if n < 65536 then .ok (BitVec.ofNat 16 n) else .error (.outOfRange operand)

/-- A device address: 0..255 with bit 0 at 0 (R88). -/
def asmAddress (n : Nat) : Except AsmReason Byte :=
  if n < 256 ∧ n % 2 = 0 then .ok (BitVec.ofNat 8 n) else .error (.outOfRange .a)

/-- The commands of a statement (R87, R88). Of several operands out of range the leftmost is the one refused (DESIGN CHOICE,
log 20). -/
def Statement.commands : Statement → Except AsmReason (List Instr)
  | .release l => .ok [.release l]
  | .drivelow l => .ok [.drivelow l]
  | .readline l => .ok [.readline l]
  | .wrbit v => do return [.wrbit (← asmBit .v v)]
  | .rdbit => .ok [.rdbit]
  | .start => .ok [.start]
  | .stop => .ok [.stop]
  | .wrbyte b => do return [.wrbyte (← asmByte .b b)]
  | .rdbyte last => .ok [.rdbyte last]
  | .init => .ok [.init]
  | .reset => .ok [.reset]
  | .wrbytes s p buf len => do
    return [.wrbytes (← asmBit .s s) (← asmBit .p p) (← asmWord .buf buf) (← asmWord .len len)]
  | .rdbytes p buf len => do return [.rdbytes (← asmBit .p p) (← asmWord .buf buf) (← asmWord .len len)]
  | .restart => .ok [.start]
  | .addrw a => do return [.start, .wrbyte (← asmAddress a)]
  | .addrr a => do return [.start, .wrbyte ((← asmAddress a) ||| 0x01#8)]

/-- The words of statements that stand on consecutive lines from `line` on; none is an empty line. Of several refused lines the
first is the one named, and no line's words are given then (DESIGN CHOICE, log 20). -/
def assembleFrom (line : Nat) : List (Except AsmReason (Option Statement)) → Assembled
  | [] => .words []
  | .error reason :: _ => .refused line reason
  | .ok none :: rest => assembleFrom (line + 1) rest
  | .ok (some st) :: rest =>
    match st.commands with
    | .error reason => .refused line reason
    | .ok is =>
      match assembleFrom (line + 1) rest with
      | .words ws => .words (is.flatMap encode ++ ws)
      | r => r

/-- The words of a program given as statements, one a line. -/
def assembleStatements (sts : List Statement) : Assembled := assembleFrom 1 (sts.map fun st => .ok (some st))

/-! ### Source text to statements -/

/-- Blanks between the parts of a line (DESIGN CHOICE, log 15). -/
def isBlank (c : Char) : Bool := c == ' ' || c == '\t' || c == '\r'

/-- The text without blanks at either side. -/
def trimBlanks (cs : List Char) : List Char := ((cs.dropWhile isBlank).reverse.dropWhile isBlank).reverse

/-- The parts of a text between the separators. -/
def splitAtChar (sep : Char) : List Char → List (List Char)
  | [] => [[]]
  | c :: rest =>
    if c = sep then [] :: splitAtChar sep rest
    else match splitAtChar sep rest with
      | [] => [[c]]
      | w :: ws => (c :: w) :: ws

/-- The value of a digit in a base up to 16. -/
def digitValue (base : Nat) (c : Char) : Option Nat :=
  let n := c.toNat
  let d := if 48 ≤ n ∧ n ≤ 57 then n - 48
    else if 65 ≤ n ∧ n ≤ 70 then n - 55
    else if 97 ≤ n ∧ n ≤ 102 then n - 87 else 16
  if d < base then some d else none

/-- The number that digits of a base spell. -/
def numberInBase (base : Nat) (cs : List Char) : Option Nat :=
  if cs = [] then none
  else cs.foldl (fun acc c => do return (← acc) * base + (← digitValue base c)) (some 0)

/-- A number, "decimal or with a `0x` prefix for hexadecimal" (R87). -/
def parseNumber : List Char → Option Nat
  | '0' :: 'x' :: cs => numberInBase 16 cs
  | cs => numberInBase 10 cs

/-- `CLK` or `DAT`. -/
def parseLineName : List Char → Option Line
  | ['C', 'L', 'K'] => some .clock
  | ['D', 'A', 'T'] => some .data
  | _ => none

/-- The mnemonics of R87 and R88. -/
inductive Keyword where
  | release | drivelow | readline | wrbit | rdbit | start | stop | wrbyte | rdbyte | init | reset | wrbytes | rdbytes
  | restart | addrw | addrr
  deriving DecidableEq, Repr

/-- The spelling of each mnemonic. -/
def keywords : List (List Char × Keyword) :=
  [(['R', 'E', 'L', 'E', 'A', 'S', 'E'], .release), (['D', 'R', 'I', 'V', 'E', 'L', 'O', 'W'], .drivelow),
   (['R', 'E', 'A', 'D', 'L', 'I', 'N', 'E'], .readline), (['W', 'R', 'B', 'I', 'T'], .wrbit),
   (['R', 'D', 'B', 'I', 'T'], .rdbit), (['S', 'T', 'A', 'R', 'T'], .start), (['S', 'T', 'O', 'P'], .stop),
   (['W', 'R', 'B', 'Y', 'T', 'E'], .wrbyte), (['R', 'D', 'B', 'Y', 'T', 'E'], .rdbyte)] ++
  [(['I', 'N', 'I', 'T'], .init), (['R', 'E', 'S', 'E', 'T'], .reset),
   (['W', 'R', 'B', 'Y', 'T', 'E', 'S'], .wrbytes), (['R', 'D', 'B', 'Y', 'T', 'E', 'S'], .rdbytes),
   (['R', 'E', 'S', 'T', 'A', 'R', 'T'], .restart), (['A', 'D', 'D', 'R', 'W'], .addrw),
   (['A', 'D', 'D', 'R', 'R'], .addrr)]

/-- The statement of a mnemonic and its operands. -/
def parseOperands (k : Keyword) (ops : List (List Char)) : Option Statement :=
  match k, ops with
  | .release, [l] => (parseLineName l).map .release
  | .drivelow, [l] => (parseLineName l).map .drivelow
  | .readline, [l] => (parseLineName l).map .readline
  | .wrbit, [v] => (parseNumber v).map .wrbit
  | .rdbit, [] => some .rdbit
  | .start, [] => some .start
  | .stop, [] => some .stop
  | .wrbyte, [b] => (parseNumber b).map .wrbyte
  | .rdbyte, [] => some (.rdbyte false)
  | .rdbyte, [['L', 'A', 'S', 'T']] => some (.rdbyte true)
  | .init, [] => some .init
  | .reset, [] => some .reset
  | .wrbytes, [s, p, buf, len] => do
    return .wrbytes (← parseNumber s) (← parseNumber p) (← parseNumber buf) (← parseNumber len)
  | .rdbytes, [p, buf, len] => do return .rdbytes (← parseNumber p) (← parseNumber buf) (← parseNumber len)
  | .restart, [] => some .restart
  | .addrw, [a] => (parseNumber a).map .addrw
  | .addrr, [a] => (parseNumber a).map .addrr
  | _, _ => none

/-- One line of source text: "The mnemonic comes first, then comma-separated operands. `;` starts a comment" (R87). -/
def parseLine (cs : List Char) : Except AsmReason (Option Statement) :=
  let body := trimBlanks (cs.takeWhile (· != ';'))
  if body = [] then .ok none
  else
    let word := body.takeWhile fun c => !isBlank c
    let rest := trimBlanks (body.dropWhile fun c => !isBlank c)
    let ops := if rest = [] then [] else (splitAtChar ',' rest).map trimBlanks
    match (keywords.find? fun e => e.1 == word).bind fun e => parseOperands e.2 ops with
    | some st => .ok (some st)
    | none => .error .noStatement

/-- The words of a program given as source text, one statement a line (R87). -/
def assembleText (source : List Char) : Assembled := assembleFrom 1 ((splitAtChar '\n' source).map parseLine)

end Sys2Proof.Machine
end

