-- ==== Sys2Proof/Safety.lean ====
section
/-! DEFINITION. The terms claims are stated in: the events of one command, the waveform they put on the lines, what the bus
environment does, the conditions a state can meet, and the bounds of 70_reset_and_hazards.md R244. -/
namespace Sys2Proof.Machine

/-! ### Events (10_state.md R31) -/

/-- The events that `t` has and `s` has not yet. -/
def newEvents (s t : State) : List Event := t.history.drop s.history.length

/-- A port access: `PRd` or `PWr`. -/
def Event.isPort : Event → Bool
  | .portRead .. => true
  | .portWrite .. => true
  | .memRead .. => false
  | .memWrite .. => false
  | .done .. => false

/-- How many port accesses there are ("n accesses" of 95_test_vectors.md). -/
def portAccesses (evs : List Event) : Nat := evs.countP Event.isPort

/-- The completions among the events, in order. -/
def completions (evs : List Event) : List (Command × Condition × Byte) :=
  evs.filterMap fun e => match e with
    | .done cmd c v => some (cmd, c, v)
    | _ => none

/-- The buffer reads among the events, in order: address and byte. -/
def bufferReads (evs : List Event) : List (Word × Byte) :=
  evs.filterMap fun e => match e with
    | .memRead a v => some (a, v)
    | _ => none

/-- The buffer writes among the events, in order: address and byte. -/
def bufferWrites (evs : List Event) : List (Word × Byte) :=
  evs.filterMap fun e => match e with
    | .memWrite a v => some (a, v)
    | _ => none

/-- The values written to a port address, in order. -/
def portWritesTo (a : Word) (evs : List Event) : List Byte :=
  evs.filterMap fun e => match e with
    | .portWrite b v => if b = a then some v else none
    | _ => none

/-! ### The engine's drive and the waveform (R29, 00_scope.md R12) -/

/-- What the engine does with the two lines: true for released, false for driven low. -/
structure Drive where
  clock : Bool
  data  : Bool
  deriving DecidableEq, Repr

/-- The drive a value of the output port stands for, its line bits being outputs (R29). -/
def driveOf (cfg : Cfg) (v : Byte) : Drive :=
  ⟨bitAt v cfg.clkOutBit == relBit cfg, bitAt v cfg.dataOutBit == relBit cfg⟩

/-- The drives that a command's writes of the output port put on the lines, in order. -/
def drives (s t : State) : List Drive := (portWritesTo s.cfg.portOutAddr (newEvents s t)).map (driveOf s.cfg)

/-- A condition on the wire (R12). -/
inductive WireCondition where
  /-- "DATA transitions high-to-low while CLOCK is high" -/
  | start
  /-- "DATA transitions low-to-high while CLOCK is high" -/
  | stop
  deriving DecidableEq, Repr

/-- The conditions that a sequence of drives, after the drive `d`, makes on lines that no other agent drives (R12). Where one
write changes both lines, "which line rises first electrically" is not fixed (70_reset_and_hazards.md R238); this definition
counts no condition there (DESIGN CHOICE, log 19, unsafe). No statement is about such a write. -/
def wireConditions (d : Drive) : List Drive → List WireCondition
  | [] => []
  | e :: rest =>
    (if d.clock && e.clock && d.data && !e.data then [.start]
      else if d.clock && e.clock && !d.data && e.data then [.stop] else []) ++ wireConditions e rest

/-- The drives of one bit `v`, CLOCK being at `c` before it: DATA is set up, CLOCK rises, CLOCK falls (41_bit_transport.md
R122, R123; a bit that is read is driven as a 1). -/
def bitDrives (c v : Bool) : List Drive := [⟨c, v⟩, ⟨true, v⟩, ⟨false, v⟩]

/-- The drives of bits, CLOCK being at `c` before the first; it is low before every later one. -/
def bitsDrives (c : Bool) : List Bool → List Drive
  | [] => []
  | v :: vs => bitDrives c v ++ bitsDrives false vs

/-- The drives of a START (42_protocol_engine.md R141): a first START, or a repeated one. -/
def startDrives (s : State) : List Drive :=
  if s.started then [⟨!engineLow s .clock, true⟩, ⟨true, true⟩, ⟨true, false⟩, ⟨false, false⟩]
  else [⟨!engineLow s .clock, false⟩, ⟨false, false⟩]

/-- The drives of a STOP (R142), CLOCK being at `c` before it. -/
def stopDrives (c : Bool) : List Drive := [⟨c, false⟩, ⟨true, false⟩, ⟨true, true⟩]

/-- The DATA drives at which CLOCK is released after the drive `d`: the bits that are clocked onto the bus. -/
def clockedBits (d : Drive) : List Drive → List Bool
  | [] => []
  | e :: rest => (if !d.clock && e.clock then [e.data] else []) ++ clockedBits e rest

/-- The bits of a byte, most significant first (20_memory.md R54). -/
def msbFirst (b : Byte) : List Bool := [7, 6, 5, 4, 3, 2, 1, 0].map (bitAt b)

/-- The byte that eight bits make, most significant first (R54). -/
def byteOfMsbFirst (bits : List Bool) : Byte := bits.foldl shiftIn 0x00#8

/-! ### The bus environment (R28) -/

/-- The next `n` answers are there, and no answer holds CLOCK low: no peer stretches the clock. -/
def ClockFree (s : State) (n : Nat) : Prop := n ≤ s.env.length ∧ ∀ e ∈ s.env, e.clockLow = false

/-- The next `n` answers are there, and every answer holds CLOCK low: a peer stretches the clock and never lets go. -/
def ClockHeld (s : State) (n : Nat) : Prop := n ≤ s.env.length ∧ ∀ e ∈ s.env, e.clockLow = true

/-- What a released DATA line reads at the answer with index `j`: true for high (R28). -/
def dataSeen (s : State) (j : Nat) : Bool := !(s.env.getD j .free).dataLow

/-- The polls one stretch wait makes when CLOCK is high at the first (41_bit_transport.md R120, R126). -/
def pollsWhenFree (cfg : Cfg) : Nat := if cfg.stretch = .none then 0 else 1

/-- The reads of the output port that also sample the lines, in `n` of them: all where the ports share an address. -/
def sharedSamples (cfg : Cfg) (n : Nat) : Nat := if cfg.portInAddr = cfg.portOutAddr then n else 0

/-! ### What a command asks of the bus environment, and what it hears (R28)

The rules list a command's accesses in order (10_state.md R33). Here they stand as points at which the command meets the
environment, and `hear` reads the environment's answers along them: how far the command comes, and what it samples. -/

/-- A point of a command at which it meets the bus environment, or the buffer. -/
inductive Ask where
  /-- a line change, two port accesses; on a shared port its read samples the lines too (20_memory.md R51, R56) -/
  | change
  /-- a stretch wait, CLOCK being released (41_bit_transport.md R120) -/
  | wait
  /-- an arbitration check (R121); does the engine itself drive DATA low there? -/
  | check (engineDrives : Bool)
  /-- a sample of DATA, being released (R123) -/
  | sample
  /-- a buffer access, which asks nothing (20_memory.md R53) -/
  | buffer
  deriving DecidableEq, Repr

/-- `WriteBit(v)` (R122). -/
def writeAsks (v : Bool) : List Ask := [.change, .change, .wait] ++ (if v then [.check false] else []) ++ [.change]

/-- `ReadBit()` (R123). -/
def readAsks : List Ask := [.change, .change, .wait, .sample, .change]

/-- `Start()` (42_protocol_engine.md R141): before a repeated start's check DATA is released, before a first start's it is as
the engine left it. -/
def startAsks (s : State) : List Ask :=
  if s.started then [.change, .change, .wait, .check false, .change, .change]
  else [.check (engineLow s .data), .change, .change]

/-- `Stop()` (R142). -/
def stopAsks : List Ask := [.change, .change, .wait, .change, .check false]

/-- `WriteByte(b)` (R143). -/
def writeByteAsks (b : Byte) : List Ask := (msbFirst b).flatMap writeAsks ++ readAsks

/-- `ReadByte(last)` (R144). -/
def readByteAsks (last : Bool) : List Ask := (List.replicate 8 readAsks).flatten ++ writeAsks last

/-- The bytes of a buffer in ascending order. -/
def bufferBytes (m : Memory) (buf len : Word) : List Byte :=
  (List.range len.toNat).map fun i => readCell m (buf + BitVec.ofNat 16 i).toNat

/-- What each command that waits, checks or samples asks in the state it begins in; the others can end in one way only. -/
def asksOf (s : State) : Instr → List Ask
  | .release _ => []
  | .drivelow _ => []
  | .readline _ => []
  | .wrbit v => writeAsks v
  | .rdbit => readAsks
  | .start => startAsks s
  | .stop => stopAsks
  | .wrbyte b => writeByteAsks b
  | .rdbyte last => readByteAsks last
  | .init => []
  | .reset => []
  | .wrbytes st p buf len =>
    (if st then startAsks s else []) ++ (bufferBytes s.mem buf len).flatMap (fun b => .buffer :: writeByteAsks b) ++
      (if p then stopAsks else [])
  | .rdbytes p _ len =>
    (List.range len.toNat).flatMap (fun i => readByteAsks (decide (i + 1 = len.toNat)) ++ [.buffer]) ++
      (if p then stopAsks else [])

/-- How far a command comes on the answers it is given. -/
inductive Ending where
  /-- through all its points -/
  | through
  /-- to an arbitration check that reads DATA low (60_exceptions.md R203) -/
  | lost
  /-- to a stretch wait whose polls all read CLOCK low (R204) -/
  | timedOut
  /-- to a point for which no answer is given -/
  | unheard
  deriving DecidableEq, Repr

/-- What a command hears up to its ending: its port accesses, the stretch polls among them, the levels of DATA at its samples,
its buffer accesses, and the answers that are left. -/
structure Heard where
  ending : Ending
  accesses : Nat
  polls : Nat
  levels : List Bool
  buffered : Nat
  rest : List EnvSample
  deriving DecidableEq, Repr

/-- At most `n` polls of CLOCK (R120). -/
def hearPolls : Nat → List EnvSample → Heard
  | 0, env => ⟨.timedOut, 0, 0, [], 0, env⟩
  | _ + 1, [] => ⟨.unheard, 0, 0, [], 0, []⟩
  | n + 1, e :: rest =>
    if e.clockLow then
      let h := hearPolls n rest
      { h with accesses := h.accesses + 1, polls := h.polls + 1 }
    else ⟨.through, 1, 1, [], 0, rest⟩

/-- What is heard at one point. -/
def hearOne (cfg : Cfg) (a : Ask) (env : List EnvSample) : Heard :=
  match a with
  | .change => ⟨.through, 2, 0, [], 0, env.drop (sharedSamples cfg 1)⟩
  | .wait =>
    match cfg.stretch with
    | .none => ⟨.through, 0, 0, [], 0, env⟩
    | .wait n => hearPolls n.toNat env
  | .check low =>
    if cfg.arbDetect then
      match env with
      | [] => ⟨.unheard, 0, 0, [], 0, []⟩
      | e :: rest => ⟨if low || e.dataLow then .lost else .through, 1, 0, [], 0, rest⟩
    else ⟨.through, 0, 0, [], 0, env⟩
  | .sample =>
    match env with
    | [] => ⟨.unheard, 0, 0, [], 0, []⟩
    | e :: rest => ⟨.through, 1, 0, [!e.dataLow], 0, rest⟩
  | .buffer => ⟨.through, 0, 0, [], 1, env⟩

/-- What is heard after `h`, if the command goes on. -/
def Heard.andThen (h : Heard) (next : List EnvSample → Heard) : Heard :=
  match h.ending with
  | .through =>
    let g := next h.rest
    ⟨g.ending, h.accesses + g.accesses, h.polls + g.polls, h.levels ++ g.levels, h.buffered + g.buffered, g.rest⟩
  | _ => h

/-- What is heard along the points of a command. -/
def hear (cfg : Cfg) : List Ask → List EnvSample → Heard
  | [], env => ⟨.through, 0, 0, [], 0, env⟩
  | a :: rest, env => (hearOne cfg a env).andThen (hear cfg rest)

/-- The arbitration checks made where `n` points call for one. -/
def checks (cfg : Cfg) (n : Nat) : Nat := if cfg.arbDetect then n else 0

/-- The polls that `n` stretch waits can make when all of them succeed: none under NONE, 1 to N each under WAIT(N)
(41_bit_transport.md R126). -/
def PollsOf (cfg : Cfg) (n polls : Nat) : Prop :=
  match cfg.stretch with
  | .none => polls = 0
  | .wait bound => n ≤ polls ∧ polls ≤ n * bound.toNat

/-- Byte i of the bytes that samples make, eight samples a byte, most significant bit first (R54, R144). -/
def byteSampled (levels : List Bool) (i : Nat) : Byte := byteOfMsbFirst ((levels.drop (8 * i)).take 8)

/-! ### States -/

/-- The sense bits of a shared port are inputs (00_scope.md R7 asks it of INIT_DDR). -/
def SenseBitsAreInputs (s : State) : Prop :=
  s.cfg.portInAddr = s.cfg.portOutAddr → isOutput s s.cfg.clkInBit = false ∧ isOutput s s.cfg.dataInBit = false

/-- Both line bits are outputs, so that the engine can drive the lines (R26, R29). -/
def LinesAreOutputs (s : State) : Prop :=
  isOutput s s.cfg.clkOutBit = true ∧ isOutput s s.cfg.dataOutBit = true

/-- A configuration that is well formed, and, once INIT has run, a port set up as INIT_DDR sets it up. -/
def PortSetUp (s : State) : Prop :=
  s.cfg.wellFormed = true ∧ (s.configured = true → LinesAreOutputs s ∧ SenseBitsAreInputs s)

/-- The invariant of every step: host memory is in canonical form and BITCNT is in its range 0..8 (R23). -/
def Inv (s : State) : Prop := s.mem.wf = true ∧ s.bitcnt ≤ 8#4

/-- In this step the host, if it moves, leaves the direction register alone (R242, D32: between INIT and RESET no other agent
writes DDR). The host moves when no packet is complete. -/
def HostLeavesDdr (s : State) : Prop :=
  fetchCommand s.stream = none → s.configured = true → ∀ a v rest, s.host = .store a v :: rest → a ≠ s.cfg.ddrAddr

/-! ### The assembler's refusal (R87) -/

/-- After any statements it encodes, the assembler refuses the statement `st` by the name of the operand and the line it stands
on, the first line being line 1 (log 15); the program gets no words then (log 20). -/
def RefusedByNameAndLine (st : Statement) (operand : AsmOperand) : Prop :=
  ∀ (before : List Statement) (ws : List Word), assembleStatements before = .words ws →
    assembleStatements (before ++ [st]) = .refused (before.length + 1) (.outOfRange operand)

/-! ### Illegal words and buffers, as the rules word them -/

/-- 30_encoding.md R85. -/
def IllegalWord (w : Word) : Prop :=
  opField w = 0x0#4 ∨ opField w = 0xE#4 ∨ opField w = 0xF#4 ∨
    ∃ r ∈ opcodeTable, opField r.pattern = opField w ∧ w &&& r.mask ≠ r.pattern

/-- 60_exceptions.md R207: `BufferOK(buf, len)`. -/
def BufferOK (cfg : Cfg) (buf len : Word) : Prop :=
  len.toNat = 0 ∨
    (buf.toNat + len.toNat - 1 ≤ 0xFFFF ∧
      ∀ i < len.toNat,
        cfg.admits (BitVec.ofNat 16 (buf.toNat + i)) = true ∧
          BitVec.ofNat 16 (buf.toNat + i) ≠ cfg.portOutAddr ∧
          BitVec.ofNat 16 (buf.toNat + i) ≠ cfg.portInAddr ∧
          BitVec.ofNat 16 (buf.toNat + i) ≠ cfg.ddrAddr)

/-! ### Bounds (R244) -/

/-- `N`: 0 under `NONE`, the poll bound under `WAIT(N)`. -/
def pollBound (cfg : Cfg) : Nat :=
  match cfg.stretch with
  | .none => 0
  | .wait n => n.toNat

/-- The table of R244. -/
def accessBound (cfg : Cfg) : Instr → Nat
  | .release _ => 2
  | .drivelow _ => 2
  | .readline _ => 1
  | .wrbit _ => 7 + pollBound cfg
  | .rdbit => 7 + pollBound cfg
  | .start => 9 + pollBound cfg
  | .stop => 7 + pollBound cfg
  | .wrbyte _ => 9 * (7 + pollBound cfg)
  | .rdbyte _ => 9 * (7 + pollBound cfg)
  | .init => 2
  | .reset => 2
  | .wrbytes _ _ _ len => (9 + pollBound cfg) + len.toNat * 9 * (7 + pollBound cfg) + (7 + pollBound cfg)
  | .rdbytes _ _ len => len.toNat * 9 * (7 + pollBound cfg) + (7 + pollBound cfg)

/-- "plus `len` buffer reads" of WRBYTES (R244). -/
def bufferReadBound : Instr → Nat
  | .wrbytes _ _ _ len => len.toNat
  | _ => 0

/-- "plus `len` buffer writes" of RDBYTES (R244). -/
def bufferWriteBound : Instr → Nat
  | .rdbytes _ _ len => len.toNat
  | _ => 0

end Sys2Proof.Machine
end

