-- ==== Sys2Proof/Certificates/Slice0/Obligations.lean ====
section
/-! DEFINITION. The statements for the provers, from the numbered rules of spec/. `s.cfg` is any configuration in every one
of them, and `env`, the environment's answers, any list, unless a hypothesis says more; `hear` says what a command hears of
them. -/

open Sys2Proof Sys2Proof.Machine

/-! ### Encoding -/

/-- Words written out in 95_test_vectors.md ENC-1 decode to the commands they stand for. -/
def Obligations.SpecWordsDecode : Prop :=
  fetchCommand [0x1100#16] = some (.legal (.release .data), []) ∧
  fetchCommand [0x2000#16] = some (.legal (.drivelow .clock), []) ∧
  fetchCommand [0x3100#16] = some (.legal (.readline .data), []) ∧
  fetchCommand [0x4100#16] = some (.legal (.wrbit true), []) ∧
  fetchCommand [0x5000#16] = some (.legal .rdbit, []) ∧
  fetchCommand [0x6000#16] = some (.legal .start, []) ∧
  fetchCommand [0x80A5#16] = some (.legal (.wrbyte 0xA5#8), []) ∧
  fetchCommand [0x9100#16] = some (.legal (.rdbyte true), []) ∧
  fetchCommand [0xA000#16] = some (.legal .init, []) ∧
  fetchCommand [0xC200#16, 0x0300#16, 0x0001#16] = some (.legal (.wrbytes true false 0x0300#16 1#16), []) ∧
  fetchCommand [0xD100#16, 0x0400#16, 0x0003#16] = some (.legal (.rdbytes true 0x0400#16 3#16), [])

/-- 30_encoding.md R82 to R84: decoding the words of a command gives the command back and leaves the words after it. -/
def Obligations.DecodeOfEncode : Prop :=
  ∀ (i : Instr) (rest : List Word), fetchCommand (encode i ++ rest) = some (.legal i, rest)

/-- R82 to R84: a command has one encoding; what decodes to it is its words. -/
def Obligations.EncodeOfDecode : Prop :=
  ∀ (ws rest : List Word) (i : Instr), fetchCommand ws = some (.legal i, rest) → ws = encode i ++ rest

/-- R90: decoding is total, every word selects exactly one row or is illegal under R85, and never both; the decoder follows. -/
def Obligations.EveryWordSelectsOneRowOrIsIllegal : Prop :=
  ∀ w : Word,
    (((∃ r ∈ opcodeTable, w &&& r.mask = r.pattern ∧
          ∀ r' ∈ opcodeTable, w &&& r'.mask = r'.pattern → r' = r) ∧ ¬ IllegalWord w) ∨
      ((∀ r ∈ opcodeTable, w &&& r.mask ≠ r.pattern) ∧ IllegalWord w)) ∧
    ∀ w1 w2 : Word, (∃ i, decode w w1 w2 = .legal i) ↔ ¬ IllegalWord w

/-- R86: the packet's length is decided by OP alone, for an illegal command word too. -/
def Obligations.PacketLengthIsDecidedByOp : Prop :=
  ∀ (w0 w1 w2 : Word) (rest : List Word),
    (opField w0 = 0xC#4 ∨ opField w0 = 0xD#4 →
      fetchCommand (w0 :: w1 :: w2 :: rest) = some (decode w0 w1 w2, rest) ∧
      fetchCommand [w0] = none ∧ fetchCommand [w0, w1] = none) ∧
    (opField w0 ≠ 0xC#4 ∧ opField w0 ≠ 0xD#4 → fetchCommand (w0 :: rest) = some (decode w0 0#16 0#16, rest))

/-- R87, R88: what every statement of the assembler encodes, for every operand in its range; out of its range each operand is
refused by name and line. The model's choice: lines count from 1 (log 15); the leftmost operand out of range is the one named, on
the first refused line, and the program gets no words (log 20). -/
def Obligations.AssemblerStatementsEncode : Prop :=
  (assembleStatements [.release .clock] = .words [0x1000#16] ∧ assembleStatements [.release .data] = .words [0x1100#16] ∧
    assembleStatements [.drivelow .clock] = .words [0x2000#16] ∧ assembleStatements [.drivelow .data] = .words [0x2100#16] ∧
    assembleStatements [.readline .clock] = .words [0x3000#16] ∧ assembleStatements [.readline .data] = .words [0x3100#16] ∧
    assembleStatements [.wrbit 0] = .words [0x4000#16] ∧ assembleStatements [.wrbit 1] = .words [0x4100#16] ∧
    assembleStatements [.rdbit] = .words [0x5000#16] ∧ assembleStatements [.start] = .words [0x6000#16] ∧
    assembleStatements [.stop] = .words [0x7000#16] ∧
    assembleStatements [.rdbyte false] = .words [0x9000#16] ∧ assembleStatements [.rdbyte true] = .words [0x9100#16] ∧
    assembleStatements [.init] = .words [0xA000#16] ∧ assembleStatements [.reset] = .words [0xB000#16] ∧
    assembleStatements [.restart] = .words [0x6000#16]) ∧
  (∀ b : Byte, assembleStatements [.wrbyte b.toNat] = .words [0x8000#16 ||| b.setWidth 16]) ∧
  (∀ (s p : Bool) (buf len : Word),
    assembleStatements [.wrbytes s.toNat p.toNat buf.toNat len.toNat] =
      .words [0xC000#16 ||| (BitVec.ofNat 16 s.toNat <<< 9) ||| (BitVec.ofNat 16 p.toNat <<< 8), buf, len] ∧
    assembleStatements [.rdbytes p.toNat buf.toNat len.toNat] =
      .words [0xD000#16 ||| (BitVec.ofNat 16 p.toNat <<< 8), buf, len]) ∧
  (∀ a : Byte, bitAt a 0 = false →
    assembleStatements [.addrw a.toNat] = .words [0x6000#16, 0x8000#16 ||| a.setWidth 16] ∧
    assembleStatements [.addrr a.toNat] = .words [0x6000#16, 0x8000#16 ||| (a ||| 0x01#8).setWidth 16]) ∧
  (∀ n, 1 < n →
    RefusedByNameAndLine (.wrbit n) .v ∧
    (∀ p buf len, RefusedByNameAndLine (.wrbytes n p buf len) .s) ∧
    (∀ (s : Bool) buf len, RefusedByNameAndLine (.wrbytes s.toNat n buf len) .p) ∧
    ∀ buf len, RefusedByNameAndLine (.rdbytes n buf len) .p) ∧
  (∀ n, 255 < n → RefusedByNameAndLine (.wrbyte n) .b) ∧
  (∀ n, 65535 < n → ∀ s p : Bool,
    (∀ len, RefusedByNameAndLine (.wrbytes s.toNat p.toNat n len) .buf ∧ RefusedByNameAndLine (.rdbytes p.toNat n len) .buf) ∧
    ∀ buf : Word, RefusedByNameAndLine (.wrbytes s.toNat p.toNat buf.toNat n) .len ∧
      RefusedByNameAndLine (.rdbytes p.toNat buf.toNat n) .len) ∧
  ∀ n, 255 < n ∨ n % 2 = 1 → RefusedByNameAndLine (.addrw n) .a ∧ RefusedByNameAndLine (.addrr n) .a

/-! ### A step -/

/-- R89, R80: when the words on the command interface decode to a command, step is that command on the state with its words
taken. -/
def Obligations.StepRunsTheDecodedCommand : Prop :=
  ∀ (s : State) (i : Instr) (rest : List Word), s.cfg.wellFormed = true →
    (fetchCommand s.stream = some (.legal i, rest) → step s = exec i { s with stream := rest }) ∧
    (s.stream = encode i ++ rest → step s = exec i { s with stream := rest })

/-- 30_encoding.md R85, 60_exceptions.md R205: a packet whose command word is illegal is taken whole and changes nothing but
RESULT and the history's Done event, whether the engine is configured or not; VALUE is a draw. No legal command completes so. -/
def Obligations.IllegalPacketOnlyReports : Prop :=
  (∀ (s : State) (w0 w1 w2 : Word) (rest : List Word), s.cfg.wellFormed = true → IllegalWord w0 →
    s.stream = (if opField w0 = 0xC#4 ∨ opField w0 = 0xD#4 then [w0, w1, w2] else [w0]) ++ rest →
      ∃ why ws v, step s = .next { s with
        stream := rest
        result := ⟨3#3, v⟩
        history := s.history ++ [.done (.illegal why ws) .illegalCommand v]
        draws := s.draws + 1 }) ∧
  ∀ (i : Instr) (s t : State), exec i s = .next t → t.result.cond ≠ 3#3

/-- 00_scope.md R7: a configuration within the ranges of R6 is refused exactly when a condition fails, and by the name of a
condition that fails; no step faults. -/
def Obligations.StepRefusesExactlyBadConfigurations : Prop :=
  ∀ s : State, s.cfg.stretch ≠ .wait 0#16 →
    ((∃ r, step s = .refused r) ↔
      ¬ (s.cfg.clkOutBit ≠ s.cfg.dataOutBit ∧ s.cfg.clkInBit ≠ s.cfg.dataInBit ∧
        (s.cfg.portInAddr = s.cfg.portOutAddr →
          s.cfg.clkInBit ≠ s.cfg.clkOutBit ∧ s.cfg.clkInBit ≠ s.cfg.dataOutBit ∧
          s.cfg.dataInBit ≠ s.cfg.clkOutBit ∧ s.cfg.dataInBit ≠ s.cfg.dataOutBit) ∧
        s.cfg.ddrAddr ≠ s.cfg.portOutAddr ∧ s.cfg.ddrAddr ≠ s.cfg.portInAddr ∧
        (bitAt s.cfg.initDdr s.cfg.clkOutBit = s.cfg.ddrOutValue ∧
          bitAt s.cfg.initDdr s.cfg.dataOutBit = s.cfg.ddrOutValue) ∧
        (s.cfg.portInAddr = s.cfg.portOutAddr →
          bitAt s.cfg.initDdr s.cfg.clkInBit ≠ s.cfg.ddrOutValue ∧
          bitAt s.cfg.initDdr s.cfg.dataInBit ≠ s.cfg.ddrOutValue) ∧
        bitAt s.cfg.initOut s.cfg.clkOutBit = relBit s.cfg ∧ bitAt s.cfg.initOut s.cfg.dataOutBit = relBit s.cfg)) ∧
    (∀ r, step s = .refused r → ∃ c, r = .configuration c ∧ s.cfg.meets c = false) ∧
    ∀ f, step s ≠ .fault f

/-- The model's choice (log 9, log 10): while no packet is complete the host makes its next move, and with none to make
nothing changes. -/
def Obligations.WaitingEngineLetsTheHostMove : Prop :=
  ∀ s : State, s.cfg.wellFormed = true → fetchCommand s.stream = none →
    (s.host = [] → step s = .next s) ∧
    (∀ w ms, s.host = .send w :: ms → step s = .next { s with host := ms, stream := s.stream ++ [w] }) ∧
    (∀ a v ms, s.host = .store a v :: ms → a ≠ s.cfg.portOutAddr → a ≠ s.cfg.portInAddr → a ≠ s.cfg.ddrAddr →
      step s = .next { s with host := ms, mem := writeCell s.mem a.toNat v }) ∧
    (∀ v ms, s.host = .store s.cfg.portOutAddr v :: ms → step s = .next { s with host := ms, out := v }) ∧
    (∀ v ms, s.host = .store s.cfg.ddrAddr v :: ms → step s = .next { s with host := ms, ddr := v })

/-! ### Power-on, and what every step keeps -/

/-- 70_reset_and_hazards.md R230: the state at power-on, under every configuration; it waits for the first packet. -/
def Obligations.PowerOnState : Prop :=
  ∀ cfg : Cfg,
    (State.powerOn cfg).configured = false ∧ (State.powerOn cfg).started = false ∧
    (State.powerOn cfg).history = [] ∧
    (State.powerOn cfg).out = cfg.porOut ∧ (State.powerOn cfg).ddr = cfg.porDdr ∧
    (cfg.wellFormed = true → step (State.powerOn cfg) = .next (State.powerOn cfg))

/-- The invariants hold at reset. That reset is power-on under EXCFG is the model's choice (log 1). -/
def Obligations.InvariantsHoldAtReset : Prop :=
  State.reset = State.powerOn Cfg.excfg ∧ Inv State.reset ∧ PortSetUp State.reset

/-- Every step, of the engine or of the host, keeps host memory canonical and BITCNT in 0..8 (10_state.md R23). -/
def Obligations.StepKeepsTheInvariant : Prop :=
  ∀ s t : State, Inv s → step s = .next t → Inv t

/-- 10_state.md R26, R29, 00_scope.md R7: while the engine is configured its line bits are outputs and the sense bits of a
shared port are inputs, as long as the host leaves the direction register alone (R242, D32; the host's moves are those of
log 9). -/
def Obligations.StepKeepsThePortSetUp : Prop :=
  ∀ s t : State, PortSetUp s → HostLeavesDdr s → step s = .next t → PortSetUp t

/-- 10_state.md R20: no command changes the configuration, and nothing else does. -/
def Obligations.ConfigurationNeverChanges : Prop :=
  (∀ (i : Instr) (s t : State), exec i s = .next t → t.cfg = s.cfg) ∧
  ∀ s t : State, step s = .next t → t.cfg = s.cfg

/-! ### INIT and RESET -/

/-- 43_bus_handle.md R170. -/
def Obligations.InitClaimsTheLines : Prop :=
  ∀ s : State, s.cfg.wellFormed = true →
    ∃ t, exec .init s = .next t ∧
      t = { s with
        out := s.cfg.initOut
        ddr := s.cfg.initDdr
        started := false
        configured := true
        result := ⟨0#3, 0x00#8⟩
        history := s.history ++ [.portWrite s.cfg.portOutAddr s.cfg.initOut,
          .portWrite s.cfg.ddrAddr s.cfg.initDdr, .done (.legal .init) .ok 0x00#8] } ∧
      LinesAreOutputs t ∧ ∀ l, engineLow t l = false

/-- 43_bus_handle.md R171; `started` becomes a draw, any value. -/
def Obligations.ResetGivesTheLinesBack : Prop :=
  ∀ s : State, s.cfg.wellFormed = true →
    ∃ b, exec .reset s = .next { s with
      out := s.cfg.resetOut
      ddr := s.cfg.resetDdr
      started := b
      configured := false
      result := ⟨0#3, 0x00#8⟩
      history := s.history ++ [.portWrite s.cfg.ddrAddr s.cfg.resetDdr,
        .portWrite s.cfg.portOutAddr s.cfg.resetOut, .done (.legal .reset) .ok 0x00#8]
      draws := s.draws + 1 }

/-- R171, R233: a second RESET, a second INIT, and INIT after RESET leave the same port. -/
def Obligations.ResetAndInitRepeat : Prop :=
  ∀ s t u v : State, s.cfg.wellFormed = true →
    exec .reset s = .next t → exec .reset t = .next u → exec .init u = .next v →
      u.out = t.out ∧ u.ddr = t.ddr ∧ u.configured = t.configured ∧
      v.out = s.cfg.initOut ∧ v.ddr = s.cfg.initDdr ∧ v.started = false ∧ v.configured = true ∧
      v.shift = s.shift ∧ v.bitcnt = s.bitcnt ∧ v.nackacc = s.nackacc ∧ v.idx = s.idx ∧ v.mem = s.mem ∧
      ∀ w, exec .init v = .next w → w = { v with history := v.history ++ [.portWrite v.cfg.portOutAddr v.cfg.initOut,
        .portWrite v.cfg.ddrAddr v.cfg.initDdr, .done (.legal .init) .ok 0x00#8] }

/-! ### The Line Driver -/

/-- 40_line_driver.md R100: one read-modify-write that sets the line's output bit, or clears it under the inversion policy;
output bits that are no sense bits are written as they were. -/
def Obligations.ReleaseIsOneReadModifyWrite : Prop :=
  ∀ (s : State) (l : Line), s.configured = true →
    ∃ v w t, exec (.release l) s = .next t ∧
      w = (if relBit s.cfg then v ||| (1#8 <<< (outBit s.cfg l).val) else v &&& ~~~(1#8 <<< (outBit s.cfg l).val)) ∧
      t = { s with
        out := w
        result := ⟨0#3, 0x00#8⟩
        history := s.history ++ [.portRead s.cfg.portOutAddr v, .portWrite s.cfg.portOutAddr w,
          .done (.legal (.release l)) .ok 0x00#8]
        env := s.env.drop (sharedSamples s.cfg 1)
        draws := t.draws } ∧
      (∀ k, isOutput s k = true →
        (s.cfg.portInAddr = s.cfg.portOutAddr → k ≠ s.cfg.clkInBit ∧ k ≠ s.cfg.dataInBit) →
        bitAt v k = bitAt s.out k) ∧
      engineLow t l = false

/-- 40_line_driver.md R101. -/
def Obligations.DrivelowIsOneReadModifyWrite : Prop :=
  ∀ (s : State) (l : Line), s.configured = true →
    ∃ v w t, exec (.drivelow l) s = .next t ∧
      w = (if relBit s.cfg then v &&& ~~~(1#8 <<< (outBit s.cfg l).val) else v ||| (1#8 <<< (outBit s.cfg l).val)) ∧
      t = { s with
        out := w
        result := ⟨0#3, 0x00#8⟩
        history := s.history ++ [.portRead s.cfg.portOutAddr v, .portWrite s.cfg.portOutAddr w,
          .done (.legal (.drivelow l)) .ok 0x00#8]
        env := s.env.drop (sharedSamples s.cfg 1)
        draws := t.draws } ∧
      (∀ k, isOutput s k = true →
        (s.cfg.portInAddr = s.cfg.portOutAddr → k ≠ s.cfg.clkInBit ∧ k ≠ s.cfg.dataInBit) →
        bitAt v k = bitAt s.out k) ∧
      engineLow t l = isOutput s (outBit s.cfg l)

/-- 40_line_driver.md R102: one read of the input port; the sense bit after the inversion policy, which is the level of the
line: 0 when the engine drives it low, else what the environment leaves it at. -/
def Obligations.ReadlineReturnsTheLevel : Prop :=
  ∀ (s : State) (l : Line), s.cfg.wellFormed = true → s.configured = true →
    ∃ x v t, exec (.readline l) s = .next t ∧
      t = { s with
        result := ⟨0#3, if x then 0x01#8 else 0x00#8⟩
        history := s.history ++ [.portRead s.cfg.portInAddr v,
          .done (.legal (.readline l)) .ok (if x then 0x01#8 else 0x00#8)]
        env := s.env.drop 1
        draws := t.draws } ∧
      x = (bitAt v (inBit s.cfg l) != s.cfg.inActiveLow) ∧
      (engineLow s l = true → x = false) ∧
      ∀ e rest, s.env = e :: rest → x = (!engineLow s l && !e.low l)

/-! ### The Bit Transport -/

/-- 41_bit_transport.md R120: no access under NONE; under WAIT(N) the wait returns at the first poll that reads high and raises
BusTimeout when all N read low. CLOCK is released, as at every caller. -/
def Obligations.StretchWaitPollsUntilClockIsHigh : Prop :=
  ∀ s : State, s.cfg.wellFormed = true →
    (s.cfg.stretch = .none → stretchWait s = .ok () s) ∧
    (∀ n lows e rest, s.cfg.stretch = .wait n → engineLow s .clock = false →
      (∀ x ∈ lows, x.clockLow = true) → e.clockLow = false → lows.length < n.toNat → s.env = lows ++ e :: rest →
      ∃ t, stretchWait s = .ok () t ∧ portAccesses (newEvents s t) = lows.length + 1 ∧
        t = { s with history := t.history, env := rest, draws := t.draws }) ∧
    ∀ n lows rest, s.cfg.stretch = .wait n → engineLow s .clock = false →
      (∀ x ∈ lows, x.clockLow = true) → lows.length = n.toNat → s.env = lows ++ rest →
      ∃ t, stretchWait s = .error .busTimeout t ∧ portAccesses (newEvents s t) = n.toNat ∧
        t = { s with history := t.history, env := rest, draws := t.draws }

/-- 41_bit_transport.md R121: no access without ARB_DETECT; with it one sample of DATA, and ArbitrationLost exactly when DATA
reads low. -/
def Obligations.ArbCheckSamplesDataOnce : Prop :=
  ∀ s : State, s.cfg.wellFormed = true →
    (s.cfg.arbDetect = false → arbCheck s = .ok () s) ∧
    ∀ e rest, s.cfg.arbDetect = true → s.env = e :: rest →
      ∃ t, arbCheck s = (if engineLow s .data || e.dataLow then .error .arbLost t else .ok () t) ∧
        portAccesses (newEvents s t) = 1 ∧ t = { s with history := t.history, env := rest, draws := t.draws }

/-- 41_bit_transport.md R122, R126: WRBIT completes whenever its stretch wait succeeds, after however many polls, and its check
reads DATA high; with this drive of the lines and these accesses. -/
def Obligations.WrbitClocksOneBitOut : Prop :=
  ∀ (s : State) (v : Bool) (h : Heard), s.cfg.wellFormed = true → s.configured = true →
    h = hear s.cfg (writeAsks v) s.env → h.ending = .through →
    ∃ t, exec (.wrbit v) s = .next t ∧
      t = { s with out := t.out, result := ⟨0#3, 0x00#8⟩, history := t.history, env := h.rest, draws := t.draws } ∧
      portAccesses (newEvents s t) = 6 + h.polls + checks s.cfg (if v then 1 else 0) ∧ PollsOf s.cfg 1 h.polls ∧
      completions (newEvents s t) = [(.legal (.wrbit v), .ok, 0x00#8)] ∧
      engineLow t .clock = isOutput s s.cfg.clkOutBit ∧
      engineLow t .data = (isOutput s s.cfg.dataOutBit && !v) ∧
      (LinesAreOutputs s → drives s t = [⟨!engineLow s .clock, v⟩, ⟨true, v⟩, ⟨false, v⟩])

/-- 41_bit_transport.md R123, R126: RDBIT completes whenever its stretch wait succeeds, after however many polls, with the level
of DATA that the environment gives at the sample. -/
def Obligations.RdbitReturnsTheSample : Prop :=
  ∀ (s : State) (h : Heard), s.cfg.wellFormed = true → s.configured = true → h = hear s.cfg readAsks s.env →
    h.ending = .through →
    ∃ t bit x, exec .rdbit s = .next t ∧ h.levels = [bit] ∧ x = (if bit then 0x01#8 else 0x00#8) ∧
      t = { s with out := t.out, result := ⟨0#3, x⟩, history := t.history, env := h.rest, draws := t.draws } ∧
      portAccesses (newEvents s t) = 7 + h.polls ∧ PollsOf s.cfg 1 h.polls ∧
      completions (newEvents s t) = [(.legal .rdbit, .ok, x)] ∧
      engineLow t .clock = isOutput s s.cfg.clkOutBit ∧
      engineLow t .data = false ∧
      (LinesAreOutputs s → drives s t = [⟨!engineLow s .clock, true⟩, ⟨true, true⟩, ⟨false, true⟩])

/-- 41_bit_transport.md R122, R123: writing a 0 and reading a bit never raise ArbitrationLost, whatever the environment does. -/
def Obligations.ZeroBitsAndReadsNeverLoseArbitration : Prop :=
  ∀ s t : State, s.cfg.wellFormed = true →
    (exec (.wrbit false) s = .next t ∨ exec .rdbit s = .next t ∨ exec (.rdbyte false) s = .next t ∨
      exec (.wrbyte 0x00#8) s = .next t) →
      t.result.cond ≠ 1#3

/-! ### Conditions -/

/-- 60_exceptions.md R203: arbitration loss at its three points. The command ends at the sample with no further access,
`started` is 0, and both lines are released, but on the first-start path, where OUT is as it was. -/
def Obligations.ArbitrationLossEndsTheCommand : Prop :=
  ∀ s : State, s.cfg.wellFormed = true → s.configured = true → s.cfg.arbDetect = true → ClockFree s 8 →
    (dataSeen s (sharedSamples s.cfg 2 + pollsWhenFree s.cfg) = false →
      ∃ t, exec (.wrbit true) s = .next t ∧ t.result.cond = 1#3 ∧
        portAccesses (newEvents s t) = 5 + pollsWhenFree s.cfg ∧ (∀ l, engineLow t l = false) ∧
        t = { s with
          started := false, out := t.out, result := t.result, history := t.history, env := t.env
          draws := t.draws }) ∧
    (s.started = true → dataSeen s (sharedSamples s.cfg 2 + pollsWhenFree s.cfg) = false →
      ∃ t, exec .start s = .next t ∧ t.result.cond = 1#3 ∧
        portAccesses (newEvents s t) = 5 + pollsWhenFree s.cfg ∧ (∀ l, engineLow t l = false) ∧
        t = { s with
          started := false, out := t.out, result := t.result, history := t.history, env := t.env
          draws := t.draws }) ∧
    (s.started = false → (engineLow s .data = true ∨ dataSeen s 0 = false) →
      ∃ t, exec .start s = .next t ∧ t.result.cond = 1#3 ∧ portAccesses (newEvents s t) = 1 ∧
        t = { s with result := t.result, history := t.history, env := t.env, draws := t.draws }) ∧
    (dataSeen s (sharedSamples s.cfg 3 + pollsWhenFree s.cfg) = false →
      ∃ t, exec .stop s = .next t ∧ t.result.cond = 1#3 ∧
        portAccesses (newEvents s t) = 7 + pollsWhenFree s.cfg ∧ (∀ l, engineLow t l = false) ∧
        t = { s with
          started := false, out := t.out, result := t.result, history := t.history, env := t.env
          draws := t.draws })

/-- 60_exceptions.md R204: when all N polls read CLOCK low, every command that waits ends after its two line changes, the N
polls and the cleanup that releases DATA; `started` is 0 and the engine drives neither line. A timeout later in a byte or in a
transaction is in ConditionsEndACommandWhereTheyArise. -/
def Obligations.BusTimeoutReleasesDataAndEnds : Prop :=
  ∀ (s : State) (n : Word) (i : Instr), s.cfg.wellFormed = true → s.configured = true →
    s.cfg.stretch = .wait n → ClockHeld s (n.toNat + 3) →
    ((∃ v, i = .wrbit v) ∨ i = .rdbit ∨ i = .stop ∨ (i = .start ∧ s.started = true) ∨
      (∃ b, i = .wrbyte b) ∨ ∃ last, i = .rdbyte last) →
    ∃ t, exec i s = .next t ∧ t.result.cond = 2#3 ∧ portAccesses (newEvents s t) = 6 + n.toNat ∧
      (∀ l, engineLow t l = false) ∧
      t = { s with
        started := false, shift := t.shift, bitcnt := t.bitcnt, out := t.out, result := t.result
        history := t.history, env := t.env, draws := t.draws } ∧
      ((∃ v, i = .wrbit v) ∨ i = .rdbit ∨ i = .stop ∨ i = .start → t.shift = s.shift ∧ t.bitcnt = s.bitcnt)

/-- 60_exceptions.md R202 to R204: a bus condition ends a command at the check or the wait it arises at, wherever in a bit, a
byte, a transaction, a START or a STOP that is: the accesses are those up to there, and after a timeout the cleanup's two; no
STOP is issued. A WRBYTES abandoned in byte i has read the buffer bytes 0..i, a RDBYTES has stored the bytes 0..i-1 as they were
sampled; no other byte of memory changes. Registers that the command does not work with are as they were. -/
def Obligations.ConditionsEndACommandWhereTheyArise : Prop :=
  ∀ (i : Instr) (s : State) (h : Heard), s.cfg.wellFormed = true → s.configured = true →
    (∀ st p buf len, i = .wrbytes st p buf len → BufferOK s.cfg buf len) →
    (∀ p buf len, i = .rdbytes p buf len → BufferOK s.cfg buf len) →
    h = hear s.cfg (asksOf s i) s.env → h.ending = .lost ∨ h.ending = .timedOut →
    ∃ t, exec i s = .next t ∧
      (h.ending = .lost → t.result.cond = 1#3 ∧ portAccesses (newEvents s t) = h.accesses ∧ t.env = h.rest) ∧
      (h.ending = .timedOut → t.result.cond = 2#3 ∧ portAccesses (newEvents s t) = h.accesses + 2 ∧
        t.env = h.rest.drop (sharedSamples s.cfg 1) ∧ ∀ l, engineLow t l = false) ∧
      t = { s with
        started := false, shift := t.shift, bitcnt := t.bitcnt, nackacc := t.nackacc, idx := t.idx, mem := t.mem
        out := t.out, result := t.result, history := t.history, env := t.env, draws := t.draws } ∧
      ((∃ v, i = .wrbit v) ∨ i = .rdbit ∨ i = .start ∨ i = .stop → t.shift = s.shift ∧ t.bitcnt = s.bitcnt) ∧
      ((∀ st p buf len, i ≠ .wrbytes st p buf len) → t.nackacc = s.nackacc ∧
        ((∀ p buf len, i ≠ .rdbytes p buf len) → t.idx = s.idx)) ∧
      (∀ st p buf len, i = .wrbytes st p buf len → h.buffered ≤ len.toNat ∧
        bufferReads (newEvents s t) = (List.range h.buffered).map fun k =>
          (buf + BitVec.ofNat 16 k, readCell s.mem (buf + BitVec.ofNat 16 k).toNat)) ∧
      (∀ p buf len, i = .rdbytes p buf len → h.buffered ≤ len.toNat ∧
        bufferWrites (newEvents s t) = (List.range h.buffered).map fun k =>
          (buf + BitVec.ofNat 16 k, byteSampled h.levels k)) ∧
      t.mem = (bufferWrites (newEvents s t)).foldl (fun m av => writeCell m av.1.toNat av.2) s.mem

/-- 60_exceptions.md R206: NOT_CONFIGURED, for every command except INIT and RESET, and only while `configured` is 0; it changes
nothing but RESULT (and the history's Done); VALUE is a draw. -/
def Obligations.UnconfiguredCommandsOnlyReport : Prop :=
  (∀ (s : State) (i : Instr), s.configured = false → i ≠ .init → i ≠ .reset →
    ∃ v, exec i s = .next { s with
      result := ⟨4#3, v⟩
      history := s.history ++ [.done (.legal i) .notConfigured v]
      draws := s.draws + 1 }) ∧
  ∀ (s t : State) (i : Instr), exec i s = .next t → t.result.cond = 4#3 → s.configured = false ∧ i ≠ .init ∧ i ≠ .reset

/-- 60_exceptions.md R207: BUFFER_FAULT exactly when the range is not admitted, before any bus activity. -/
def Obligations.BadBuffersOnlyReport : Prop :=
  (∀ (s : State) (buf len : Word) (i : Instr), s.configured = true →
    ((∃ st p, i = .wrbytes st p buf len) ∨ ∃ p, i = .rdbytes p buf len) →
    (¬ BufferOK s.cfg buf len →
      ∃ v, exec i s = .next { s with
        result := ⟨5#3, v⟩
        history := s.history ++ [.done (.legal i) .bufferFault v]
        draws := s.draws + 1 }) ∧
    (BufferOK s.cfg buf len → ∀ t, exec i s = .next t → t.result.cond ≠ 5#3)) ∧
  ∀ (s t : State) (i : Instr), exec i s = .next t → t.result.cond = 5#3 →
    s.configured = true ∧ ((∃ st p buf len, i = .wrbytes st p buf len) ∨ ∃ p buf len, i = .rdbytes p buf len)

/-- 60_exceptions.md R218: what holds after a bus condition, whichever command raised it and wherever: `started` is 0; after
BUS_TIMEOUT the engine drives neither line; after ARB_LOST neither, but for the first-start path of R203 point 2, at whose one
sample the command ended, with OUT as it was. -/
def Obligations.StateAfterABusCondition : Prop :=
  ∀ (i : Instr) (s t : State), s.cfg.wellFormed = true → exec i s = .next t →
    (t.result.cond = 2#3 → t.started = false ∧ ∀ l, engineLow t l = false) ∧
    (t.result.cond = 1#3 → t.started = false ∧
      ((∀ l, engineLow t l = false) ∨
        (i = .start ∨ ∃ p buf len, i = .wrbytes true p buf len) ∧ s.started = false ∧ t.out = s.out ∧
          portAccesses (newEvents s t) = 1))

/-- 41_bit_transport.md R124: without ARB_DETECT no command is ever lost to arbitration; under STRETCH = NONE none times out. -/
def Obligations.NoConditionWithoutItsFeature : Prop :=
  ∀ (i : Instr) (s t : State), s.cfg.wellFormed = true → exec i s = .next t →
    (s.cfg.arbDetect = false → t.result.cond ≠ 1#3) ∧ (s.cfg.stretch = .none → t.result.cond ≠ 2#3)

/-! ### The Protocol Engine -/

/-- 42_protocol_engine.md R141, R146: START on both paths, whenever its check reads DATA high and, on the repeated-start path,
its stretch wait succeeds. Without ARB_DETECT the first-start path completes whatever the lines do. -/
def Obligations.StartMakesAStartCondition : Prop :=
  ∀ (s : State) (h : Heard), s.cfg.wellFormed = true → s.configured = true → h = hear s.cfg (startAsks s) s.env →
    (s.started = false → s.cfg.arbDetect = false → h.ending = .through) ∧
    (h.ending = .through →
      ∃ t, exec .start s = .next t ∧
        t = { s with
          started := true, out := t.out, result := ⟨0#3, 0x00#8⟩, history := t.history, env := h.rest
          draws := t.draws } ∧
        (∀ l, engineLow t l = isOutput s (outBit s.cfg l)) ∧
        (s.started = false →
          portAccesses (newEvents s t) = 4 + checks s.cfg 1 ∧
          (LinesAreOutputs s → drives s t = [⟨!engineLow s .clock, false⟩, ⟨false, false⟩])) ∧
        (s.started = true →
          portAccesses (newEvents s t) = 8 + h.polls + checks s.cfg 1 ∧ PollsOf s.cfg 1 h.polls ∧
          (LinesAreOutputs s →
            drives s t = [⟨!engineLow s .clock, true⟩, ⟨true, true⟩, ⟨true, false⟩, ⟨false, false⟩])))

/-- 42_protocol_engine.md R142, R146: STOP, whenever its stretch wait succeeds and its check reads DATA high. -/
def Obligations.StopMakesAStopCondition : Prop :=
  ∀ (s : State) (h : Heard), s.cfg.wellFormed = true → s.configured = true → h = hear s.cfg stopAsks s.env →
    h.ending = .through →
    ∃ t, exec .stop s = .next t ∧
      t = { s with
        started := if s.cfg.stopClearsStarted then false else s.started
        out := t.out, result := ⟨0#3, 0x00#8⟩, history := t.history, env := h.rest, draws := t.draws } ∧
      portAccesses (newEvents s t) = 6 + h.polls + checks s.cfg 1 ∧ PollsOf s.cfg 1 h.polls ∧
      (∀ l, engineLow t l = false) ∧
      (LinesAreOutputs s → drives s t = [⟨!engineLow s .clock, false⟩, ⟨true, false⟩, ⟨true, true⟩])

/-- 00_scope.md R12, 42_protocol_engine.md R141, R142, 70_reset_and_hazards.md R235: the conditions on the wire, whenever the
command completes with OK. A first START from released lines and a repeated START with CLOCK low each make one START condition
and no STOP; STOP with CLOCK low makes one STOP condition; STOP on an idle bus makes a START and a STOP. -/
def Obligations.ConditionsOnTheWire : Prop :=
  ∀ s t : State, s.cfg.wellFormed = true → s.configured = true → t.result.cond = 0#3 → LinesAreOutputs s →
    (exec .start s = .next t → s.started = false → engineLow s .clock = false → engineLow s .data = false →
      wireConditions ⟨true, true⟩ (drives s t) = [.start]) ∧
    (exec .start s = .next t → s.started = true → engineLow s .clock = true →
      wireConditions ⟨false, !engineLow s .data⟩ (drives s t) = [.start]) ∧
    (exec .stop s = .next t → engineLow s .clock = true →
      wireConditions ⟨false, !engineLow s .data⟩ (drives s t) = [.stop]) ∧
    (exec .stop s = .next t → engineLow s .clock = false → engineLow s .data = false →
      wireConditions ⟨true, true⟩ (drives s t) = [.start, .stop])

/-- 42_protocol_engine.md R143, R146: WRBYTE completes whenever its stretch waits succeed, each after however many polls, and the
checks of its 1 bits read DATA high; its value is the acknowledgment the environment gives at its one sample. What BITCNT holds
after the loop is the model's reading (log 7). -/
def Obligations.WrbyteReturnsTheAcknowledgment : Prop :=
  ∀ (s : State) (b : Byte) (h : Heard), s.cfg.wellFormed = true → s.configured = true →
    h = hear s.cfg (writeByteAsks b) s.env → h.ending = .through →
    ∃ t nack x, exec (.wrbyte b) s = .next t ∧ h.levels = [nack] ∧ x = (if nack then 0x01#8 else 0x00#8) ∧
      t = { s with
        shift := b, bitcnt := 8#4, out := t.out, result := ⟨0#3, x⟩, history := t.history, env := h.rest
        draws := t.draws } ∧
      portAccesses (newEvents s t) = 8 * 6 + 7 + h.polls + checks s.cfg ((msbFirst b).count true) ∧
      PollsOf s.cfg 9 h.polls ∧
      engineLow t .clock = isOutput s s.cfg.clkOutBit ∧ engineLow t .data = false

/-- 42_protocol_engine.md R147: a WRBYTE that completes with OK clocks b[7] first and b[0] last, then the released acknowledgment
bit, and makes no condition on the wire. -/
def Obligations.WrbyteSendsMostSignificantBitFirst : Prop :=
  ∀ (s t : State) (b : Byte), s.cfg.wellFormed = true → s.configured = true → LinesAreOutputs s →
    engineLow s .clock = true → exec (.wrbyte b) s = .next t → t.result.cond = 0#3 →
      clockedBits ⟨false, !engineLow s .data⟩ (drives s t) = msbFirst b ++ [true] ∧
      wireConditions ⟨false, !engineLow s .data⟩ (drives s t) = []

/-- 42_protocol_engine.md R144, R146: RDBYTE completes whenever its stretch waits succeed, each after however many polls, and the
check of its NACK bit reads DATA high; its value is the byte its eight samples make, most significant bit first. What BITCNT
holds after the loop is the model's reading (log 7). -/
def Obligations.RdbyteAssemblesTheSamples : Prop :=
  ∀ (s : State) (last : Bool) (h : Heard), s.cfg.wellFormed = true → s.configured = true →
    h = hear s.cfg (readByteAsks last) s.env → h.ending = .through →
    ∃ t r, exec (.rdbyte last) s = .next t ∧ h.levels.length = 8 ∧ r = byteOfMsbFirst h.levels ∧
      t = { s with
        shift := r, bitcnt := 8#4, out := t.out, result := ⟨0#3, r⟩, history := t.history, env := h.rest
        draws := t.draws } ∧
      portAccesses (newEvents s t) = 8 * 7 + 6 + h.polls + checks s.cfg (if last then 1 else 0) ∧
      PollsOf s.cfg 9 h.polls ∧
      engineLow t .clock = isOutput s s.cfg.clkOutBit ∧
      engineLow t .data = (isOutput s s.cfg.dataOutBit && !last)

/-- 42_protocol_engine.md R140: the transitions of `started`, for every command and every environment. -/
def Obligations.StartedFollowsItsTable : Prop :=
  ∀ (i : Instr) (s t : State), s.cfg.wellFormed = true → exec i s = .next t →
    (i = .start → t.result.cond = 0#3 → t.started = true) ∧
    (i = .stop → t.result.cond = 0#3 →
      t.started = if s.cfg.stopClearsStarted then false else s.started) ∧
    (((∃ l, i = .release l ∨ i = .drivelow l ∨ i = .readline l) ∨ (∃ v, i = .wrbit v) ∨ i = .rdbit ∨
        (∃ b, i = .wrbyte b) ∨ ∃ last, i = .rdbyte last) →
      t.result.cond = 0#3 → t.started = s.started) ∧
    (t.result.cond = 1#3 ∨ t.result.cond = 2#3 → t.started = false) ∧
    (i = .init → t.started = false)

/-- 41_bit_transport.md R125: START and every bit or byte command that completes leave CLOCK driven low by the engine. -/
def Obligations.ClockStaysLowBetweenBits : Prop :=
  ∀ (i : Instr) (s t : State), s.cfg.wellFormed = true → s.configured = true → exec i s = .next t →
    t.result.cond = 0#3 →
    (i = .start ∨ (∃ v, i = .wrbit v) ∨ i = .rdbit ∨ (∃ b, i = .wrbyte b) ∨ (∃ last, i = .rdbyte last) ∨
      ∃ buf len, i = .wrbytes true false buf len) →
    engineLow t .clock = isOutput s s.cfg.clkOutBit

/-! ### The Bus Handle -/

/-- 43_bus_handle.md R172, 42_protocol_engine.md R146: WRBYTES completes whenever its stretch waits succeed, each after however
many polls, and its checks read DATA high (those of START, of the 1 bits and of STOP). Every byte of the buffer is read once, in
ascending order, whatever is acknowledged; the value is the OR of the acknowledgments, one sample a byte; the accesses are those
of its bits; memory is left alone; `started` follows START and STOP. What IDX holds after the loop is the model's reading
(log 7). -/
def Obligations.WrbytesSendsTheBuffer : Prop :=
  ∀ (s : State) (st p : Bool) (buf len : Word) (h : Heard), s.cfg.wellFormed = true → s.configured = true →
    BufferOK s.cfg buf len → h = hear s.cfg (asksOf s (.wrbytes st p buf len)) s.env → h.ending = .through →
    ∃ t nack, exec (.wrbytes st p buf len) s = .next t ∧ h.levels.length = len.toNat ∧ nack = h.levels.any id ∧
      t = { s with
        started := if p && s.cfg.stopClearsStarted then false else st || s.started
        shift := t.shift, bitcnt := t.bitcnt, nackacc := nack, idx := len
        out := t.out, result := ⟨0#3, if nack then 0x01#8 else 0x00#8⟩
        history := t.history, env := h.rest, draws := t.draws } ∧
      bufferReads (newEvents s t) = (List.range len.toNat).map (fun i =>
        (BitVec.ofNat 16 (buf.toNat + i), readCell s.mem (buf.toNat + i))) ∧
      portAccesses (newEvents s t) =
        (if st then (if s.started then 8 else 4) else 0) + len.toNat * (8 * 6 + 7) + (if p then 6 else 0) + h.polls +
          checks s.cfg ((if st then 1 else 0) +
            ((bufferBytes s.mem buf len).map fun b => (msbFirst b).count true).sum + (if p then 1 else 0)) ∧
      PollsOf s.cfg ((if st && s.started then 1 else 0) + 9 * len.toNat + (if p then 1 else 0)) h.polls

/-- 43_bus_handle.md R172, 42_protocol_engine.md R147: a WRBYTES that completes with OK clocks out every byte of the buffer in
ascending order, each most significant bit first with the released acknowledgment bit after it, and no byte is left out after a
NACK. A repeated START clocks one released bit before them, a STOP one low bit after them. But for a first START, CLOCK is low at
entry (R125). -/
def Obligations.WrbytesClocksEveryByteOut : Prop :=
  ∀ (s t : State) (st p : Bool) (buf len : Word), s.cfg.wellFormed = true → s.configured = true →
    BufferOK s.cfg buf len → LinesAreOutputs s → (engineLow s .clock = true ∨ (st = true ∧ s.started = false)) →
    exec (.wrbytes st p buf len) s = .next t → t.result.cond = 0#3 →
      clockedBits ⟨!engineLow s .clock, !engineLow s .data⟩ (drives s t) =
        (if st && s.started then [true] else []) ++
          (List.range len.toNat).flatMap (fun i => msbFirst (readCell s.mem (buf.toNat + i)) ++ [true]) ++
          (if p then [false] else [])

/-- 43_bus_handle.md R173, 42_protocol_engine.md R146: RDBYTES completes whenever its stretch waits succeed, each after however
many polls, and its checks read DATA high (those of the last NACK and of STOP). Byte i of the buffer becomes the byte that its
eight samples make, in ascending order; no other byte changes; the value is the last byte; the accesses are those of its bits.
What IDX holds after the loop is the model's reading (log 7). -/
def Obligations.RdbytesFillsTheBuffer : Prop :=
  ∀ (s : State) (p : Bool) (buf len : Word) (h : Heard), s.cfg.wellFormed = true → s.configured = true →
    s.mem.wf = true → BufferOK s.cfg buf len → h = hear s.cfg (asksOf s (.rdbytes p buf len)) s.env →
    h.ending = .through →
    ∃ t, exec (.rdbytes p buf len) s = .next t ∧ h.levels.length = 8 * len.toNat ∧
      t = { s with
        started := if p && s.cfg.stopClearsStarted then false else s.started
        shift := t.shift, bitcnt := t.bitcnt, idx := len, mem := t.mem
        out := t.out, result := t.result, history := t.history, env := h.rest, draws := t.draws } ∧
      t.result.cond = 0#3 ∧
      (0 < len.toNat → t.result.value = byteSampled h.levels (len.toNat - 1)) ∧
      (∀ i < len.toNat, readCell t.mem (buf.toNat + i) = byteSampled h.levels i) ∧
      (∀ a, a < buf.toNat ∨ buf.toNat + len.toNat ≤ a → readCell t.mem a = readCell s.mem a) ∧
      bufferWrites (newEvents s t) =
        (List.range len.toNat).map (fun i => (BitVec.ofNat 16 (buf.toNat + i), byteSampled h.levels i)) ∧
      portAccesses (newEvents s t) = len.toNat * (8 * 7 + 6) + (if p then 6 else 0) + h.polls +
        checks s.cfg ((if 0 < len.toNat then 1 else 0) + (if p then 1 else 0)) ∧
      PollsOf s.cfg (9 * len.toNat + (if p then 1 else 0)) h.polls

/-- 42_protocol_engine.md R145, 43_bus_handle.md R173: in a RDBYTES that completes with OK the master releases DATA for the eight
bits of each byte and then drives ACK (0) after every byte except the last, where it drives NACK (1); a STOP then clocks one
low. -/
def Obligations.RdbytesAcknowledgesAllButTheLast : Prop :=
  ∀ (s t : State) (p : Bool) (buf len : Word), s.cfg.wellFormed = true → s.configured = true →
    BufferOK s.cfg buf len → LinesAreOutputs s → engineLow s .clock = true →
    exec (.rdbytes p buf len) s = .next t → t.result.cond = 0#3 →
      clockedBits ⟨false, !engineLow s .data⟩ (drives s t) =
        (List.range len.toNat).flatMap (fun i => List.replicate 8 true ++ [decide (i + 1 = len.toNat)]) ++
          (if p then [false] else [])

/-- 43_bus_handle.md R174, 60_exceptions.md R202: whatever the environment does and wherever the command ends, the buffer is
touched in ascending order from its first byte, no address twice and none outside; WRBYTES reads and never writes, RDBYTES
writes and never reads, other commands do neither; a command that completes with OK has touched all of it. -/
def Obligations.BufferIsTouchedInOrder : Prop :=
  ∀ (i : Instr) (s t : State), exec i s = .next t →
    (∀ st p buf len, i = .wrbytes st p buf len → bufferWrites (newEvents s t) = [] ∧
      ∃ n, n ≤ len.toNat ∧ (s.configured = true → t.result.cond = 0#3 → n = len.toNat) ∧
        bufferReads (newEvents s t) = (List.range n).map (fun k =>
          (buf + BitVec.ofNat 16 k, readCell s.mem (buf + BitVec.ofNat 16 k).toNat))) ∧
    (∀ p buf len, i = .rdbytes p buf len → bufferReads (newEvents s t) = [] ∧
      ∃ n, n ≤ len.toNat ∧ (s.configured = true → t.result.cond = 0#3 → n = len.toNat) ∧
        (bufferWrites (newEvents s t)).map Prod.fst = (List.range n).map (fun k => buf + BitVec.ofNat 16 k) ∧
        t.mem = (bufferWrites (newEvents s t)).foldl (fun m av => writeCell m av.1.toNat av.2) s.mem) ∧
    ((∀ st p buf len, i ≠ .wrbytes st p buf len) → (∀ p buf len, i ≠ .rdbytes p buf len) →
      bufferReads (newEvents s t) = [] ∧ bufferWrites (newEvents s t) = []) ∧
    ((∀ p buf len, i ≠ .rdbytes p buf len) → t.mem = s.mem)

/-- 43_bus_handle.md R174: where a buffer access stands among the port accesses, whatever the environment does and wherever the
command ends. WRBYTES reads byte i when the lines have been driven through its START and through the bits and acknowledgment bits
of the bytes before i, to the last write of these, and not further. RDBYTES writes byte i when they have been driven through the
bits and acknowledgment bits of the bytes up to i, to the last write of these, and not further. -/
def Obligations.BufferAccessesStandBetweenBytes : Prop :=
  ∀ (s t : State) (st p : Bool) (buf len : Word) (before after : List Event) (a : Word) (x : Byte),
    s.cfg.wellFormed = true →
    (exec (.wrbytes st p buf len) s = .next t → newEvents s t = before ++ .memRead a x :: after →
      ∃ i < len.toNat, a = buf + BitVec.ofNat 16 i ∧
        (LinesAreOutputs s →
          (portWritesTo s.cfg.portOutAddr before).map (driveOf s.cfg) = (if st then startDrives s else []) ++
            bitsDrives (if st then false else !engineLow s .clock)
              ((List.range i).flatMap fun k => msbFirst (readCell s.mem (buf + BitVec.ofNat 16 k).toNat) ++ [true])) ∧
        (before = [] ∨ ∃ evs v, before = evs ++ [.portWrite s.cfg.portOutAddr v])) ∧
    (exec (.rdbytes p buf len) s = .next t → newEvents s t = before ++ .memWrite a x :: after →
      ∃ i < len.toNat, a = buf + BitVec.ofNat 16 i ∧
        (LinesAreOutputs s →
          (portWritesTo s.cfg.portOutAddr before).map (driveOf s.cfg) = bitsDrives (!engineLow s .clock)
            ((List.range (i + 1)).flatMap fun k => List.replicate 8 true ++ [decide (k + 1 = len.toNat)])) ∧
        ∃ evs v, before = evs ++ [.portWrite s.cfg.portOutAddr v])

/-- 43_bus_handle.md R173: RDBYTES of length 0 without STOP makes no access at all, and its value is a draw. That IDX is then
0 is the model's reading (log 7). -/
def Obligations.EmptyReadMakesNoAccess : Prop :=
  ∀ (s : State) (buf : Word), s.configured = true →
    ∃ r n, exec (.rdbytes false buf 0#16) s = .next { s with
      idx := 0#16
      result := ⟨0#3, r⟩
      history := s.history ++ [.done (.legal (.rdbytes false buf 0#16)) .ok r]
      draws := n }

/-! ### The whole machine -/

/-- 10_state.md R37: every command other than INIT and RESET keeps every output bit that is no line bit. The sense bits of a
shared port are inputs, as PortSetUp says of every configured state (StepKeepsThePortSetUp). -/
def Obligations.OtherOutputBitsAreKept : Prop :=
  ∀ (i : Instr) (s t : State) (k : BitIndex), i ≠ .init → i ≠ .reset → SenseBitsAreInputs s → exec i s = .next t →
    k ≠ s.cfg.clkOutBit → k ≠ s.cfg.dataOutBit → isOutput s k = true → bitAt t.out k = bitAt s.out k

/-- 43_bus_handle.md R177, 10_state.md R22, R26: only INIT and RESET write DDR or `configured`, or write to the direction
register's address; no command touches the command interface or the host's moves. -/
def Obligations.OnlyInitAndResetConfigure : Prop :=
  ∀ (i : Instr) (s t : State), s.cfg.wellFormed = true → exec i s = .next t →
    (i ≠ .init → i ≠ .reset →
      t.ddr = s.ddr ∧ t.configured = s.configured ∧ portWritesTo s.cfg.ddrAddr (newEvents s t) = []) ∧
    t.stream = s.stream ∧ t.host = s.host

/-- 30_encoding.md R91, 10_state.md R31: every command appends to the history and ends in exactly one completion, which is what
RESULT then holds; a command whose rule returns nothing completes normally with 0x00. -/
def Obligations.EveryCommandCompletesOnce : Prop :=
  ∀ (i : Instr) (s : State), ∃ t evs c v, exec i s = .next t ∧
    t.history = s.history ++ evs ++ [.done (.legal i) c v] ∧ completions evs = [] ∧ t.result = ⟨c.code, v⟩ ∧
    (((∃ l, i = .release l ∨ i = .drivelow l) ∨ (∃ b, i = .wrbit b) ∨ i = .start ∨ i = .stop ∨ i = .init ∨ i = .reset) →
      c = .ok → v = 0x00#8)

/-- 10_state.md R24, 60_exceptions.md R200: RESULT holds a code of the table, never 6 or 7, its reserved bits read 0, and VALUE
and COND are where the layout puts them. -/
def Obligations.ResultHoldsACodeOfTheTable : Prop :=
  (∀ (i : Instr) (s t : State), exec i s = .next t → t.result.cond.toNat ≤ 5) ∧
  ∀ s : State, s.resultWord.extractLsb' 0 3 = s.result.cond ∧ s.resultWord.extractLsb' 3 5 = 0#5 ∧
    s.resultWord.extractLsb' 8 8 = s.result.value

/-- 70_reset_and_hazards.md R244: every command completes, for every environment, within the bound on its port accesses, an
abort with its cleanup included, and on its buffer accesses. -/
def Obligations.PortAccessesAreBounded : Prop :=
  ∀ (i : Instr) (s : State), ∃ t, exec i s = .next t ∧ portAccesses (newEvents s t) ≤ accessBound s.cfg i ∧
    (bufferReads (newEvents s t)).length ≤ bufferReadBound i ∧ (bufferWrites (newEvents s t)).length ≤ bufferWriteBound i

/-- 10_state.md R31: "The engine appends events and never reads the history." -/
def Obligations.HistoryIsNeverRead : Prop :=
  ∀ (i : Instr) (s t : State) (h : List Event), exec i s = .next t →
    exec i { s with history := h ++ s.history } = .next { t with history := h ++ t.history }

/-- 10_state.md R23: "Every command that uses a working register writes it before reading it": what the working registers hold
before a command changes nothing but what they hold after it. -/
def Obligations.WorkingRegistersAreWrittenBeforeRead : Prop :=
  ∀ (i : Instr) (s t : State) (sh : Byte) (bc : BitVec 4) (na : Bool) (ix : Word), exec i s = .next t →
    ∃ sh' bc' na' ix',
      exec i { s with shift := sh, bitcnt := bc, nackacc := na, idx := ix } =
        .next { t with shift := sh', bitcnt := bc', nackacc := na', idx := ix' }

/-- 43_bus_handle.md R171: no rule ever reads the `started` that RESET draws: while the engine is not configured, no command
depends on it, and INIT rewrites it. -/
def Obligations.StartedIsNotReadBeforeInit : Prop :=
  ∀ (i : Instr) (s t : State) (b : Bool), s.configured = false → exec i s = .next t →
    (i ≠ .init → i ≠ .reset → exec i { s with started := b } = .next { t with started := b }) ∧
    (i = .init ∨ i = .reset → exec i { s with started := b } = .next t)

/-- 70_reset_and_hazards.md R242: the engine keeps no copy of OUT, so a value that other host software gives the output bits
that are not I2C bits between two commands is preserved by the next command. When the host stores is the model's choice
(log 9). -/
def Obligations.HostBitsOfThePortArePreserved : Prop :=
  ∀ (i : Instr) (s t u : State) (v : Byte) (ms : List HostMove) (k : BitIndex),
    s.cfg.wellFormed = true → fetchCommand s.stream = none → s.host = .store s.cfg.portOutAddr v :: ms →
    step s = .next t → i ≠ .init → i ≠ .reset → SenseBitsAreInputs s → exec i t = .next u →
    k ≠ s.cfg.clkOutBit → k ≠ s.cfg.dataOutBit → isOutput s k = true → bitAt u.out k = bitAt v k
end

