-- ==== Sys2Proof/Laws/Bits.lean ====
section
/-! SUPPORT. The laws of the bit operations of Machine/Operands.lean. -/
namespace Sys2Proof.Machine

theorem byte_ext {v w : Byte} (h : ∀ k, bitAt v k = bitAt w k) : v = w := by
  apply BitVec.eq_of_getLsbD_eq
  intro i hi
  exact h ⟨i, hi⟩

theorem bitAt_byteOfBits_vec (a b c d e f g h : Bool) (k : BitIndex) :
    bitAt (byteOfBits ![a, b, c, d, e, f, g, h]) k = ![a, b, c, d, e, f, g, h] k := by
  revert a b c d e f g h k
  decide +kernel

@[simp] theorem bitAt_byteOfBits (f : BitIndex → Bool) (k : BitIndex) : bitAt (byteOfBits f) k = f k := by
  have hf : f = ![f 0, f 1, f 2, f 3, f 4, f 5, f 6, f 7] := by
    funext j
    fin_cases j <;> rfl
  rw [hf, bitAt_byteOfBits_vec]

theorem bitAt_maskBit (k j : BitIndex) : bitAt (maskBit k) j = decide (j = k) := by
  revert k j; decide

@[simp] theorem bitAt_putBit (v : Byte) (k j : BitIndex) (x : Bool) :
    bitAt (putBit v k x) j = if j = k then x else bitAt v j := by
  have hm := bitAt_maskBit k j
  unfold bitAt at hm
  rw [BitVec.getLsbD_eq_getElem j.isLt] at hm
  cases x <;> simp [putBit, bitAt, hm] <;> by_cases hj : j = k <;> simp [hj]

theorem bitAt_putBit_same (v : Byte) (k : BitIndex) (x : Bool) : bitAt (putBit v k x) k = x := by simp

theorem bitAt_putBit_other (v : Byte) {k j : BitIndex} (x : Bool) (h : j ≠ k) :
    bitAt (putBit v k x) j = bitAt v j := by simp [h]

@[simp] theorem byteOfBit_false : byteOfBit false = 0x00#8 := rfl

@[simp] theorem byteOfBit_true : byteOfBit true = 0x01#8 := rfl

end Sys2Proof.Machine
end

