-- ==== Sys2Proof/Laws/State.lean ====
section
/-! SUPPORT. For every one-field update of State and every field, what the field is after the update. -/
namespace Sys2Proof.Machine.State

variable (s : State)

@[simp] theorem setStarted_cfg (b : Bool) : (s.setStarted b).cfg = s.cfg := rfl
@[simp] theorem setStarted_started (b : Bool) : (s.setStarted b).started = b := rfl
@[simp] theorem setStarted_configured (b : Bool) : (s.setStarted b).configured = s.configured := rfl
@[simp] theorem setStarted_shift (b : Bool) : (s.setStarted b).shift = s.shift := rfl
@[simp] theorem setStarted_bitcnt (b : Bool) : (s.setStarted b).bitcnt = s.bitcnt := rfl
@[simp] theorem setStarted_nackacc (b : Bool) : (s.setStarted b).nackacc = s.nackacc := rfl
@[simp] theorem setStarted_idx (b : Bool) : (s.setStarted b).idx = s.idx := rfl
@[simp] theorem setStarted_result (b : Bool) : (s.setStarted b).result = s.result := rfl
@[simp] theorem setStarted_out (b : Bool) : (s.setStarted b).out = s.out := rfl
@[simp] theorem setStarted_ddr (b : Bool) : (s.setStarted b).ddr = s.ddr := rfl
@[simp] theorem setStarted_mem (b : Bool) : (s.setStarted b).mem = s.mem := rfl
@[simp] theorem setStarted_history (b : Bool) : (s.setStarted b).history = s.history := rfl
@[simp] theorem setStarted_stream (b : Bool) : (s.setStarted b).stream = s.stream := rfl
@[simp] theorem setStarted_host (b : Bool) : (s.setStarted b).host = s.host := rfl
@[simp] theorem setStarted_env (b : Bool) : (s.setStarted b).env = s.env := rfl
@[simp] theorem setStarted_draws (b : Bool) : (s.setStarted b).draws = s.draws := rfl

@[simp] theorem setConfigured_cfg (b : Bool) : (s.setConfigured b).cfg = s.cfg := rfl
@[simp] theorem setConfigured_started (b : Bool) : (s.setConfigured b).started = s.started := rfl
@[simp] theorem setConfigured_configured (b : Bool) : (s.setConfigured b).configured = b := rfl
@[simp] theorem setConfigured_shift (b : Bool) : (s.setConfigured b).shift = s.shift := rfl
@[simp] theorem setConfigured_bitcnt (b : Bool) : (s.setConfigured b).bitcnt = s.bitcnt := rfl
@[simp] theorem setConfigured_nackacc (b : Bool) : (s.setConfigured b).nackacc = s.nackacc := rfl
@[simp] theorem setConfigured_idx (b : Bool) : (s.setConfigured b).idx = s.idx := rfl
@[simp] theorem setConfigured_result (b : Bool) : (s.setConfigured b).result = s.result := rfl
@[simp] theorem setConfigured_out (b : Bool) : (s.setConfigured b).out = s.out := rfl
@[simp] theorem setConfigured_ddr (b : Bool) : (s.setConfigured b).ddr = s.ddr := rfl
@[simp] theorem setConfigured_mem (b : Bool) : (s.setConfigured b).mem = s.mem := rfl
@[simp] theorem setConfigured_history (b : Bool) : (s.setConfigured b).history = s.history := rfl
@[simp] theorem setConfigured_stream (b : Bool) : (s.setConfigured b).stream = s.stream := rfl
@[simp] theorem setConfigured_host (b : Bool) : (s.setConfigured b).host = s.host := rfl
@[simp] theorem setConfigured_env (b : Bool) : (s.setConfigured b).env = s.env := rfl
@[simp] theorem setConfigured_draws (b : Bool) : (s.setConfigured b).draws = s.draws := rfl

@[simp] theorem setShift_cfg (v : Byte) : (s.setShift v).cfg = s.cfg := rfl
@[simp] theorem setShift_started (v : Byte) : (s.setShift v).started = s.started := rfl
@[simp] theorem setShift_configured (v : Byte) : (s.setShift v).configured = s.configured := rfl
@[simp] theorem setShift_shift (v : Byte) : (s.setShift v).shift = v := rfl
@[simp] theorem setShift_bitcnt (v : Byte) : (s.setShift v).bitcnt = s.bitcnt := rfl
@[simp] theorem setShift_nackacc (v : Byte) : (s.setShift v).nackacc = s.nackacc := rfl
@[simp] theorem setShift_idx (v : Byte) : (s.setShift v).idx = s.idx := rfl
@[simp] theorem setShift_result (v : Byte) : (s.setShift v).result = s.result := rfl
@[simp] theorem setShift_out (v : Byte) : (s.setShift v).out = s.out := rfl
@[simp] theorem setShift_ddr (v : Byte) : (s.setShift v).ddr = s.ddr := rfl
@[simp] theorem setShift_mem (v : Byte) : (s.setShift v).mem = s.mem := rfl
@[simp] theorem setShift_history (v : Byte) : (s.setShift v).history = s.history := rfl
@[simp] theorem setShift_stream (v : Byte) : (s.setShift v).stream = s.stream := rfl
@[simp] theorem setShift_host (v : Byte) : (s.setShift v).host = s.host := rfl
@[simp] theorem setShift_env (v : Byte) : (s.setShift v).env = s.env := rfl
@[simp] theorem setShift_draws (v : Byte) : (s.setShift v).draws = s.draws := rfl

@[simp] theorem setBitcnt_cfg (n : BitVec 4) : (s.setBitcnt n).cfg = s.cfg := rfl
@[simp] theorem setBitcnt_started (n : BitVec 4) : (s.setBitcnt n).started = s.started := rfl
@[simp] theorem setBitcnt_configured (n : BitVec 4) : (s.setBitcnt n).configured = s.configured := rfl
@[simp] theorem setBitcnt_shift (n : BitVec 4) : (s.setBitcnt n).shift = s.shift := rfl
@[simp] theorem setBitcnt_bitcnt (n : BitVec 4) : (s.setBitcnt n).bitcnt = n := rfl
@[simp] theorem setBitcnt_nackacc (n : BitVec 4) : (s.setBitcnt n).nackacc = s.nackacc := rfl
@[simp] theorem setBitcnt_idx (n : BitVec 4) : (s.setBitcnt n).idx = s.idx := rfl
@[simp] theorem setBitcnt_result (n : BitVec 4) : (s.setBitcnt n).result = s.result := rfl
@[simp] theorem setBitcnt_out (n : BitVec 4) : (s.setBitcnt n).out = s.out := rfl
@[simp] theorem setBitcnt_ddr (n : BitVec 4) : (s.setBitcnt n).ddr = s.ddr := rfl
@[simp] theorem setBitcnt_mem (n : BitVec 4) : (s.setBitcnt n).mem = s.mem := rfl
@[simp] theorem setBitcnt_history (n : BitVec 4) : (s.setBitcnt n).history = s.history := rfl
@[simp] theorem setBitcnt_stream (n : BitVec 4) : (s.setBitcnt n).stream = s.stream := rfl
@[simp] theorem setBitcnt_host (n : BitVec 4) : (s.setBitcnt n).host = s.host := rfl
@[simp] theorem setBitcnt_env (n : BitVec 4) : (s.setBitcnt n).env = s.env := rfl
@[simp] theorem setBitcnt_draws (n : BitVec 4) : (s.setBitcnt n).draws = s.draws := rfl

@[simp] theorem setNackacc_cfg (b : Bool) : (s.setNackacc b).cfg = s.cfg := rfl
@[simp] theorem setNackacc_started (b : Bool) : (s.setNackacc b).started = s.started := rfl
@[simp] theorem setNackacc_configured (b : Bool) : (s.setNackacc b).configured = s.configured := rfl
@[simp] theorem setNackacc_shift (b : Bool) : (s.setNackacc b).shift = s.shift := rfl
@[simp] theorem setNackacc_bitcnt (b : Bool) : (s.setNackacc b).bitcnt = s.bitcnt := rfl
@[simp] theorem setNackacc_nackacc (b : Bool) : (s.setNackacc b).nackacc = b := rfl
@[simp] theorem setNackacc_idx (b : Bool) : (s.setNackacc b).idx = s.idx := rfl
@[simp] theorem setNackacc_result (b : Bool) : (s.setNackacc b).result = s.result := rfl
@[simp] theorem setNackacc_out (b : Bool) : (s.setNackacc b).out = s.out := rfl
@[simp] theorem setNackacc_ddr (b : Bool) : (s.setNackacc b).ddr = s.ddr := rfl
@[simp] theorem setNackacc_mem (b : Bool) : (s.setNackacc b).mem = s.mem := rfl
@[simp] theorem setNackacc_history (b : Bool) : (s.setNackacc b).history = s.history := rfl
@[simp] theorem setNackacc_stream (b : Bool) : (s.setNackacc b).stream = s.stream := rfl
@[simp] theorem setNackacc_host (b : Bool) : (s.setNackacc b).host = s.host := rfl
@[simp] theorem setNackacc_env (b : Bool) : (s.setNackacc b).env = s.env := rfl
@[simp] theorem setNackacc_draws (b : Bool) : (s.setNackacc b).draws = s.draws := rfl

@[simp] theorem setIdx_cfg (w : Word) : (s.setIdx w).cfg = s.cfg := rfl
@[simp] theorem setIdx_started (w : Word) : (s.setIdx w).started = s.started := rfl
@[simp] theorem setIdx_configured (w : Word) : (s.setIdx w).configured = s.configured := rfl
@[simp] theorem setIdx_shift (w : Word) : (s.setIdx w).shift = s.shift := rfl
@[simp] theorem setIdx_bitcnt (w : Word) : (s.setIdx w).bitcnt = s.bitcnt := rfl
@[simp] theorem setIdx_nackacc (w : Word) : (s.setIdx w).nackacc = s.nackacc := rfl
@[simp] theorem setIdx_idx (w : Word) : (s.setIdx w).idx = w := rfl
@[simp] theorem setIdx_result (w : Word) : (s.setIdx w).result = s.result := rfl
@[simp] theorem setIdx_out (w : Word) : (s.setIdx w).out = s.out := rfl
@[simp] theorem setIdx_ddr (w : Word) : (s.setIdx w).ddr = s.ddr := rfl
@[simp] theorem setIdx_mem (w : Word) : (s.setIdx w).mem = s.mem := rfl
@[simp] theorem setIdx_history (w : Word) : (s.setIdx w).history = s.history := rfl
@[simp] theorem setIdx_stream (w : Word) : (s.setIdx w).stream = s.stream := rfl
@[simp] theorem setIdx_host (w : Word) : (s.setIdx w).host = s.host := rfl
@[simp] theorem setIdx_env (w : Word) : (s.setIdx w).env = s.env := rfl
@[simp] theorem setIdx_draws (w : Word) : (s.setIdx w).draws = s.draws := rfl

@[simp] theorem setResult_cfg (r : ResultReg) : (s.setResult r).cfg = s.cfg := rfl
@[simp] theorem setResult_started (r : ResultReg) : (s.setResult r).started = s.started := rfl
@[simp] theorem setResult_configured (r : ResultReg) : (s.setResult r).configured = s.configured := rfl
@[simp] theorem setResult_shift (r : ResultReg) : (s.setResult r).shift = s.shift := rfl
@[simp] theorem setResult_bitcnt (r : ResultReg) : (s.setResult r).bitcnt = s.bitcnt := rfl
@[simp] theorem setResult_nackacc (r : ResultReg) : (s.setResult r).nackacc = s.nackacc := rfl
@[simp] theorem setResult_idx (r : ResultReg) : (s.setResult r).idx = s.idx := rfl
@[simp] theorem setResult_result (r : ResultReg) : (s.setResult r).result = r := rfl
@[simp] theorem setResult_out (r : ResultReg) : (s.setResult r).out = s.out := rfl
@[simp] theorem setResult_ddr (r : ResultReg) : (s.setResult r).ddr = s.ddr := rfl
@[simp] theorem setResult_mem (r : ResultReg) : (s.setResult r).mem = s.mem := rfl
@[simp] theorem setResult_history (r : ResultReg) : (s.setResult r).history = s.history := rfl
@[simp] theorem setResult_stream (r : ResultReg) : (s.setResult r).stream = s.stream := rfl
@[simp] theorem setResult_host (r : ResultReg) : (s.setResult r).host = s.host := rfl
@[simp] theorem setResult_env (r : ResultReg) : (s.setResult r).env = s.env := rfl
@[simp] theorem setResult_draws (r : ResultReg) : (s.setResult r).draws = s.draws := rfl

@[simp] theorem setOut_cfg (v : Byte) : (s.setOut v).cfg = s.cfg := rfl
@[simp] theorem setOut_started (v : Byte) : (s.setOut v).started = s.started := rfl
@[simp] theorem setOut_configured (v : Byte) : (s.setOut v).configured = s.configured := rfl
@[simp] theorem setOut_shift (v : Byte) : (s.setOut v).shift = s.shift := rfl
@[simp] theorem setOut_bitcnt (v : Byte) : (s.setOut v).bitcnt = s.bitcnt := rfl
@[simp] theorem setOut_nackacc (v : Byte) : (s.setOut v).nackacc = s.nackacc := rfl
@[simp] theorem setOut_idx (v : Byte) : (s.setOut v).idx = s.idx := rfl
@[simp] theorem setOut_result (v : Byte) : (s.setOut v).result = s.result := rfl
@[simp] theorem setOut_out (v : Byte) : (s.setOut v).out = v := rfl
@[simp] theorem setOut_ddr (v : Byte) : (s.setOut v).ddr = s.ddr := rfl
@[simp] theorem setOut_mem (v : Byte) : (s.setOut v).mem = s.mem := rfl
@[simp] theorem setOut_history (v : Byte) : (s.setOut v).history = s.history := rfl
@[simp] theorem setOut_stream (v : Byte) : (s.setOut v).stream = s.stream := rfl
@[simp] theorem setOut_host (v : Byte) : (s.setOut v).host = s.host := rfl
@[simp] theorem setOut_env (v : Byte) : (s.setOut v).env = s.env := rfl
@[simp] theorem setOut_draws (v : Byte) : (s.setOut v).draws = s.draws := rfl

@[simp] theorem setDdr_cfg (v : Byte) : (s.setDdr v).cfg = s.cfg := rfl
@[simp] theorem setDdr_started (v : Byte) : (s.setDdr v).started = s.started := rfl
@[simp] theorem setDdr_configured (v : Byte) : (s.setDdr v).configured = s.configured := rfl
@[simp] theorem setDdr_shift (v : Byte) : (s.setDdr v).shift = s.shift := rfl
@[simp] theorem setDdr_bitcnt (v : Byte) : (s.setDdr v).bitcnt = s.bitcnt := rfl
@[simp] theorem setDdr_nackacc (v : Byte) : (s.setDdr v).nackacc = s.nackacc := rfl
@[simp] theorem setDdr_idx (v : Byte) : (s.setDdr v).idx = s.idx := rfl
@[simp] theorem setDdr_result (v : Byte) : (s.setDdr v).result = s.result := rfl
@[simp] theorem setDdr_out (v : Byte) : (s.setDdr v).out = s.out := rfl
@[simp] theorem setDdr_ddr (v : Byte) : (s.setDdr v).ddr = v := rfl
@[simp] theorem setDdr_mem (v : Byte) : (s.setDdr v).mem = s.mem := rfl
@[simp] theorem setDdr_history (v : Byte) : (s.setDdr v).history = s.history := rfl
@[simp] theorem setDdr_stream (v : Byte) : (s.setDdr v).stream = s.stream := rfl
@[simp] theorem setDdr_host (v : Byte) : (s.setDdr v).host = s.host := rfl
@[simp] theorem setDdr_env (v : Byte) : (s.setDdr v).env = s.env := rfl
@[simp] theorem setDdr_draws (v : Byte) : (s.setDdr v).draws = s.draws := rfl

@[simp] theorem setMem_cfg (m : Memory) : (s.setMem m).cfg = s.cfg := rfl
@[simp] theorem setMem_started (m : Memory) : (s.setMem m).started = s.started := rfl
@[simp] theorem setMem_configured (m : Memory) : (s.setMem m).configured = s.configured := rfl
@[simp] theorem setMem_shift (m : Memory) : (s.setMem m).shift = s.shift := rfl
@[simp] theorem setMem_bitcnt (m : Memory) : (s.setMem m).bitcnt = s.bitcnt := rfl
@[simp] theorem setMem_nackacc (m : Memory) : (s.setMem m).nackacc = s.nackacc := rfl
@[simp] theorem setMem_idx (m : Memory) : (s.setMem m).idx = s.idx := rfl
@[simp] theorem setMem_result (m : Memory) : (s.setMem m).result = s.result := rfl
@[simp] theorem setMem_out (m : Memory) : (s.setMem m).out = s.out := rfl
@[simp] theorem setMem_ddr (m : Memory) : (s.setMem m).ddr = s.ddr := rfl
@[simp] theorem setMem_mem (m : Memory) : (s.setMem m).mem = m := rfl
@[simp] theorem setMem_history (m : Memory) : (s.setMem m).history = s.history := rfl
@[simp] theorem setMem_stream (m : Memory) : (s.setMem m).stream = s.stream := rfl
@[simp] theorem setMem_host (m : Memory) : (s.setMem m).host = s.host := rfl
@[simp] theorem setMem_env (m : Memory) : (s.setMem m).env = s.env := rfl
@[simp] theorem setMem_draws (m : Memory) : (s.setMem m).draws = s.draws := rfl

@[simp] theorem log_cfg (e : Event) : (s.log e).cfg = s.cfg := rfl
@[simp] theorem log_started (e : Event) : (s.log e).started = s.started := rfl
@[simp] theorem log_configured (e : Event) : (s.log e).configured = s.configured := rfl
@[simp] theorem log_shift (e : Event) : (s.log e).shift = s.shift := rfl
@[simp] theorem log_bitcnt (e : Event) : (s.log e).bitcnt = s.bitcnt := rfl
@[simp] theorem log_nackacc (e : Event) : (s.log e).nackacc = s.nackacc := rfl
@[simp] theorem log_idx (e : Event) : (s.log e).idx = s.idx := rfl
@[simp] theorem log_result (e : Event) : (s.log e).result = s.result := rfl
@[simp] theorem log_out (e : Event) : (s.log e).out = s.out := rfl
@[simp] theorem log_ddr (e : Event) : (s.log e).ddr = s.ddr := rfl
@[simp] theorem log_mem (e : Event) : (s.log e).mem = s.mem := rfl
@[simp] theorem log_history (e : Event) : (s.log e).history = s.history ++ [e] := rfl
@[simp] theorem log_stream (e : Event) : (s.log e).stream = s.stream := rfl
@[simp] theorem log_host (e : Event) : (s.log e).host = s.host := rfl
@[simp] theorem log_env (e : Event) : (s.log e).env = s.env := rfl
@[simp] theorem log_draws (e : Event) : (s.log e).draws = s.draws := rfl

@[simp] theorem setStream_cfg (ws : List Word) : (s.setStream ws).cfg = s.cfg := rfl
@[simp] theorem setStream_started (ws : List Word) : (s.setStream ws).started = s.started := rfl
@[simp] theorem setStream_configured (ws : List Word) : (s.setStream ws).configured = s.configured := rfl
@[simp] theorem setStream_shift (ws : List Word) : (s.setStream ws).shift = s.shift := rfl
@[simp] theorem setStream_bitcnt (ws : List Word) : (s.setStream ws).bitcnt = s.bitcnt := rfl
@[simp] theorem setStream_nackacc (ws : List Word) : (s.setStream ws).nackacc = s.nackacc := rfl
@[simp] theorem setStream_idx (ws : List Word) : (s.setStream ws).idx = s.idx := rfl
@[simp] theorem setStream_result (ws : List Word) : (s.setStream ws).result = s.result := rfl
@[simp] theorem setStream_out (ws : List Word) : (s.setStream ws).out = s.out := rfl
@[simp] theorem setStream_ddr (ws : List Word) : (s.setStream ws).ddr = s.ddr := rfl
@[simp] theorem setStream_mem (ws : List Word) : (s.setStream ws).mem = s.mem := rfl
@[simp] theorem setStream_history (ws : List Word) : (s.setStream ws).history = s.history := rfl
@[simp] theorem setStream_stream (ws : List Word) : (s.setStream ws).stream = ws := rfl
@[simp] theorem setStream_host (ws : List Word) : (s.setStream ws).host = s.host := rfl
@[simp] theorem setStream_env (ws : List Word) : (s.setStream ws).env = s.env := rfl
@[simp] theorem setStream_draws (ws : List Word) : (s.setStream ws).draws = s.draws := rfl

@[simp] theorem setHost_cfg (ms : List HostMove) : (s.setHost ms).cfg = s.cfg := rfl
@[simp] theorem setHost_started (ms : List HostMove) : (s.setHost ms).started = s.started := rfl
@[simp] theorem setHost_configured (ms : List HostMove) : (s.setHost ms).configured = s.configured := rfl
@[simp] theorem setHost_shift (ms : List HostMove) : (s.setHost ms).shift = s.shift := rfl
@[simp] theorem setHost_bitcnt (ms : List HostMove) : (s.setHost ms).bitcnt = s.bitcnt := rfl
@[simp] theorem setHost_nackacc (ms : List HostMove) : (s.setHost ms).nackacc = s.nackacc := rfl
@[simp] theorem setHost_idx (ms : List HostMove) : (s.setHost ms).idx = s.idx := rfl
@[simp] theorem setHost_result (ms : List HostMove) : (s.setHost ms).result = s.result := rfl
@[simp] theorem setHost_out (ms : List HostMove) : (s.setHost ms).out = s.out := rfl
@[simp] theorem setHost_ddr (ms : List HostMove) : (s.setHost ms).ddr = s.ddr := rfl
@[simp] theorem setHost_mem (ms : List HostMove) : (s.setHost ms).mem = s.mem := rfl
@[simp] theorem setHost_history (ms : List HostMove) : (s.setHost ms).history = s.history := rfl
@[simp] theorem setHost_stream (ms : List HostMove) : (s.setHost ms).stream = s.stream := rfl
@[simp] theorem setHost_host (ms : List HostMove) : (s.setHost ms).host = ms := rfl
@[simp] theorem setHost_env (ms : List HostMove) : (s.setHost ms).env = s.env := rfl
@[simp] theorem setHost_draws (ms : List HostMove) : (s.setHost ms).draws = s.draws := rfl

@[simp] theorem setEnv_cfg (es : List EnvSample) : (s.setEnv es).cfg = s.cfg := rfl
@[simp] theorem setEnv_started (es : List EnvSample) : (s.setEnv es).started = s.started := rfl
@[simp] theorem setEnv_configured (es : List EnvSample) : (s.setEnv es).configured = s.configured := rfl
@[simp] theorem setEnv_shift (es : List EnvSample) : (s.setEnv es).shift = s.shift := rfl
@[simp] theorem setEnv_bitcnt (es : List EnvSample) : (s.setEnv es).bitcnt = s.bitcnt := rfl
@[simp] theorem setEnv_nackacc (es : List EnvSample) : (s.setEnv es).nackacc = s.nackacc := rfl
@[simp] theorem setEnv_idx (es : List EnvSample) : (s.setEnv es).idx = s.idx := rfl
@[simp] theorem setEnv_result (es : List EnvSample) : (s.setEnv es).result = s.result := rfl
@[simp] theorem setEnv_out (es : List EnvSample) : (s.setEnv es).out = s.out := rfl
@[simp] theorem setEnv_ddr (es : List EnvSample) : (s.setEnv es).ddr = s.ddr := rfl
@[simp] theorem setEnv_mem (es : List EnvSample) : (s.setEnv es).mem = s.mem := rfl
@[simp] theorem setEnv_history (es : List EnvSample) : (s.setEnv es).history = s.history := rfl
@[simp] theorem setEnv_stream (es : List EnvSample) : (s.setEnv es).stream = s.stream := rfl
@[simp] theorem setEnv_host (es : List EnvSample) : (s.setEnv es).host = s.host := rfl
@[simp] theorem setEnv_env (es : List EnvSample) : (s.setEnv es).env = es := rfl
@[simp] theorem setEnv_draws (es : List EnvSample) : (s.setEnv es).draws = s.draws := rfl

@[simp] theorem setDraws_cfg (n : Nat) : (s.setDraws n).cfg = s.cfg := rfl
@[simp] theorem setDraws_started (n : Nat) : (s.setDraws n).started = s.started := rfl
@[simp] theorem setDraws_configured (n : Nat) : (s.setDraws n).configured = s.configured := rfl
@[simp] theorem setDraws_shift (n : Nat) : (s.setDraws n).shift = s.shift := rfl
@[simp] theorem setDraws_bitcnt (n : Nat) : (s.setDraws n).bitcnt = s.bitcnt := rfl
@[simp] theorem setDraws_nackacc (n : Nat) : (s.setDraws n).nackacc = s.nackacc := rfl
@[simp] theorem setDraws_idx (n : Nat) : (s.setDraws n).idx = s.idx := rfl
@[simp] theorem setDraws_result (n : Nat) : (s.setDraws n).result = s.result := rfl
@[simp] theorem setDraws_out (n : Nat) : (s.setDraws n).out = s.out := rfl
@[simp] theorem setDraws_ddr (n : Nat) : (s.setDraws n).ddr = s.ddr := rfl
@[simp] theorem setDraws_mem (n : Nat) : (s.setDraws n).mem = s.mem := rfl
@[simp] theorem setDraws_history (n : Nat) : (s.setDraws n).history = s.history := rfl
@[simp] theorem setDraws_stream (n : Nat) : (s.setDraws n).stream = s.stream := rfl
@[simp] theorem setDraws_host (n : Nat) : (s.setDraws n).host = s.host := rfl
@[simp] theorem setDraws_env (n : Nat) : (s.setDraws n).env = s.env := rfl
@[simp] theorem setDraws_draws (n : Nat) : (s.setDraws n).draws = n := rfl

end Sys2Proof.Machine.State
end

