-- ==== Sys2Proof/Laws/Ops.lean ====
section
/-! SUPPORT. What each shared operation of Machine/Ops.lean does, said once: the registers it leaves alone, what it writes,
and the events it appends. -/
namespace Sys2Proof.Machine

variable (s : State) (a : Word) (l : Line) (k : BitIndex) (x : Bool) (v : Byte)

/-! ### Port reads -/

@[simp] theorem askEnv_frame :
    (askEnv a s).2.cfg = s.cfg ∧ (askEnv a s).2.started = s.started ∧ (askEnv a s).2.configured = s.configured ∧
    (askEnv a s).2.shift = s.shift ∧ (askEnv a s).2.bitcnt = s.bitcnt ∧ (askEnv a s).2.nackacc = s.nackacc ∧
    (askEnv a s).2.idx = s.idx ∧ (askEnv a s).2.result = s.result ∧ (askEnv a s).2.out = s.out ∧
    (askEnv a s).2.ddr = s.ddr ∧ (askEnv a s).2.mem = s.mem ∧ (askEnv a s).2.history = s.history ∧
    (askEnv a s).2.stream = s.stream ∧ (askEnv a s).2.host = s.host := by
  unfold askEnv
  split
  · unfold envSample
    split <;> simp
  · simp

theorem askEnv_env : (askEnv a s).2.env = if a = s.cfg.portInAddr then s.env.tail else s.env := by
  unfold askEnv
  split
  · unfold envSample
    split <;> simp_all
  · rfl

theorem askEnv_fst_of_cons {e : EnvSample} {rest : List EnvSample} (h : s.env = e :: rest) :
    (askEnv s.cfg.portInAddr s).1 = e := by
  simp [askEnv, envSample, h]

/-- The bits a port read returns. -/
theorem portReadBits_fst :
    (portReadBits a s).1 = portBit s a (askEnv a s).1 (Config.freeByte (askEnv a s).2.draws) := rfl

/-- A port read changes the history, the environment's answers and the number of draws, and nothing else (R57). -/
theorem portReadBits_snd :
    (portReadBits a s).2 = { s with
      history := s.history ++ [.portRead a (byteOfBits (portReadBits a s).1)]
      env := if a = s.cfg.portInAddr then s.env.tail else s.env
      draws := (portReadBits a s).2.draws } := by
  have h := askEnv_frame s a
  have he := askEnv_env s a
  simp only [portReadBits, draw8, State.log, State.setDraws, h.1, h.2.1, h.2.2.1, h.2.2.2.1, h.2.2.2.2.1,
    h.2.2.2.2.2.1, h.2.2.2.2.2.2.1, h.2.2.2.2.2.2.2.1, h.2.2.2.2.2.2.2.2.1, h.2.2.2.2.2.2.2.2.2.1,
    h.2.2.2.2.2.2.2.2.2.2.1, h.2.2.2.2.2.2.2.2.2.2.2.1, h.2.2.2.2.2.2.2.2.2.2.2.2.1, h.2.2.2.2.2.2.2.2.2.2.2.2.2, he]

theorem portRead_fst : (portRead a s).1 = byteOfBits (portReadBits a s).1 := rfl

theorem portRead_snd : (portRead a s).2 = (portReadBits a s).2 := rfl

/-- An output bit of the output port that is no sense bit reads back its latch (R51). -/
theorem bitAt_portRead_output (ho : isOutput s k = true)
    (hs : s.cfg.portInAddr = s.cfg.portOutAddr → k ≠ s.cfg.clkInBit ∧ k ≠ s.cfg.dataInBit) :
    bitAt (portRead s.cfg.portOutAddr s).1 k = bitAt s.out k := by
  rw [portRead_fst, bitAt_byteOfBits, portReadBits_fst]
  unfold portBit
  by_cases hp : s.cfg.portOutAddr = s.cfg.portInAddr
  · obtain ⟨h1, h2⟩ := hs hp.symm
    simp [h1, h2, ho]
  · simp [hp, ho]

/-! ### Port writes -/

@[simp] theorem portWrite_out_eq :
    portWrite s.cfg.portOutAddr v s = { s with out := v, history := s.history ++ [.portWrite s.cfg.portOutAddr v] } := by
  simp [portWrite, latchPort, State.setOut, State.log]

theorem portWrite_ddr_eq (h : s.cfg.ddrAddr ≠ s.cfg.portOutAddr) :
    portWrite s.cfg.ddrAddr v s = { s with ddr := v, history := s.history ++ [.portWrite s.cfg.ddrAddr v] } := by
  simp [portWrite, latchPort, h, State.setDdr, State.log]

/-! ### Line changes -/

/-- A read-modify-write of the output port (R56): what it writes is what it read with one bit changed. -/
theorem rmwOut_eq :
    rmwOut k x s = { s with
      out := putBit (portRead s.cfg.portOutAddr s).1 k x
      history := s.history ++ [.portRead s.cfg.portOutAddr (portRead s.cfg.portOutAddr s).1,
        .portWrite s.cfg.portOutAddr (putBit (portRead s.cfg.portOutAddr s).1 k x)]
      env := if s.cfg.portOutAddr = s.cfg.portInAddr then s.env.tail else s.env
      draws := (rmwOut k x s).draws } := by
  have h := portReadBits_snd s s.cfg.portOutAddr
  have hc : (portRead s.cfg.portOutAddr s).2.cfg = s.cfg := by rw [portRead_snd, h]
  have hw := portWrite_out_eq (portRead s.cfg.portOutAddr s).2 (putBit (portRead s.cfg.portOutAddr s).1 k x)
  rw [hc] at hw
  unfold rmwOut
  simp only [hw]
  simp only [portRead_snd]
  rw [h]
  simp [portRead_fst]

@[simp] theorem rmwOut_frame :
    (rmwOut k x s).cfg = s.cfg ∧ (rmwOut k x s).started = s.started ∧ (rmwOut k x s).configured = s.configured ∧
    (rmwOut k x s).shift = s.shift ∧ (rmwOut k x s).bitcnt = s.bitcnt ∧ (rmwOut k x s).nackacc = s.nackacc ∧
    (rmwOut k x s).idx = s.idx ∧ (rmwOut k x s).result = s.result ∧ (rmwOut k x s).ddr = s.ddr ∧
    (rmwOut k x s).mem = s.mem ∧ (rmwOut k x s).stream = s.stream ∧ (rmwOut k x s).host = s.host := by
  rw [rmwOut_eq]
  simp

/-- A line change keeps every other output bit, if it is no sense bit of a shared port (R37). -/
theorem bitAt_rmwOut_other {j : BitIndex} (hj : j ≠ k) (ho : isOutput s j = true)
    (hs : s.cfg.portInAddr = s.cfg.portOutAddr → j ≠ s.cfg.clkInBit ∧ j ≠ s.cfg.dataInBit) :
    bitAt (rmwOut k x s).out j = bitAt s.out j := by
  rw [rmwOut_eq, bitAt_putBit_other _ _ hj, bitAt_portRead_output s j ho hs]

theorem bitAt_rmwOut_same : bitAt (rmwOut k x s).out k = x := by
  rw [rmwOut_eq, bitAt_putBit_same]

/-! ### Samples -/

theorem readLine_snd : (readLine l s).2 = (portReadBits s.cfg.portInAddr s).2 := rfl

/-- `ReadLine(L)` returns the level of the line (R102, R27, R28). -/
theorem readLine_fst (hd : s.cfg.clkInBit ≠ s.cfg.dataInBit) :
    (readLine l s).1 = level s (askEnv s.cfg.portInAddr s).1 l := by
  have : (readLine l s).1 = ((portReadBits s.cfg.portInAddr s).1 (inBit s.cfg l)).xor s.cfg.inActiveLow := rfl
  rw [this, portReadBits_fst]
  unfold portBit
  cases l
  · simp [inBit]
  · simp [inBit, Ne.symm hd]

/-- A line that the engine drives low reads low (R102). -/
theorem readLine_of_engineLow (hd : s.cfg.clkInBit ≠ s.cfg.dataInBit) (h : engineLow s l = true) :
    (readLine l s).1 = false := by
  rw [readLine_fst s l hd]
  simp [level, h]

/-! ### Completion -/

/-- `Complete(c, v)` writes RESULT and appends `Done`, and nothing else (R91). -/
theorem complete_eq (c : Condition) (cmd : Command) :
    complete c v cmd s = { s with result := ⟨c.code, v⟩, history := s.history ++ [.done cmd c v] } := rfl

/-- A command fault changes only RESULT and the history (R205 to R207). -/
theorem raiseCondition_fault_eq (c : Condition) (cmd : Command) (h : cleanup c s = s) :
    raiseCondition c cmd s = { s with
      result := ⟨c.code, Config.freeByte s.draws⟩
      history := s.history ++ [.done cmd c (Config.freeByte s.draws)]
      draws := s.draws + 1 } := by
  simp only [raiseCondition, h, draw8]
  rfl

end Sys2Proof.Machine
end

