-- ==== Sys2Proof/Laws/Proc.lean ====
section
/-! SUPPORT. How a procedure of the engine runs on a state: one lemma for each way it is put together, and the state in which
it ends, whether normally or by a condition. -/
namespace Sys2Proof.Machine

variable {α β : Type}

@[simp] theorem bind_run (p : Proc α) (f : α → Proc β) (s : State) :
    (p >>= f) s = match p s with
      | .ok a t => f a t
      | .error c t => .error c t := by
  change EStateM.bind p f s = _
  unfold EStateM.bind
  cases p s <;> rfl

@[simp] theorem pure_run (a : α) (s : State) : (pure a : Proc α) s = .ok a s := rfl

@[simp] theorem throw_run (c : BusCondition) (s : State) : (throw c : Proc α) s = .error c s := rfl

@[simp] theorem get_run (s : State) : (get : Proc State) s = .ok s s := rfl

@[simp] theorem modify_run (f : State → State) (s : State) : (modify f : Proc PUnit) s = .ok ⟨⟩ (f s) := rfl

@[simp] theorem modifyGet_run (f : State → α × State) (s : State) :
    (modifyGet f : Proc α) s = .ok (f s).1 (f s).2 := rfl

@[simp] theorem onlyIf_true (p : Proc Unit) : onlyIf true p = p := rfl

@[simp] theorem onlyIf_false (p : Proc Unit) : onlyIf false p = pure () := rfl

/-- The state in which a procedure ended, normally or not. -/
def endState : EStateM.Result BusCondition State α → State
  | .ok _ t => t
  | .error _ t => t

@[simp] theorem endState_ok (a : α) (t : State) :
    endState (.ok a t : EStateM.Result BusCondition State α) = t := rfl

@[simp] theorem endState_error (c : BusCondition) (t : State) :
    endState (.error c t : EStateM.Result BusCondition State α) = t := rfl

/-- `p` always ends in a state that `R` relates to the state it began in. -/
def Always (R : State → State → Prop) (p : Proc α) : Prop := ∀ s, R s (endState (p s))

theorem Always.bind {R : State → State → Prop} (trans : ∀ {a b c}, R a b → R b c → R a c)
    {p : Proc α} {f : α → Proc β} (hp : Always R p) (hf : ∀ a, Always R (f a)) : Always R (p >>= f) := by
  intro s
  have h := hp s
  rw [bind_run]
  cases hps : p s with
  | ok a t => rw [hps] at h; exact trans h (hf a t)
  | error c t => rw [hps] at h; exact h

theorem Always.onlyIf {R : State → State → Prop} (refl : ∀ s, R s s) {p : Proc Unit} (hp : Always R p)
    (c : Bool) : Always R (Machine.onlyIf c p) := by
  cases c
  · exact refl
  · exact hp

/-- `p` run on `s` ends normally with a value and a state that meet `Q`, or by a condition and in a state that meet `E`. -/
def Wp (p : Proc α) (s : State) (Q : α → State → Prop) (E : BusCondition → State → Prop) : Prop :=
  match p s with
  | .ok a t => Q a t
  | .error c t => E c t

theorem Wp.bind {p : Proc α} {f : α → Proc β} {s : State} {Q : β → State → Prop} {E : BusCondition → State → Prop}
    (h : Wp p s (fun a t => Wp (f a) t Q E) E) : Wp (p >>= f) s Q E := by
  unfold Wp at *
  rw [bind_run]
  cases hp : p s <;> rw [hp] at h <;> exact h

theorem Wp.get_bind {f : State → Proc β} {s : State} {Q : β → State → Prop} {E : BusCondition → State → Prop}
    (h : Wp (f s) s Q E) : Wp (get >>= f) s Q E := Wp.bind h

theorem Wp.modify_bind {g : State → State} {f : PUnit → Proc β} {s : State} {Q : β → State → Prop}
    {E : BusCondition → State → Prop} (h : Wp (f ⟨⟩) (g s) Q E) : Wp (modify g >>= f) s Q E := Wp.bind h

theorem Wp.modifyGet_bind {g : State → α × State} {f : α → Proc β} {s : State} {Q : β → State → Prop}
    {E : BusCondition → State → Prop} (h : Wp (f (g s).1) (g s).2 Q E) : Wp (modifyGet g >>= f) s Q E := Wp.bind h

theorem Wp.pure {a : α} {s : State} {Q : α → State → Prop} {E : BusCondition → State → Prop} (h : Q a s) :
    Wp (Pure.pure a) s Q E := h

theorem Wp.throw {c : BusCondition} {s : State} {Q : α → State → Prop} {E : BusCondition → State → Prop}
    (h : E c s) : Wp (MonadExcept.throw c) s Q E := h

theorem Wp.imp {p : Proc α} {s : State} {Q Q' : α → State → Prop} {E E' : BusCondition → State → Prop}
    (h : Wp p s Q E) (hq : ∀ a t, Q a t → Q' a t) (he : ∀ c t, E c t → E' c t) : Wp p s Q' E' := by
  unfold Wp at *
  cases hp : p s <;> rw [hp] at h
  · exact hq _ _ h
  · exact he _ _ h

theorem Wp.and {p : Proc α} {s : State} {Q Q' : α → State → Prop} {E E' : BusCondition → State → Prop}
    (h : Wp p s Q E) (h' : Wp p s Q' E') : Wp p s (fun a t => Q a t ∧ Q' a t) (fun c t => E c t ∧ E' c t) := by
  unfold Wp at *
  cases hp : p s <;> rw [hp] at h h' <;> exact ⟨h, h'⟩

theorem Wp.of_ok {p : Proc α} {s t : State} {a : α} {Q : α → State → Prop} {E : BusCondition → State → Prop}
    (h : Wp p s Q E) (hp : p s = .ok a t) : Q a t := by
  unfold Wp at h
  rw [hp] at h
  exact h

theorem Wp.of_error {p : Proc α} {s t : State} {c : BusCondition} {Q : α → State → Prop}
    {E : BusCondition → State → Prop} (h : Wp p s Q E) (hp : p s = .error c t) : E c t := by
  unfold Wp at h
  rw [hp] at h
  exact h

end Sys2Proof.Machine
end

