-- ==== Sys2Proof/Laws/Trace.lean ====
section
/-! SUPPORT. What a command can do, said once: every procedure is a run of single actions, and every command but INIT and RESET
is such a run followed by its completion. An invariant of the engine is then one small case for each action. -/
namespace Sys2Proof.Machine

/-- An access to the lines: one sample of the input port, or one line change. -/
inductive LineAction : State → State → Prop where
  | sample (s : State) : LineAction s (portReadBits s.cfg.portInAddr s).2
  | change (s : State) (l : Line) (x : Bool) : LineAction s (rmwOut (outBit s.cfg l) x s)

/-- A run of accesses to the lines. -/
abbrev LineRun : State → State → Prop := Relation.ReflTransGen LineAction

/-- One action of the engine inside a command other than INIT and RESET. -/
inductive Action : State → State → Prop where
  | lines {s t : State} (h : LineAction s t) : Action s t
  | draw (s : State) : Action s (draw8 s).2
  | started (s : State) (b : Bool) : Action s (s.setStarted b)
  | shift (s : State) (v : Byte) : Action s (s.setShift v)
  | bitcnt (s : State) (n : BitVec 4) (h : n ≤ 8#4) : Action s (s.setBitcnt n)
  | nackacc (s : State) (b : Bool) : Action s (s.setNackacc b)
  | idx (s : State) (w : Word) : Action s (s.setIdx w)
  | memRead (s : State) (a : Word) : Action s (memRead a s).2
  | memWrite (s : State) (a : Word) (v : Byte) : Action s (memWrite a v s)

/-- A run of actions. -/
abbrev ActionRun : State → State → Prop := Relation.ReflTransGen Action

theorem LineRun.actionRun {s t : State} (h : LineRun s t) : ActionRun s t := by
  induction h with
  | refl => exact .refl
  | tail _ h ih => exact ih.tail (.lines h)

/-! ### Line actions leave everything but OUT, the history, the answers and the draws alone -/

/-- Everything but OUT, the history, the environment's answers and the number of draws is the same. -/
def SameButLines (s t : State) : Prop :=
  t = { s with out := t.out, history := t.history, env := t.env, draws := t.draws }

theorem SameButLines.refl (s : State) : SameButLines s s := rfl

theorem SameButLines.trans {s t u : State} (h : SameButLines s t) (h' : SameButLines t u) : SameButLines s u := by
  unfold SameButLines at *
  rw [h', h]

theorem LineAction.same {s t : State} (h : LineAction s t) : SameButLines s t := by
  cases h with
  | sample => unfold SameButLines; rw [portReadBits_snd]
  | change l x => unfold SameButLines; rw [rmwOut_eq]

theorem LineRun.same {s t : State} (h : LineRun s t) : SameButLines s t := by
  induction h with
  | refl => exact .refl _
  | tail _ h ih => exact ih.trans h.same

theorem SameButLines.cfg {s t : State} (h : SameButLines s t) : t.cfg = s.cfg := by rw [h]
theorem SameButLines.started {s t : State} (h : SameButLines s t) : t.started = s.started := by rw [h]
theorem SameButLines.configured {s t : State} (h : SameButLines s t) : t.configured = s.configured := by rw [h]
theorem SameButLines.shift {s t : State} (h : SameButLines s t) : t.shift = s.shift := by rw [h]
theorem SameButLines.bitcnt {s t : State} (h : SameButLines s t) : t.bitcnt = s.bitcnt := by rw [h]
theorem SameButLines.nackacc {s t : State} (h : SameButLines s t) : t.nackacc = s.nackacc := by rw [h]
theorem SameButLines.idx {s t : State} (h : SameButLines s t) : t.idx = s.idx := by rw [h]
theorem SameButLines.ddr {s t : State} (h : SameButLines s t) : t.ddr = s.ddr := by rw [h]
theorem SameButLines.mem {s t : State} (h : SameButLines s t) : t.mem = s.mem := by rw [h]

/-! ### The bit procedures are runs of line actions -/

theorem releaseLine_lineRun (l : Line) (s : State) : LineRun s (releaseLine l s) := .single (.change s l _)

theorem driveLineLow_lineRun (l : Line) (s : State) : LineRun s (driveLineLow l s) := .single (.change s l _)

theorem setData_lineRun (v : Bool) (s : State) : LineRun s (setData v s) := by
  cases v
  · exact driveLineLow_lineRun _ s
  · exact releaseLine_lineRun _ s

theorem readLine_lineRun (l : Line) (s : State) : LineRun s (readLine l s).2 := .single (.sample s)

theorem LineRun.bind {α β : Type} {p : Proc α} {f : α → Proc β} (hp : Always LineRun p)
    (hf : ∀ a, Always LineRun (f a)) : Always LineRun (p >>= f) :=
  Always.bind Relation.ReflTransGen.trans hp hf

theorem pollClock_lineRun (n : Nat) : Always LineRun (pollClock n) := by
  induction n with
  | zero => exact fun s => .refl
  | succ n ih =>
    refine LineRun.bind (fun s => readLine_lineRun .clock s) fun high => ?_
    cases high
    · exact ih
    · exact fun s => .refl

theorem stretchWait_lineRun : Always LineRun stretchWait := by
  refine LineRun.bind (fun s => .refl) fun s0 => ?_
  cases s0.cfg.stretch with
  | none => exact fun s => .refl
  | wait n => exact pollClock_lineRun _

theorem arbCheck_lineRun : Always LineRun arbCheck := by
  refine LineRun.bind (fun s => .refl) fun s0 => Always.onlyIf (fun _ => .refl) ?_ _
  refine LineRun.bind (fun s => readLine_lineRun .data s) fun high => ?_
  cases high <;> exact fun s => .refl

theorem writeBit_lineRun (v : Bool) : Always LineRun (writeBit v) := by
  refine LineRun.bind (fun s => setData_lineRun v s) fun _ => ?_
  refine LineRun.bind (fun s => releaseLine_lineRun .clock s) fun _ => ?_
  refine LineRun.bind stretchWait_lineRun fun _ => ?_
  refine LineRun.bind (Always.onlyIf (fun _ => .refl) arbCheck_lineRun v) fun _ => ?_
  exact fun s => driveLineLow_lineRun .clock s

theorem readBit_lineRun : Always LineRun readBit := by
  refine LineRun.bind (fun s => releaseLine_lineRun .data s) fun _ => ?_
  refine LineRun.bind (fun s => releaseLine_lineRun .clock s) fun _ => ?_
  refine LineRun.bind stretchWait_lineRun fun _ => ?_
  refine LineRun.bind (fun s => readLine_lineRun .data s) fun _ => ?_
  refine LineRun.bind (fun s => driveLineLow_lineRun .clock s) fun _ => ?_
  exact fun s => .refl

theorem reopenLines_lineRun : Always LineRun reopenLines := by
  refine LineRun.bind (fun s => releaseLine_lineRun .data s) fun _ => ?_
  refine LineRun.bind (fun s => releaseLine_lineRun .clock s) fun _ => ?_
  exact stretchWait_lineRun

/-! ### The byte and transaction procedures are runs of actions -/

theorem ActionRun.bind {α β : Type} {p : Proc α} {f : α → Proc β} (hp : Always ActionRun p)
    (hf : ∀ a, Always ActionRun (f a)) : Always ActionRun (p >>= f) :=
  Always.bind Relation.ReflTransGen.trans hp hf

theorem Always.ofLines {α : Type} {p : Proc α} (h : Always LineRun p) : Always ActionRun p :=
  fun s => (h s).actionRun

theorem driveLineLow_actionRun (l : Line) (s : State) : ActionRun s (driveLineLow l s) :=
  (driveLineLow_lineRun l s).actionRun

theorem releaseLine_actionRun (l : Line) (s : State) : ActionRun s (releaseLine l s) :=
  (releaseLine_lineRun l s).actionRun

theorem startCondition_actionRun : Always ActionRun startCondition := by
  refine ActionRun.bind (fun s => .refl) fun s0 => ?_
  refine ActionRun.bind (Always.onlyIf (fun _ => .refl) (.ofLines reopenLines_lineRun) _) fun _ => ?_
  refine ActionRun.bind (.ofLines arbCheck_lineRun) fun _ => ?_
  refine ActionRun.bind (fun s => driveLineLow_actionRun .data s) fun _ => ?_
  refine ActionRun.bind (fun s => driveLineLow_actionRun .clock s) fun _ => ?_
  exact fun s => .single (.started s true)

theorem closeTransaction_actionRun (s : State) : ActionRun s (closeTransaction s) := by
  unfold closeTransaction
  split
  · exact .single (.started s false)
  · exact .refl

theorem stopCondition_actionRun : Always ActionRun stopCondition := by
  refine ActionRun.bind (fun s => driveLineLow_actionRun .data s) fun _ => ?_
  refine ActionRun.bind (fun s => releaseLine_actionRun .clock s) fun _ => ?_
  refine ActionRun.bind (.ofLines stretchWait_lineRun) fun _ => ?_
  refine ActionRun.bind (fun s => releaseLine_actionRun .data s) fun _ => ?_
  refine ActionRun.bind (.ofLines arbCheck_lineRun) fun _ => ?_
  exact fun s => closeTransaction_actionRun s

theorem loadShift_actionRun (b : Byte) (s : State) : ActionRun s (loadShift b s) :=
  .trans (.single (.shift s b)) (.single (.bitcnt _ 0#4 (by decide)))

theorem countBit_le {n : BitVec 4} {m : Nat} (h : n.toNat + (m + 1) ≤ 8) :
    n + 1#4 ≤ 8#4 ∧ (n + 1#4).toNat + m ≤ 8 := by
  have h1 : (n + 1#4).toNat = n.toNat + 1 := by
    rw [BitVec.toNat_add, BitVec.toNat_ofNat]
    omega
  refine ⟨?_, by omega⟩
  rw [BitVec.le_def, h1, BitVec.toNat_ofNat]
  omega

theorem sendBits_actionRun (n : Nat) (s : State) (h : s.bitcnt.toNat + n ≤ 8) :
    ActionRun s (endState (sendBits n s)) := by
  induction n generalizing s with
  | zero => exact .refl
  | succ n ih =>
    simp only [sendBits, bind_run, get_run]
    have hw := writeBit_lineRun (nextBitOut s) s
    cases hr : writeBit (nextBitOut s) s with
    | error c t => rw [hr] at hw; exact hw.actionRun
    | ok a t =>
      rw [hr] at hw
      have hb := hw.same.bitcnt
      simp only [endState_ok] at hb
      obtain ⟨h1, h2⟩ := countBit_le (n := t.bitcnt) (m := n) (by rw [hb]; exact h)
      exact .trans hw.actionRun (.trans (.single (.bitcnt t _ h1)) (ih _ h2))

theorem receiveBits_actionRun (n : Nat) (s : State) (h : s.bitcnt.toNat + n ≤ 8) :
    ActionRun s (endState (receiveBits n s)) := by
  induction n generalizing s with
  | zero => exact .refl
  | succ n ih =>
    simp only [receiveBits, bind_run]
    have hw := readBit_lineRun s
    cases hr : readBit s with
    | error c t => rw [hr] at hw; exact hw.actionRun
    | ok x t =>
      rw [hr] at hw
      have hb := hw.same.bitcnt
      simp only [endState_ok] at hb
      obtain ⟨h1, h2⟩ := countBit_le (n := t.bitcnt) (m := n) (by rw [hb]; exact h)
      exact .trans hw.actionRun (.trans (.single (.shift t _)) (.trans (.single (.bitcnt _ _ h1)) (ih _ h2)))

theorem writeByte_actionRun (b : Byte) : Always ActionRun (writeByte b) := by
  intro s
  have h : Always ActionRun (do readBit) := .ofLines readBit_lineRun
  have hs := sendBits_actionRun 8 (loadShift b s) (by simp [loadShift])
  simp only [writeByte, bind_run, modify_run]
  refine .trans (loadShift_actionRun b s) ?_
  cases hr : sendBits 8 (loadShift b s) with
  | error c t => rw [hr] at hs; exact hs
  | ok a t => rw [hr] at hs; exact hs.trans (h t)

theorem readByte_actionRun (last : Bool) : Always ActionRun (readByte last) := by
  intro s
  have h : Always ActionRun (do writeBit last; return (← get).shift) :=
    ActionRun.bind (.ofLines (writeBit_lineRun last)) fun _ => fun s => .refl
  have hs := receiveBits_actionRun 8 (loadShift 0x00#8 s) (by simp [loadShift])
  unfold readByte
  rw [bind_run, modify_run]
  dsimp only
  refine .trans (loadShift_actionRun 0x00#8 s) ?_
  rw [bind_run]
  cases hr : receiveBits 8 (loadShift 0x00#8 s) with
  | error c t => rw [hr] at hs; exact hs
  | ok a t => rw [hr] at hs; exact hs.trans (h t)

theorem releaseCommand_actionRun (l : Line) : Always ActionRun (releaseCommand l) :=
  ActionRun.bind (fun s => releaseLine_actionRun l s) fun _ => fun _ => .refl

theorem drivelowCommand_actionRun (l : Line) : Always ActionRun (drivelowCommand l) :=
  ActionRun.bind (fun s => driveLineLow_actionRun l s) fun _ => fun _ => .refl

theorem readlineCommand_actionRun (l : Line) : Always ActionRun (readlineCommand l) :=
  ActionRun.bind (fun s => (readLine_lineRun l s).actionRun) fun _ => fun _ => .refl

theorem sendBytes_actionRun (buf : Word) (n : Nat) : Always ActionRun (sendBytes buf n) := by
  induction n with
  | zero => exact fun s => .refl
  | succ n ih =>
    refine ActionRun.bind (fun s => .refl) fun s0 => ?_
    refine ActionRun.bind (fun s => .single (.memRead s _)) fun b => ?_
    refine ActionRun.bind (writeByte_actionRun b) fun ack => ?_
    refine ActionRun.bind (fun s => .single (.nackacc s _)) fun _ => ?_
    exact ActionRun.bind (fun s => .single (.idx s _)) fun _ => ih

theorem receiveBytes_actionRun (buf len : Word) (n : Nat) (r : Byte) :
    Always ActionRun (receiveBytes buf len r n) := by
  induction n generalizing r with
  | zero => exact fun s => .refl
  | succ n ih =>
    refine ActionRun.bind (fun s => .refl) fun s0 => ?_
    refine ActionRun.bind (readByte_actionRun _) fun r' => ?_
    refine ActionRun.bind (fun s => .single (.memWrite s _ r')) fun _ => ?_
    exact ActionRun.bind (fun s => .single (.idx s _)) fun _ => ih r'

theorem writeBytes_actionRun (st p : Bool) (buf len : Word) : Always ActionRun (writeBytes st p buf len) := by
  refine ActionRun.bind (fun s => .single (.nackacc s _)) fun _ => ?_
  refine ActionRun.bind (Always.onlyIf (fun _ => .refl) startCondition_actionRun _) fun _ => ?_
  refine ActionRun.bind (fun s => .single (.idx s _)) fun _ => ?_
  refine ActionRun.bind (sendBytes_actionRun buf _) fun _ => ?_
  refine ActionRun.bind (Always.onlyIf (fun _ => .refl) stopCondition_actionRun _) fun _ => ?_
  exact ActionRun.bind (fun s => .refl) fun _ => fun s => .refl

theorem readBytes_actionRun (p : Bool) (buf len : Word) : Always ActionRun (readBytes p buf len) := by
  refine ActionRun.bind (fun s => .single (.draw s)) fun _ => ?_
  refine ActionRun.bind (fun s => .single (.idx s _)) fun _ => ?_
  refine ActionRun.bind (receiveBytes_actionRun buf len _ _) fun _ => ?_
  refine ActionRun.bind (Always.onlyIf (fun _ => .refl) stopCondition_actionRun _) fun _ => ?_
  exact fun s => .refl

/-! ### A command -/

/-- `t` is `s` after a run of actions and one completion of `i`. -/
def RunThenDone (i : Instr) (s t : State) : Prop :=
  ∃ u c v, ActionRun s u ∧ t = complete c v (.legal i) u

theorem cleanup_actionRun (c : Condition) (s : State) : ActionRun s (cleanup c s) := by
  cases c
  case arbLost => exact .single (.started s false)
  case busTimeout => exact .trans (releaseLine_actionRun .data s) (.single (.started _ false))
  all_goals exact .refl

theorem raiseCondition_runThenDone (c : Condition) (i : Instr) (s : State) :
    RunThenDone i s (raiseCondition c (.legal i) s) :=
  ⟨_, c, _, .trans (cleanup_actionRun c s) (.single (.draw _)), rfl⟩

theorem RunThenDone.after {i : Instr} {s u t : State} (h : ActionRun s u) (h' : RunThenDone i u t) :
    RunThenDone i s t := by
  obtain ⟨w, c, v, hw, ht⟩ := h'
  exact ⟨w, c, v, h.trans hw, ht⟩

theorem runProc_runThenDone (i : Instr) {p : Proc Byte} (hp : Always ActionRun p) (s : State) :
    RunThenDone i s (runProc i p s) := by
  have h := hp s
  unfold runProc
  cases hr : p s with
  | ok v t => rw [hr] at h; exact ⟨t, .ok, v, h, rfl⟩
  | error c t => rw [hr] at h; exact .after h (raiseCondition_runThenDone _ i t)

theorem whenConfigured_runThenDone (i : Instr) {run : State → State} (h : ∀ s, RunThenDone i s (run s)) (s : State) :
    RunThenDone i s (whenConfigured i run s) := by
  unfold whenConfigured
  split
  · exact h s
  · exact raiseCondition_runThenDone _ i s

theorem whenBufferOk_runThenDone (i : Instr) (buf len : Word) {run : State → State}
    (h : ∀ s, RunThenDone i s (run s)) (s : State) : RunThenDone i s (whenBufferOk i buf len run s) := by
  unfold whenBufferOk
  split
  · exact h s
  · exact raiseCondition_runThenDone _ i s

/-- Every command but INIT and RESET is a run of actions and its completion. -/
theorem exec_runThenDone {i : Instr} {s t : State} (h : exec i s = .next t) (hi : i ≠ .init) (hr : i ≠ .reset) :
    RunThenDone i s t := by
  cases i <;> simp only [exec, execRelease, execDrivelow, execReadline, execWrbit, execRdbit, execStart, execStop,
    execWrbyte, execRdbyte, execWrbytes, execRdbytes, Host.Outcome.next.injEq] at h <;> try subst h
  case release l =>
    exact whenConfigured_runThenDone _ (runProc_runThenDone _ (releaseCommand_actionRun l)) s
  case drivelow l =>
    exact whenConfigured_runThenDone _ (runProc_runThenDone _ (drivelowCommand_actionRun l)) s
  case readline l =>
    exact whenConfigured_runThenDone _ (runProc_runThenDone _ (readlineCommand_actionRun l)) s
  case wrbit v =>
    exact whenConfigured_runThenDone _ (runProc_runThenDone _
      (ActionRun.bind (.ofLines (writeBit_lineRun v)) fun _ => fun s => .refl)) s
  case rdbit =>
    exact whenConfigured_runThenDone _ (runProc_runThenDone _
      (ActionRun.bind (.ofLines readBit_lineRun) fun _ => fun s => .refl)) s
  case start =>
    exact whenConfigured_runThenDone _ (runProc_runThenDone _
      (ActionRun.bind startCondition_actionRun fun _ => fun s => .refl)) s
  case stop =>
    exact whenConfigured_runThenDone _ (runProc_runThenDone _
      (ActionRun.bind stopCondition_actionRun fun _ => fun s => .refl)) s
  case wrbyte b =>
    exact whenConfigured_runThenDone _ (runProc_runThenDone _
      (ActionRun.bind (writeByte_actionRun b) fun _ => fun s => .refl)) s
  case rdbyte last =>
    exact whenConfigured_runThenDone _ (runProc_runThenDone _ (readByte_actionRun last)) s
  case init => exact absurd rfl hi
  case reset => exact absurd rfl hr
  case wrbytes st p buf len =>
    exact whenConfigured_runThenDone _ (whenBufferOk_runThenDone _ _ _ (runProc_runThenDone _
      (writeBytes_actionRun st p buf len))) s
  case rdbytes p buf len =>
    exact whenConfigured_runThenDone _ (whenBufferOk_runThenDone _ _ _ (runProc_runThenDone _
      (readBytes_actionRun p buf len))) s

/-- A configured engine runs the command's procedure. -/
theorem whenConfigured_of (i : Instr) (run : State → State) {s : State} (h : s.configured = true) :
    whenConfigured i run s = run s := by simp [whenConfigured, h]

/-- An admitted buffer lets the command's procedure run. -/
theorem whenBufferOk_of (i : Instr) {buf len : Word} (run : State → State) {s : State} (h : bufferOk s.cfg buf len = true) :
    whenBufferOk i buf len run s = run s := by simp [whenBufferOk, h]

/-- A procedure that ends normally completes with OK and its value. -/
theorem runProc_ok (i : Instr) {p : Proc Byte} {s t : State} {v : Byte} (h : p s = .ok v t) :
    runProc i p s = complete .ok v (.legal i) t := by simp [runProc, h]

/-- A procedure that a bus condition ends raises it. -/
theorem runProc_error (i : Instr) {p : Proc Byte} {s t : State} {c : BusCondition} (h : p s = .error c t) :
    runProc i p s = raiseCondition c.condition (.legal i) t := by simp [runProc, h]

/-- The procedure of each command. -/
def procOf : Instr → Proc Byte
  | .release l => releaseCommand l
  | .drivelow l => drivelowCommand l
  | .readline l => readlineCommand l
  | .wrbit v => wrbitCommand v
  | .rdbit => rdbitCommand
  | .start => startCommand
  | .stop => stopCommand
  | .wrbyte b => wrbyteCommand b
  | .rdbyte last => readByte last
  | .init => initCommand
  | .reset => resetCommand
  | .wrbytes st p buf len => writeBytes st p buf len
  | .rdbytes p buf len => readBytes p buf len

/-- The buffer of each command. -/
def bufferOf : Instr → Option (Word × Word)
  | .wrbytes _ _ buf len => some (buf, len)
  | .rdbytes _ buf len => some (buf, len)
  | _ => none

/-- A configured engine, and an admitted buffer where there is one, run the command's procedure (30_encoding.md R89). -/
theorem exec_eq_runProc (i : Instr) {s : State} (hc : s.configured = true)
    (hb : ∀ buf len, bufferOf i = some (buf, len) → bufferOk s.cfg buf len = true) :
    exec i s = .next (runProc i (procOf i) s) := by
  cases i
  case wrbytes st p buf len =>
    simp only [exec, execWrbytes, whenConfigured_of _ _ hc, whenBufferOk_of _ _ (hb buf len rfl), procOf]
  case rdbytes p buf len =>
    simp only [exec, execRdbytes, whenConfigured_of _ _ hc, whenBufferOk_of _ _ (hb buf len rfl), procOf]
  case init => rfl
  case reset => rfl
  all_goals
    simp only [exec, execRelease, execDrivelow, execReadline, execWrbit, execRdbit, execStart, execStop, execWrbyte,
      execRdbyte, whenConfigured_of _ _ hc, procOf]

/-- The same where the procedure ends normally. -/
theorem exec_of_ok (i : Instr) {s t : State} {v : Byte} (hc : s.configured = true)
    (hb : ∀ buf len, bufferOf i = some (buf, len) → bufferOk s.cfg buf len = true) (h : procOf i s = .ok v t) :
    exec i s = .next (complete .ok v (.legal i) t) := by rw [exec_eq_runProc i hc hb, runProc_ok i h]

/-- The same where a bus condition ends the procedure. -/
theorem exec_of_error (i : Instr) {s t : State} {c : BusCondition} (hc : s.configured = true)
    (hb : ∀ buf len, bufferOf i = some (buf, len) → bufferOk s.cfg buf len = true) (h : procOf i s = .error c t) :
    exec i s = .next (raiseCondition c.condition (.legal i) t) := by rw [exec_eq_runProc i hc hb, runProc_error i h]

/-- INIT and RESET need no configured engine (60_exceptions.md R206). -/
def needsConfigured : Instr → Bool
  | .init => false
  | .reset => false
  | _ => true

/-- The four ways a command can end, in the order of 60_exceptions.md R208. -/
theorem exec_cases {i : Instr} {s t : State} (h : exec i s = .next t) :
    (s.configured = false ∧ needsConfigured i = true ∧ t = raiseCondition .notConfigured (.legal i) s) ∨
    (∃ buf len, bufferOf i = some (buf, len) ∧ s.configured = true ∧ bufferOk s.cfg buf len = false ∧
      t = raiseCondition .bufferFault (.legal i) s) ∨
    ((s.configured = true ∨ needsConfigured i = false) ∧
      (∀ buf len, bufferOf i = some (buf, len) → bufferOk s.cfg buf len = true) ∧
      ((∃ v u, procOf i s = .ok v u ∧ t = complete .ok v (.legal i) u) ∨
        ∃ c u, procOf i s = .error c u ∧ t = raiseCondition c.condition (.legal i) u)) := by
  have hrun : exec i s = .next (runProc i (procOf i) s) →
      ((∃ v u, procOf i s = .ok v u ∧ t = complete .ok v (.legal i) u) ∨
        ∃ c u, procOf i s = .error c u ∧ t = raiseCondition c.condition (.legal i) u) := by
    intro h'
    rw [h', Host.Outcome.next.injEq] at h
    cases hp : procOf i s with
    | ok v u => exact .inl ⟨v, u, rfl, by rw [← h, runProc_ok i hp]⟩
    | error c u => exact .inr ⟨c, u, rfl, by rw [← h, runProc_error i hp]⟩
  by_cases hn : needsConfigured i = true
  · cases hc : s.configured with
    | false =>
      left
      refine ⟨rfl, hn, ?_⟩
      cases i <;> first
        | (simp [needsConfigured] at hn; done)
        | (simp only [exec, execRelease, execDrivelow, execReadline, execWrbit, execRdbit, execStart, execStop,
            execWrbyte, execRdbyte, execWrbytes, execRdbytes, whenConfigured, hc, Host.Outcome.next.injEq] at h
           exact h.symm)
    | true =>
      right
      by_cases hb : ∃ buf len, bufferOf i = some (buf, len) ∧ bufferOk s.cfg buf len = false
      · left
        obtain ⟨buf, len, h1, h2⟩ := hb
        refine ⟨buf, len, h1, rfl, h2, ?_⟩
        cases i <;> first
          | (simp [bufferOf] at h1; done)
          | (simp only [bufferOf, Option.some.injEq, Prod.mk.injEq] at h1
             obtain ⟨rfl, rfl⟩ := h1
             simp only [exec, execWrbytes, execRdbytes, whenConfigured, whenBufferOk, hc, h2,
               Host.Outcome.next.injEq] at h
             exact h.symm)
      · right
        have hb' : ∀ buf len, bufferOf i = some (buf, len) → bufferOk s.cfg buf len = true := by
          intro buf len h1
          cases h2 : bufferOk s.cfg buf len with
          | true => rfl
          | false => exact absurd ⟨buf, len, h1, h2⟩ hb
        exact ⟨.inl rfl, hb', hrun (exec_eq_runProc i hc hb')⟩
  · right; right
    cases i <;> first
      | exact absurd rfl hn
      | exact ⟨.inr rfl, by simp [bufferOf], hrun rfl⟩

/-- A command never faults and is never refused: every condition is a completion (60_exceptions.md R202, R210). -/
theorem exec_isNext (i : Instr) (s : State) : ∃ t, exec i s = .next t := by
  cases i <;> exact ⟨_, rfl⟩

end Sys2Proof.Machine
end

