-- ==== Sys2Proof/Laws/Waveform.lean ====
section
/-! SUPPORT. The line accesses as drives: what a well-formed configuration gives, the events of a run, the drives it puts on the
lines and the drive it leaves, and what a sample reads. -/
namespace Sys2Proof.Machine

/-! ### Well-formed configurations -/

theorem meets_of_wellFormed {cfg : Cfg} (h : cfg.wellFormed = true) (c : ConfigCheck) : cfg.meets c = true := by
  simp only [Cfg.wellFormed, ConfigCheck.all, List.all_cons, List.all_nil, Bool.and_eq_true] at h
  cases c <;> tauto

theorem failedCheck_of_wellFormed {cfg : Cfg} (h : cfg.wellFormed = true) : cfg.failedCheck = none := by
  simp only [Cfg.failedCheck, List.find?_eq_none]
  intro c _
  simp [meets_of_wellFormed h c]

theorem Cfg.outBits_ne {cfg : Cfg} (h : cfg.wellFormed = true) : cfg.clkOutBit ≠ cfg.dataOutBit := by
  simpa [Cfg.meets] using meets_of_wellFormed h .outBitsDistinct

theorem Cfg.inBits_ne {cfg : Cfg} (h : cfg.wellFormed = true) : cfg.clkInBit ≠ cfg.dataInBit := by
  simpa [Cfg.meets] using meets_of_wellFormed h .inBitsDistinct

theorem Cfg.ddrAddr_ne {cfg : Cfg} (h : cfg.wellFormed = true) : cfg.ddrAddr ≠ cfg.portOutAddr := by
  have := meets_of_wellFormed h .ddrAddrDistinct
  simp only [Cfg.meets, Bool.and_eq_true, bne_iff_ne] at this
  exact this.1

/-- The line bits of a shared port are no sense bits. -/
theorem Cfg.outBit_ne_inBits {cfg : Cfg} (h : cfg.wellFormed = true) (l : Line)
    (hs : cfg.portInAddr = cfg.portOutAddr) : outBit cfg l ≠ cfg.clkInBit ∧ outBit cfg l ≠ cfg.dataInBit := by
  have := meets_of_wellFormed h .sharedPortMasksDistinct
  simp only [Cfg.meets, hs, bne_self_eq_false, Bool.false_or, Bool.and_eq_true, bne_iff_ne, and_assoc] at this
  obtain ⟨h1, h2, h3, h4⟩ := this
  cases l
  · exact ⟨Ne.symm h1, Ne.symm h3⟩
  · exact ⟨Ne.symm h2, Ne.symm h4⟩

theorem outBit_injective {cfg : Cfg} (h : cfg.wellFormed = true) {l l' : Line} (hl : l ≠ l') :
    outBit cfg l ≠ outBit cfg l' := by
  have := Cfg.outBits_ne h
  cases l <;> cases l' <;> simp_all [outBit, Ne.symm this]

/-! ### Events -/

@[simp] theorem portAccesses_nil : portAccesses [] = 0 := rfl

@[simp] theorem portAccesses_append (xs ys : List Event) :
    portAccesses (xs ++ ys) = portAccesses xs + portAccesses ys := List.countP_append

@[simp] theorem portWritesTo_append (a : Word) (xs ys : List Event) :
    portWritesTo a (xs ++ ys) = portWritesTo a xs ++ portWritesTo a ys := List.filterMap_append

@[simp] theorem bufferReads_append (xs ys : List Event) :
    bufferReads (xs ++ ys) = bufferReads xs ++ bufferReads ys := List.filterMap_append

@[simp] theorem bufferWrites_append (xs ys : List Event) :
    bufferWrites (xs ++ ys) = bufferWrites xs ++ bufferWrites ys := List.filterMap_append

@[simp] theorem completions_append (xs ys : List Event) :
    completions (xs ++ ys) = completions xs ++ completions ys := List.filterMap_append

theorem newEvents_of_eq {s t : State} {evs : List Event} (h : t.history = s.history ++ evs) : newEvents s t = evs := by
  simp [newEvents, h]

theorem getLastD_append {α : Type} (xs ys : List α) (d : α) : (xs ++ ys).getLastD d = ys.getLastD (xs.getLastD d) := by
  induction xs generalizing d with
  | nil => rfl
  | cons x xs ih => simp only [List.cons_append, List.getLastD_cons, ih]

theorem clockedBits_append (d : Drive) (xs ys : List Drive) :
    clockedBits d (xs ++ ys) = clockedBits d xs ++ clockedBits (xs.getLastD d) ys := by
  induction xs generalizing d with
  | nil => rfl
  | cons x xs ih => simp only [List.cons_append, clockedBits, ih, List.append_assoc, List.getLastD_cons]

/-! ### The drives of a run -/

/-- `t` is `s` after a run without completion that put the drives `ds` on the lines. -/
structure Drove (s t : State) (ds : List Drive) : Prop where
  cfg : t.cfg = s.cfg
  ddr : t.ddr = s.ddr
  events : ∃ evs, t.history = s.history ++ evs ∧ completions evs = [] ∧
    (LinesAreOutputs s → (portWritesTo s.cfg.portOutAddr evs).map (driveOf s.cfg) = ds)

theorem Drove.isOutput {s t : State} {ds : List Drive} (h : Drove s t ds) (k : BitIndex) :
    Machine.isOutput t k = Machine.isOutput s k := by
  simp [Machine.isOutput, h.cfg, h.ddr]

theorem Drove.linesAreOutputs {s t : State} {ds : List Drive} (h : Drove s t ds) :
    LinesAreOutputs t ↔ LinesAreOutputs s := by
  simp [LinesAreOutputs, h.isOutput, h.cfg]

/-- A run that leaves OUT alone leaves the drive alone. -/
theorem Drove.engineLow {s t : State} {ds : List Drive} (h : Drove s t ds) (ho : t.out = s.out) (l : Line) :
    Machine.engineLow t l = Machine.engineLow s l := by
  simp [Machine.engineLow, h.isOutput, h.cfg, ho]

/-- A change of registers that are no lines (working registers, `started`) drives nothing. -/
theorem Drove.ofEq {s t : State} (h1 : t.cfg = s.cfg) (h2 : t.ddr = s.ddr) (h3 : t.history = s.history) : Drove s t [] :=
  ⟨h1, h2, [], by simp [h3], rfl, fun _ => rfl⟩

theorem Drove.refl (s : State) : Drove s s [] := .ofEq rfl rfl rfl

theorem Drove.trans {s t u : State} {ds ds' : List Drive} (h : Drove s t ds) (h' : Drove t u ds') :
    Drove s u (ds ++ ds') := by
  obtain ⟨evs, he, h1, h2⟩ := h.events
  obtain ⟨evs', he', h1', h2'⟩ := h'.events
  refine ⟨h'.cfg.trans h.cfg, h'.ddr.trans h.ddr, evs ++ evs', ?_, ?_, ?_⟩
  · rw [he', he, List.append_assoc]
  · simp [h1, h1']
  · intro ho
    have := h2' (h.linesAreOutputs.mpr ho)
    rw [h.cfg] at this
    simp [h2 ho, this]

/-- The same run with its drives written another way. -/
theorem Drove.cast {s t : State} {ds ds' : List Drive} (h : Drove s t ds) (hd : LinesAreOutputs s → ds = ds') :
    Drove s t ds' := by
  obtain ⟨evs, h0, h1, h2⟩ := h.events
  exact ⟨h.cfg, h.ddr, evs, h0, h1, fun ho => (h2 ho).trans (hd ho)⟩

/-- The completion after a run: the events of the command are those of the run and `Done`. -/
theorem Drove.completed {s t : State} {ds : List Drive} (h : Drove s t ds) (c : Condition) (v : Byte) (cmd : Command) :
    completions (newEvents s (complete c v cmd t)) = [(cmd, c, v)] ∧
    (LinesAreOutputs s → drives s (complete c v cmd t) = ds) := by
  obtain ⟨evs, he, h1, h2⟩ := h.events
  have hev : newEvents s (complete c v cmd t) = evs ++ [.done cmd c v] := by
    apply newEvents_of_eq
    rw [complete_eq, he, List.append_assoc]
  unfold drives
  rw [hev]
  refine ⟨by rw [completions_append, h1]; rfl, fun ho => ?_⟩
  have : portWritesTo s.cfg.portOutAddr [.done cmd c v] = [] := rfl
  rw [portWritesTo_append, this, List.append_nil, h2 ho]

/-- What the engine does with the lines in a state. -/
def driveNow (s : State) : Drive := ⟨!engineLow s .clock, !engineLow s .data⟩

theorem driveNow_eq {s : State} {c d : Bool} (h1 : engineLow s .clock = !c) (h2 : engineLow s .data = !d) :
    driveNow s = ⟨c, d⟩ := by simp [driveNow, h1, h2]

theorem isOutput_clock {s : State} (h : LinesAreOutputs s) : isOutput s s.cfg.clkOutBit = true := h.1

theorem isOutput_data {s : State} (h : LinesAreOutputs s) : isOutput s s.cfg.dataOutBit = true := h.2

theorem driveOf_out {s : State} (h : LinesAreOutputs s) : driveOf s.cfg s.out = driveNow s := by
  obtain ⟨h1, h2⟩ := h
  simp only [driveOf, driveNow, engineLow, outBit, h1, h2, Bool.true_and, Drive.mk.injEq]
  constructor
  · cases bitAt s.out s.cfg.clkOutBit <;> cases relBit s.cfg <;> rfl
  · cases bitAt s.out s.cfg.dataOutBit <;> cases relBit s.cfg <;> rfl

theorem change_drove (s : State) (l : Line) (x : Bool) :
    Drove s (rmwOut (outBit s.cfg l) x s) [driveNow (rmwOut (outBit s.cfg l) x s)] := by
  have hc : (rmwOut (outBit s.cfg l) x s).cfg = s.cfg := by simp
  have hd : (rmwOut (outBit s.cfg l) x s).ddr = s.ddr := by simp
  refine ⟨hc, hd, _, by rw [rmwOut_eq], rfl, ?_⟩
  intro ho
  have ho' : LinesAreOutputs (rmwOut (outBit s.cfg l) x s) := by
    simpa [LinesAreOutputs, isOutput, hc, hd] using ho
  rw [← driveOf_out ho', hc]
  rw [rmwOut_eq]
  simp [portWritesTo]

/-- A line change sets the drive of its line and leaves the other's alone. -/
theorem engineLow_change (s : State) (hw : s.cfg.wellFormed = true) (l l' : Line) (x : Bool) :
    engineLow (rmwOut (outBit s.cfg l) x s) l' =
      if l' = l then isOutput s (outBit s.cfg l) && x == !relBit s.cfg else engineLow s l' := by
  have hc : (rmwOut (outBit s.cfg l) x s).cfg = s.cfg := by simp
  have hd : (rmwOut (outBit s.cfg l) x s).ddr = s.ddr := by simp
  have hi : ∀ k, isOutput (rmwOut (outBit s.cfg l) x s) k = isOutput s k := by
    intro k; simp only [isOutput, hc, hd]
  unfold engineLow
  rw [hi, hc]
  split
  · next h => rw [h, bitAt_rmwOut_same]
  · next h =>
    by_cases ho : isOutput s (outBit s.cfg l') = true
    · rw [bitAt_rmwOut_other s _ x (outBit_injective hw h) ho (fun hp => Cfg.outBit_ne_inBits hw l' hp)]
    · simp [ho]

theorem engineLow_releaseLine (s : State) (hw : s.cfg.wellFormed = true) (l l' : Line) :
    engineLow (releaseLine l s) l' = if l' = l then false else engineLow s l' := by
  rw [releaseLine, engineLow_change s hw]
  cases relBit s.cfg <;> simp

theorem engineLow_driveLineLow (s : State) (hw : s.cfg.wellFormed = true) (l l' : Line) :
    engineLow (driveLineLow l s) l' = if l' = l then isOutput s (outBit s.cfg l) else engineLow s l' := by
  rw [driveLineLow, engineLow_change s hw]
  cases relBit s.cfg <;> simp

theorem engineLow_setData (s : State) (hw : s.cfg.wellFormed = true) (v : Bool) (l : Line) :
    engineLow (setData v s) l =
      if l = .data then isOutput s s.cfg.dataOutBit && !v else engineLow s l := by
  cases v
  · simpa [setData, outBit] using engineLow_driveLineLow s hw .data l
  · simpa [setData] using engineLow_releaseLine s hw .data l

theorem releaseLine_drove (s : State) (l : Line) : Drove s (releaseLine l s) [driveNow (releaseLine l s)] :=
  change_drove s l _

theorem driveLineLow_drove (s : State) (l : Line) : Drove s (driveLineLow l s) [driveNow (driveLineLow l s)] :=
  change_drove s l _

theorem setData_drove (s : State) (v : Bool) : Drove s (setData v s) [driveNow (setData v s)] := by
  cases v
  · exact driveLineLow_drove s .data
  · exact releaseLine_drove s .data

/-- The last event of a run is a write of the output port. -/
def EndsInWrite (s t : State) : Prop :=
  ∃ evs v, t.history = s.history ++ (evs ++ [.portWrite s.cfg.portOutAddr v])

theorem EndsInWrite.after {s t u : State} {ds : List Drive} (h : EndsInWrite t u) (h' : Drove s t ds) :
    EndsInWrite s u := by
  obtain ⟨evs, v, h1⟩ := h
  obtain ⟨evs', h2, -⟩ := h'.events
  exact ⟨evs' ++ evs, v, by rw [h1, h2, h'.cfg]; simp⟩

theorem driveLineLow_endsInWrite (l : Line) (s : State) : EndsInWrite s (driveLineLow l s) :=
  ⟨[.portRead s.cfg.portOutAddr (portRead s.cfg.portOutAddr s).1],
    putBit (portRead s.cfg.portOutAddr s).1 (outBit s.cfg l) (!relBit s.cfg),
    congrArg State.history (rmwOut_eq s (outBit s.cfg l) (!relBit s.cfg))⟩

/-! ### Samples -/

theorem readLine_drove (s : State) (l : Line) : Drove s (readLine l s).2 [] := by
  rw [readLine_snd]
  refine ⟨?_, ?_, _, by rw [portReadBits_snd], rfl, fun _ => rfl⟩ <;> rw [portReadBits_snd]

@[simp] theorem readLine_out (s : State) (l : Line) : (readLine l s).2.out = s.out := by
  rw [readLine_snd, portReadBits_snd]

/-- A sample of a line that the environment answers. -/
theorem readLine_of_answer (s : State) (hw : s.cfg.wellFormed = true) (l : Line) {e : EnvSample}
    {rest : List EnvSample} (h : s.env = e :: rest) :
    (readLine l s).1 = (!engineLow s l && !e.low l) := by
  rw [readLine_fst s l (Cfg.inBits_ne hw), askEnv_fst_of_cons s h, level]
  cases Machine.engineLow s l <;> rfl

/-- A sample changes the history, the answers and the draws, and nothing else (R57). -/
theorem readLine_eq (s : State) (l : Line) {e : EnvSample} {rest : List EnvSample} (h : s.env = e :: rest) :
    (readLine l s).2 = { s with
      history := s.history ++ [.portRead s.cfg.portInAddr (byteOfBits (portReadBits s.cfg.portInAddr s).1)]
      env := rest
      draws := (readLine l s).2.draws } := by
  rw [readLine_snd, portReadBits_snd]; simp [h]

/-- Polls that read CLOCK low: the wait goes on with as many fewer (R120). -/
theorem pollClock_low (lows : List EnvSample) (s : State) (n : Nat) (rest : List EnvSample)
    (hw : s.cfg.wellFormed = true) (hc : engineLow s .clock = false) (hl : ∀ x ∈ lows, x.clockLow = true)
    (he : s.env = lows ++ rest) :
    ∃ t, pollClock (lows.length + n) s = pollClock n t ∧
      (∃ evs, t.history = s.history ++ evs ∧ portAccesses evs = lows.length) ∧ t.out = s.out ∧
      t = { s with history := t.history, env := rest, draws := t.draws } := by
  induction lows generalizing s n with
  | nil => exact ⟨s, by simp, ⟨[], by simp⟩, rfl, by rw [← show s.env = rest from he]⟩
  | cons x xs ih =>
    have hr := readLine_of_answer s hw .clock (e := x) (rest := xs ++ rest) he
    have hs := readLine_eq s .clock (e := x) (rest := xs ++ rest) he
    simp only [EnvSample.low, hl x (by simp)] at hr
    obtain ⟨t, h1, ⟨evs, h2, h2'⟩, ho, h3⟩ := ih (readLine .clock s).2 n (by rw [hs]; exact hw) (by rw [hs]; exact hc)
      (fun y hy => hl y (by simp [hy])) (by rw [hs])
    refine ⟨t, ?_, ⟨.portRead s.cfg.portInAddr (byteOfBits (portReadBits s.cfg.portInAddr s).1) :: evs, ?_, ?_⟩, ?_, ?_⟩
    · rw [← h1, show (x :: xs).length + n = (xs.length + n) + 1 by simp only [List.length_cons]; omega, pollClock]
      simp [hr]
    · rw [h2, hs]; simp
    · rw [portAccesses, List.countP_cons, ← portAccesses, h2']; rfl
    · rw [ho, readLine_out]
    · rw [h3, hs]

theorem sharedSamples_le (cfg : Cfg) (n : Nat) : sharedSamples cfg n ≤ n := by
  unfold sharedSamples; split <;> omega

theorem sharedSamples_add (cfg : Cfg) (m n : Nat) :
    sharedSamples cfg m + sharedSamples cfg n = sharedSamples cfg (m + n) := by
  unfold sharedSamples
  split <;> simp

theorem pollsWhenFree_le (cfg : Cfg) : pollsWhenFree cfg ≤ 1 := by
  unfold pollsWhenFree; split <;> omega

/-! ### Bits as drives -/

@[simp] theorem bitsDrives_nil (c : Bool) : bitsDrives c [] = [] := rfl

theorem bitsDrives_append (c : Bool) (xs ys : List Bool) :
    bitsDrives c (xs ++ ys) = bitsDrives c xs ++ bitsDrives (if xs = [] then c else false) ys := by
  induction xs generalizing c with
  | nil => rfl
  | cons x xs ih =>
    simp only [List.cons_append, bitsDrives, List.append_assoc, ih, reduceCtorEq, if_false, ite_self]

/-- The drive that bits leave: CLOCK low, DATA at the last bit. -/
theorem bitsDrives_getLastD (c v : Bool) (vs : List Bool) (d : Drive) :
    (bitsDrives c (v :: vs)).getLastD d = ⟨false, (v :: vs).getLastD v⟩ := by
  induction vs generalizing c v d with
  | nil => rfl
  | cons w ws ih =>
    have h := ih false w ⟨false, v⟩
    simp only [bitsDrives, bitDrives, List.cons_append, List.nil_append, List.getLastD_cons] at h ⊢
    rw [h]

/-- Bits after a low CLOCK are the bits clocked onto the bus. -/
theorem clockedBits_bitsDrives (d : Bool) (vs : List Bool) : clockedBits ⟨false, d⟩ (bitsDrives false vs) = vs := by
  induction vs generalizing d with
  | nil => rfl
  | cons v vs ih => simp [bitsDrives, bitDrives, clockedBits, ih]

/-- Bits after a low CLOCK make no condition on the wire. -/
theorem wireConditions_bitsDrives (d : Bool) (vs : List Bool) :
    wireConditions ⟨false, d⟩ (bitsDrives false vs) = [] := by
  induction vs generalizing d with
  | nil => rfl
  | cons v vs ih => simp [bitsDrives, bitDrives, wireConditions, ih]

end Sys2Proof.Machine
end

