-- ==== Sys2Proof/Laws/Accesses.lean ====
section
/-! SUPPORT. How many port accesses each procedure makes at most, whatever the environment does, the cleanup of a condition
included (70_reset_and_hazards.md R244). -/
namespace Sys2Proof.Machine

/-- `t` is `s` after at most `n` port accesses. -/
def AtMost (s t : State) (n : Nat) : Prop := t.cfg = s.cfg ∧ ∃ evs, t.history = s.history ++ evs ∧ portAccesses evs ≤ n

theorem AtMost.trans {s t u n m} (h : AtMost s t n) (g : AtMost t u m) : AtMost s u (n+m) := by
  obtain ⟨c, e, h1, h2⟩ := h
  obtain ⟨c', e', h1', h2'⟩ := g
  exact ⟨c'.trans c, e ++ e', by rw [h1', h1, List.append_assoc], by rw [portAccesses_append]; omega⟩

theorem AtMost.mono {s t n m} (h : AtMost s t n) (hn : n ≤ m) : AtMost s t m := ⟨h.1, let ⟨e, a, b⟩ :=
    h.2; ⟨e, a, b.trans hn⟩⟩

theorem AtMost.zero {s t : State} (h : t.cfg = s.cfg) (hh : t.history = s.history) : AtMost s t 0 :=
    ⟨h, [], by simp [hh], by simp⟩

theorem rmwOut_atMost (s k x) : AtMost s (rmwOut k x s) 2 :=
    ⟨by simp, _, by rw [rmwOut_eq], by simp only [portAccesses, List.countP_cons, Event.isPort]; simp⟩

theorem portReadBits_atMost (s a) : AtMost s (portReadBits a s).2 1 := by
  rw [portReadBits_snd]; exact ⟨rfl, _, rfl, by simp [portAccesses, Event.isPort]⟩

/-- The port accesses of the cleanup of a bus condition (60_exceptions.md R203, R204). -/
def cleanupAccesses (c : BusCondition) : Nat := match c with | .arbLost => 0 | .busTimeout => 2
/-- `p` run on `s` makes at most `n` port accesses, with those of the cleanup where a bus condition ends it. -/
def Takes {α} (p : Proc α) (s : State) (n : Nat) : Prop := Wp p s (fun _ t => AtMost s t n) (fun c t =>
    ∃ k, k + cleanupAccesses c ≤ n ∧ AtMost s t k)

theorem Takes.bind {α β} {p : Proc α} {f : α → Proc β} {s : State} {n m : Nat} (h : Takes p s n) (g : ∀ a t, t.cfg = s.cfg →
    Takes (f a) t m) : Takes (p >>= f) s (n+m) := by
  refine Wp.bind (Wp.imp h (fun a t ht => ?_) (fun c t ht => ?_))
  · exact (g a t ht.1).imp (fun _ u hu => ht.trans hu) (fun c u ⟨k, h1, h2⟩ => ⟨n + k, by omega, ht.trans h2⟩)
  · obtain ⟨k, h1, h2⟩ := ht
    exact ⟨k, by omega, h2⟩

theorem Takes.mono {α} {p : Proc α} {s n m} (h : Takes p s n) (hn : n ≤ m) : Takes p s m :=
  Wp.imp h (fun _ _ h => h.mono hn) (fun _ _ ⟨k, h1, h2⟩ => ⟨k, by omega, h2⟩)

theorem Takes.pure {α} (a : α) (s) : Takes (pure a) s 0 := AtMost.zero rfl rfl

theorem takes_modify (f : State → State) (s n) (h : AtMost s (f s) n) : Takes (modify f) s n := h

theorem takes_modifyGet {α} (f : State → α × State) (s n) (h : AtMost s (f s).2 n) : Takes (modifyGet f) s n := h

theorem takes_get (s) : Takes get s 0 := AtMost.zero rfl rfl

theorem takes_onlyIf (c p s n) (h : Takes p s n) : Takes (onlyIf c p) s n :=
    by cases c; exact (Takes.pure () s).mono (by omega); exact h

/-- The same with one bound for a normal end and one for an end by a bus condition. -/
def TakesOr {α} (p : Proc α) (s : State) (n m : Nat) : Prop := Wp p s (fun _ t => AtMost s t n) (fun c t =>
    ∃ k, k + cleanupAccesses c ≤ m ∧ AtMost s t k)

theorem pollClock_takes (n s) : TakesOr (pollClock n) s n (n + 2) := by
  induction n generalizing s with
  | zero => exact ⟨0, by simp [cleanupAccesses], AtMost.zero rfl rfl⟩
  | succ n ih =>
    refine Wp.modifyGet_bind ?_
    have hc : AtMost s (readLine .clock s).2 1 := portReadBits_atMost s _
    cases (readLine .clock s).1
    · refine (ih _).imp (fun _ _ h => (hc.trans h).mono (by omega)) (fun c _ ⟨k,h1,h2⟩ => ?_)
      exact ⟨1+k, by omega, hc.trans h2⟩
    · exact hc.mono (by omega)

theorem stretchWait_takes (s) : TakesOr stretchWait s (pollBound s.cfg) (pollBound s.cfg + 2) := by
  refine Wp.get_bind ?_
  unfold pollBound
  cases hs : s.cfg.stretch with
  | none => exact (AtMost.zero rfl rfl).mono (by omega)
  | wait n => exact pollClock_takes _ s

theorem TakesOr.bind {α β} {p : Proc α} {f : α → Proc β} {s : State} {n m k: Nat} (h : TakesOr p s n k) (hk : k ≤ n + m)
    (g : ∀ a t, t.cfg = s.cfg → Takes (f a) t m) : Takes (p >>= f) s (n+m) := by
  refine Wp.bind (Wp.imp h (fun a t ht => ?_) (fun c t ht => ?_))
  · exact (g a t ht.1).imp (fun _ u hu => ht.trans hu) (fun c u ⟨k, h1, h2⟩ => ⟨n + k, by omega, ht.trans h2⟩)
  · obtain ⟨k, h1, h2⟩ := ht
    exact ⟨k, by omega, h2⟩

theorem arbCheck_takes (s) : Takes arbCheck s 1 := by
  refine (Takes.bind (n := 0) (takes_get s) (m := 1) fun a t _ => takes_onlyIf _ _ _ _ ?_).mono (by omega)
  refine (Takes.bind (n := 1) (m := 0) (takes_modifyGet _ t 1 (portReadBits_atMost t _)) fun a t _ => ?_)
  cases a
  · exact ⟨0, by simp [cleanupAccesses], AtMost.zero rfl rfl⟩
  · exact Takes.pure _ _

theorem writeBit_takes (v s) : Takes (writeBit v) s (7 + pollBound s.cfg) := by
  have : Takes (writeBit v) s (2 + (2 + (pollBound s.cfg + (1 + 2)))) := by
    refine Takes.bind (takes_modify _ _ _ (by cases v <;> exact rmwOut_atMost _ _ _)) fun _ s1 h1 => ?_
    refine Takes.bind (takes_modify _ _ _ (rmwOut_atMost _ _ _)) fun _ s2 h2 => ?_
    have e : s2.cfg = s.cfg := h2.trans h1
    refine TakesOr.bind (k := pollBound s.cfg + 2) (by rw [← e]; exact stretchWait_takes s2) (by omega) fun _ s3 h3 => ?_
    refine Takes.bind (takes_onlyIf _ _ _ _ (arbCheck_takes _)) fun _ s4 h4 => ?_
    exact takes_modify _ _ _ (rmwOut_atMost _ _ _)
  exact this.mono (by omega)

theorem readBit_takes (s) : Takes readBit s (7 + pollBound s.cfg) := by
  have : Takes readBit s (2 + (2 + (pollBound s.cfg + (1 + (2 + 0))))) := by
    refine Takes.bind (takes_modify _ _ _ (rmwOut_atMost _ _ _)) fun _ s1 h1 => ?_
    refine Takes.bind (takes_modify _ _ _ (rmwOut_atMost _ _ _)) fun _ s2 h2 => ?_
    have e : s2.cfg = s.cfg := h2.trans h1
    refine TakesOr.bind (k := pollBound s.cfg + 2) (by rw [← e]; exact stretchWait_takes s2) (by omega) fun _ s3 h3 => ?_
    refine Takes.bind (takes_modifyGet _ _ _ (portReadBits_atMost _ _)) fun _ s4 h4 => ?_
    refine Takes.bind (takes_modify _ _ _ (rmwOut_atMost _ _ _)) fun _ s5 h5 => ?_
    exact Takes.pure _ _
  exact this.mono (by omega)

theorem startCondition_takes (s) : Takes startCondition s (9 + pollBound s.cfg) := by
  have : Takes startCondition s (0 + ((4 + pollBound s.cfg) + (1 + (2 + (2 + 0))))) := by
    refine Takes.bind (takes_get s) fun a s0 h0 => ?_
    rw [← h0]
    have hr : TakesOr (onlyIf a.started reopenLines) s0 (4 + pollBound s0.cfg) (6 + pollBound s0.cfg) := by
      cases a.started
      · exact (AtMost.zero rfl rfl).mono (by omega)
      · have h1 := rmwOut_atMost s0 (outBit s0.cfg .data) (relBit s0.cfg)
        refine Wp.modify_bind (Wp.modify_bind ?_)
        have h2 := rmwOut_atMost (releaseLine .data s0) (outBit (releaseLine .data s0).cfg .clock)
            (relBit (releaseLine .data s0).cfg)
        have h12 := h1.trans h2
        have hs := stretchWait_takes (releaseLine .clock (releaseLine .data s0))
        have e : (releaseLine .clock (releaseLine .data s0)).cfg = s0.cfg := h12.1
        rw [e] at hs
        exact Wp.imp hs (fun _ _ h => h12.trans h) (fun _ _ ⟨k,a,b⟩ => ⟨_, by omega, h12.trans b⟩)
    refine TakesOr.bind hr (by omega) fun _ s1 h1 => ?_
    refine Takes.bind (arbCheck_takes _) fun _ s2 h2 => ?_
    refine Takes.bind (takes_modify _ _ _ (rmwOut_atMost _ _ _)) fun _ s5 h5 => ?_
    refine Takes.bind (takes_modify _ _ _ (rmwOut_atMost _ _ _)) fun _ s5 h5 => ?_
    exact AtMost.zero rfl rfl
  exact this.mono (by omega)

theorem stopCondition_takes (s) : Takes stopCondition s (7 + pollBound s.cfg) := by
  have : Takes stopCondition s (2 + (2 + (pollBound s.cfg + (2 + (1 + 0))))) := by
    refine Takes.bind (takes_modify _ _ _ (rmwOut_atMost _ _ _)) fun _ s1 h1 => ?_
    refine Takes.bind (takes_modify _ _ _ (rmwOut_atMost _ _ _)) fun _ s2 h2 => ?_
    have e : s2.cfg = s.cfg := h2.trans h1
    refine TakesOr.bind (k := pollBound s.cfg + 2) (by rw [← e]; exact stretchWait_takes s2) (by omega) fun _ s3 h3 => ?_
    refine Takes.bind (takes_modify _ _ _ (rmwOut_atMost _ _ _)) fun _ s5 h5 => ?_
    refine Takes.bind (arbCheck_takes _) fun _ s4 h4 => ?_
    refine takes_modify _ _ _ (AtMost.zero ?_ ?_) <;> (unfold closeTransaction; split <;> rfl)
  exact this.mono (by omega)

theorem sendBits_takes (n s) : Takes (sendBits n) s (n * (7 + pollBound s.cfg)) := by
  induction n generalizing s with
  | zero => exact (Takes.pure () s).mono (by omega)
  | succ n ih =>
    refine (Takes.bind (n := 0) (m := (7 + pollBound s.cfg) + (0 + n * (7 + pollBound s.cfg))) (takes_get s) fun a s0 h0 =>
        ?_).mono (by rw [Nat.succ_mul]; omega)
    refine Takes.bind (by rw [← h0]; exact writeBit_takes _ _) fun _ s1 h1 => ?_
    refine Takes.bind (n := 0) (takes_modify _ _ _ (AtMost.zero rfl rfl)) fun _ s2 h2 => ?_
    rw [← h0, ← h1, ← h2]; exact ih s2

theorem receiveBits_takes (n s) : Takes (receiveBits n) s (n * (7 + pollBound s.cfg)) := by
  induction n generalizing s with
  | zero => exact (Takes.pure () s).mono (by omega)
  | succ n ih =>
    refine (Takes.bind (n := (7 + pollBound s.cfg)) (m := (0 + n * (7 + pollBound s.cfg))) (readBit_takes _) fun a s1 h1 =>
        ?_).mono (by rw [Nat.succ_mul]; omega)
    refine Takes.bind (n := 0) (takes_modify _ _ _ (AtMost.zero rfl rfl)) fun _ s2 h2 => ?_
    rw [← h1, ← h2]; exact ih s2

theorem writeByte_takes (b s) : Takes (writeByte b) s (9 * (7 + pollBound s.cfg)) := by
  refine (Takes.bind (n := 0) (m := 8 * (7 + pollBound s.cfg) + (7 + pollBound s.cfg)) (takes_modify _ _ _ (AtMost.zero rfl
      rfl)) fun _ s1 h1 => ?_).mono (by omega)
  rw [← h1]
  refine Takes.bind (sendBits_takes _ _) fun _ s2 h2 => ?_
  rw [← h2]; exact readBit_takes _

theorem readByte_takes (b s) : Takes (readByte b) s (9 * (7 + pollBound s.cfg)) := by
  refine (Takes.bind (n := 0) (m := 8 * (7 + pollBound s.cfg) + ((7 + pollBound s.cfg) + (0 + 0))) (takes_modify _ _ _
      (AtMost.zero rfl rfl)) fun _ s1 h1 => ?_).mono (by omega)
  rw [← h1]
  refine Takes.bind (receiveBits_takes _ _) fun _ s2 h2 => ?_
  rw [← h2]
  refine Takes.bind (writeBit_takes _ _) fun _ s3 h3 => ?_
  exact Takes.bind (takes_get _) fun _ _ _ => Takes.pure _ _

theorem sendBytes_takes (buf n s) : Takes (sendBytes buf n) s (n * 9 * (7 + pollBound s.cfg)) := by
  induction n generalizing s with
  | zero => exact (Takes.pure () s).mono (by omega)
  | succ n ih =>
    refine (Takes.bind (n := 0) (m := 0 + (9 * (7 + pollBound s.cfg) + (0 + (0 + n * 9 * (7 + pollBound s.cfg)))))
        (takes_get s) fun a s0 h0 => ?_).mono
        (by have e : (n+1)*9*(7 + pollBound s.cfg) = n*9*(7 + pollBound s.cfg) + 9*(7 + pollBound s.cfg) := (by ring); rw [e]; omega)
    rw [← h0]
    refine Takes.bind (takes_modifyGet _ _ _ ⟨rfl, [_], rfl, by simp [portAccesses, Event.isPort]⟩) fun _ s2 h2 => ?_
    rw [← h2]
    refine Takes.bind (writeByte_takes _ _) fun _ s3 h3 => ?_
    rw [← h3]
    refine Takes.bind (takes_modify _ _ _ (AtMost.zero rfl rfl)) fun _ s4 h4 => ?_
    refine Takes.bind (takes_modify _ _ _ (AtMost.zero rfl rfl)) fun _ s5 h5 => ?_
    rw [← h4, ← h5]; exact ih s5

theorem receiveBytes_takes (buf len r n s) : Takes (receiveBytes buf len r n) s (n * 9 * (7 + pollBound s.cfg)) := by
  induction n generalizing s r with
  | zero => exact (Takes.pure r s).mono (by omega)
  | succ n ih =>
    refine (Takes.bind (n := 0) (m := (9 * (7 + pollBound s.cfg) + (0 + (0 + n * 9 * (7 + pollBound s.cfg))))) (takes_get s)
        fun a s0 h0 => ?_).mono (by have e : (n+1)*9*(7 + pollBound s.cfg) = n*9*(7 + pollBound s.cfg) + 9*(7 + pollBound s.cfg) := (by ring); rw [e]; omega)
    rw [← h0]
    refine Takes.bind (readByte_takes _ _) fun _ s3 h3 => ?_
    rw [← h3]
    refine Takes.bind (takes_modify _ _ _ ⟨rfl, [_], rfl, by simp [portAccesses, Event.isPort]⟩) fun _ s4 h4 => ?_
    refine Takes.bind (takes_modify _ _ _ (AtMost.zero rfl rfl)) fun _ s5 h5 => ?_
    rw [← h4, ← h5]; exact ih _ s5

theorem writeBytes_takes (st p buf len s) : Takes (writeBytes st p buf len) s ((9 + pollBound s.cfg) + len.toNat * 9 *
    (7 + pollBound s.cfg) + (7 + pollBound s.cfg)) := by
  have : Takes (writeBytes st p buf len) s (0 + ((9 + pollBound s.cfg) + (0 + (len.toNat * 9 * (7 + pollBound s.cfg) +
      ((7 + pollBound s.cfg) + (0 + 0)))))) := by
    refine Takes.bind (takes_modify _ _ _ (AtMost.zero rfl rfl)) fun _ s1 h1 => ?_
    rw [← h1]
    refine Takes.bind (takes_onlyIf _ _ _ _ (startCondition_takes _)) fun _ s2 h2 => ?_
    refine Takes.bind (takes_modify _ _ _ (AtMost.zero rfl rfl)) fun _ s3 h3 => ?_
    rw [← h2, ← h3]
    refine Takes.bind (sendBytes_takes _ _ _) fun _ s4 h4 => ?_
    rw [← h4]
    refine Takes.bind (takes_onlyIf _ _ _ _ (stopCondition_takes _)) fun _ s5 h5 => ?_
    exact Takes.bind (takes_get _) fun _ _ _ => Takes.pure _ _
  exact this.mono (by omega)

theorem readBytes_takes (p buf len s) : Takes (readBytes p buf len) s (len.toNat * 9 * (7 + pollBound s.cfg) +
    (7 + pollBound s.cfg)) := by
  have : Takes (readBytes p buf len) s (0 + (0 + (len.toNat * 9 * (7 + pollBound s.cfg) + ((7 + pollBound s.cfg) + 0)))) :=
      by
    refine Takes.bind (takes_modifyGet _ _ _ (AtMost.zero rfl rfl)) fun _ s1 h1 => ?_
    refine Takes.bind (takes_modify _ _ _ (AtMost.zero rfl rfl)) fun _ s3 h3 => ?_
    rw [← h1, ← h3]
    refine Takes.bind (receiveBytes_takes _ _ _ _ _) fun _ s4 h4 => ?_
    rw [← h4]
    refine Takes.bind (takes_onlyIf _ _ _ _ (stopCondition_takes _)) fun _ s5 h5 => ?_
    exact Takes.pure _ _
  exact this.mono (by omega)

theorem Takes.pureAfter {α β} {p : Proc α} {f : α → β} {s n} (h : Takes p s n) : Takes (p >>= fun a => Pure.pure (f a)) s
    n :=
  Takes.bind (m := 0) h fun _ _ _ => Takes.pure _ _

theorem procOf_takes (i s) : Takes (procOf i) s (accessBound s.cfg i) := by
  cases i
  case release l => exact Takes.pureAfter (takes_modify _ _ _ (rmwOut_atMost _ _ _))
  case drivelow l => exact Takes.pureAfter (takes_modify _ _ _ (rmwOut_atMost _ _ _))
  case readline l => exact Takes.pureAfter (takes_modifyGet _ _ _ (portReadBits_atMost _ _))
  case wrbit v => exact Takes.pureAfter (writeBit_takes _ _)
  case rdbit => exact Takes.pureAfter (readBit_takes _)
  case start => exact Takes.pureAfter (startCondition_takes _)
  case stop => exact Takes.pureAfter (stopCondition_takes _)
  case wrbyte b => exact Takes.pureAfter (writeByte_takes _ _)
  case rdbyte b => exact readByte_takes _ _
  case wrbytes st p buf len => exact writeBytes_takes ..
  case rdbytes p buf len => exact readBytes_takes ..
  all_goals
    have hl : ∀ a v (s : State), AtMost s (portWrite a v s) 1 := by
      intro a v s; refine ⟨?_, [.portWrite a v], ?_, by simp [portAccesses, Event.isPort]⟩ <;>
      (simp only [portWrite, latchPort]; split <;> (try split) <;> simp)
  case init =>
    exact Takes.pureAfter (takes_modify _ _ _ (((hl _ _ _).trans (hl _ _ _)).trans (AtMost.zero rfl rfl)))
  case reset =>
    exact Takes.pureAfter (takes_modify _ _ _ (((hl _ _ _).trans (hl _ _ _)).trans (AtMost.zero rfl rfl)))

end Sys2Proof.Machine
end

