-- ==== Sys2Proof/Laws/Memory.lean ====
section
/-! SUPPORT. The laws of host memory: reading after writing, and that a write keeps the canonical form. -/
namespace Sys2Proof.Machine

theorem readCell_of_wfAbove {m : Memory} {l a : Nat} (h : Memory.wfAbove (some l) m = true) (ha : a ≤ l) :
    readCell m a = unlistedByte := by
  induction m generalizing l with
  | nil => rfl
  | cons c rest ih =>
    obtain ⟨b, w⟩ := c
    simp only [Memory.wfAbove, Bool.and_eq_true, decide_eq_true_eq] at h
    obtain ⟨⟨⟨h1, -⟩, -⟩, h4⟩ := h
    rw [readCell, if_neg (by omega), ih h4 (by omega)]

theorem wfAbove_mono {m : Memory} {l l' : Nat} (h : Memory.wfAbove (some l) m = true) (hl : l' ≤ l) :
    Memory.wfAbove (some l') m = true := by
  cases m with
  | nil => rfl
  | cons c rest =>
    obtain ⟨b, w⟩ := c
    simp only [Memory.wfAbove, Bool.and_eq_true, decide_eq_true_eq] at h ⊢
    exact ⟨⟨⟨by omega, h.1.1.2⟩, h.1.2⟩, h.2⟩

theorem wf_of_wfAbove {m : Memory} {l : Nat} (h : Memory.wfAbove (some l) m = true) : m.wf = true := by
  cases m with
  | nil => rfl
  | cons c rest =>
    obtain ⟨b, w⟩ := c
    simp only [Memory.wf, Memory.wfAbove, Bool.and_eq_true, decide_eq_true_eq] at h ⊢
    exact ⟨⟨⟨trivial, h.1.1.2⟩, h.1.2⟩, h.2⟩

/-- A byte written is read back. -/
theorem readCell_writeCell_same {m : Memory} (h : m.wf = true) (a : Nat) (v : Byte) :
    readCell (writeCell m a v) a = v := by
  induction m with
  | nil => by_cases hv : v = unlistedByte <;> simp [writeCell, readCell, hv]
  | cons c rest ih =>
    obtain ⟨b, w⟩ := c
    simp only [Memory.wf, Memory.wfAbove, Bool.and_eq_true, decide_eq_true_eq] at h
    have hr := h.2
    simp only [writeCell]
    split
    · next hab =>
      split
      · next hv =>
        rw [readCell, if_neg (by omega), readCell_of_wfAbove hr (by omega), hv]
      · simp [readCell]
    · split
      · next hab =>
        split
        · next hv => rw [readCell_of_wfAbove hr (by omega), hv]
        · simp [readCell]
      · rw [readCell, if_neg (by omega), ih (wf_of_wfAbove hr)]

/-- A write leaves every other byte alone. -/
theorem readCell_writeCell_other {m : Memory} {a b : Nat} (v : Byte) (h : b ≠ a) :
    readCell (writeCell m a v) b = readCell m b := by
  induction m with
  | nil => by_cases hv : v = unlistedByte <;> simp [writeCell, readCell, hv, Ne.symm h]
  | cons c rest ih =>
    obtain ⟨d, w⟩ := c
    simp only [writeCell]
    split
    · split <;> simp [readCell, Ne.symm h]
    · split
      · next hab => subst hab; split <;> simp [readCell, Ne.symm h]
      · simp [readCell, ih]

theorem wfAbove_writeCell {m : Memory} {lo : Option Nat} {a : Nat} (v : Byte)
    (h : Memory.wfAbove lo m = true) (ha : a < 65536) (hlo : ∀ l, lo = some l → l < a) :
    Memory.wfAbove lo (writeCell m a v) = true := by
  induction m generalizing lo with
  | nil =>
    by_cases hv : v = unlistedByte
    · simp [writeCell, hv, Memory.wfAbove]
    · cases lo <;> simp_all [writeCell, Memory.wfAbove]
  | cons c rest ih =>
    obtain ⟨b, w⟩ := c
    have h' := h
    simp only [Memory.wfAbove, Bool.and_eq_true, decide_eq_true_eq] at h
    obtain ⟨⟨⟨h1, h2⟩, h3⟩, h4⟩ := h
    simp only [writeCell]
    split
    · next hab =>
      split
      · exact h'
      · next hv =>
        cases lo with
        | none => simp [Memory.wfAbove, ha, hv, hab, h2, h4, bne_iff_ne.mp h3]
        | some l => simp [Memory.wfAbove, hlo l rfl, ha, hv, hab, h2, h4, bne_iff_ne.mp h3]
    · next hab =>
      split
      · next hab2 =>
        subst hab2
        split
        · cases lo with
          | none => exact wf_of_wfAbove h4
          | some l => exact wfAbove_mono h4 (by have := hlo l rfl; omega)
        · next hv =>
          simp only [Memory.wfAbove, h1, h4, Bool.and_true, Bool.and_eq_true, decide_eq_true_eq, bne_iff_ne]
          exact ⟨⟨trivial, ha⟩, hv⟩
      · next hab2 =>
        simp only [Memory.wfAbove, Bool.and_eq_true, decide_eq_true_eq]
        exact ⟨⟨⟨h1, h2⟩, h3⟩, ih h4 (by intro l hl; cases hl; omega)⟩

/-- A write of a byte at a 16-bit address keeps the canonical form. -/
theorem wf_writeCell {m : Memory} {a : Nat} (v : Byte) (h : m.wf = true) (ha : a < 65536) :
    (writeCell m a v).wf = true :=
  wfAbove_writeCell v h ha (by simp)

end Sys2Proof.Machine
end

