-- ==== Sys2Proof/Laws/Buffer.lean ====
section
/-! SUPPORT. The buffer check (60_exceptions.md R207), the addresses of an admitted buffer, and what storing a whole buffer
leaves in memory. -/
namespace Sys2Proof.Machine

/-- Storing bytes one after the other. -/
def storeAll (m : Memory) (ws : List (Word × Byte)) : Memory := ws.foldl (fun m av => writeCell m av.1.toNat av.2) m

/-- The address of byte i of a buffer that does not wrap. -/
theorem buffer_address {buf len : Word} (h : buf.toNat + len.toNat - 1 ≤ 0xFFFF) {i : Nat} (hi : i < len.toNat) :
    buf + BitVec.ofNat 16 i = BitVec.ofNat 16 (buf.toNat + i) ∧
      (buf + BitVec.ofNat 16 i).toNat = buf.toNat + i := by
  have h1 : (buf + BitVec.ofNat 16 i).toNat = buf.toNat + i := by
    rw [BitVec.toNat_add, BitVec.toNat_ofNat]
    have := buf.isLt
    omega
  refine ⟨BitVec.eq_of_toNat_eq ?_, h1⟩
  rw [h1, BitVec.toNat_ofNat]
  have := buf.isLt
  omega

/-- The check of the model is the predicate of R207. -/
theorem bufferOk_iff (cfg : Cfg) (buf len : Word) : bufferOk cfg buf len = true ↔ BufferOK cfg buf len := by
  have hz : (len == 0#16) = true ↔ len.toNat = 0 := by
    rw [beq_iff_eq]
    constructor
    · intro h; rw [h]; rfl
    · intro h; exact BitVec.eq_of_toNat_eq h
  simp only [bufferOk, BufferOK, Bool.or_eq_true, hz, Bool.and_eq_true, decide_eq_true_eq, List.all_eq_true,
    List.mem_range]
  apply or_congr Iff.rfl
  apply and_congr_right
  intro hb
  apply forall₂_congr
  intro i hi
  rw [(buffer_address hb hi).1]
  simp only [isPortAddr, Bool.not_eq_eq_eq_not, Bool.not_true, Bool.or_eq_false_iff, beq_eq_false_iff_ne, ne_eq, and_assoc]

/-- An admitted buffer that is not empty does not wrap. -/
theorem BufferOK.noWrap {cfg : Cfg} {buf len : Word} (h : BufferOK cfg buf len) (hl : 0 < len.toNat) :
    buf.toNat + len.toNat - 1 ≤ 0xFFFF := by
  rcases h with h | h
  · omega
  · exact h.1

theorem wf_storeAll {m : Memory} (h : m.wf = true) (ws : List (Word × Byte)) : (storeAll m ws).wf = true := by
  induction ws generalizing m with
  | nil => exact h
  | cons w ws ih => exact ih (wf_writeCell _ h w.1.isLt)

theorem storeAll_append (m : Memory) (xs ys : List (Word × Byte)) :
    storeAll m (xs ++ ys) = storeAll (storeAll m xs) ys := List.foldl_append

/-- A byte that none of the stores hits is left alone. -/
theorem readCell_storeAll_other (m : Memory) (ws : List (Word × Byte)) {a : Nat} (h : ∀ w ∈ ws, w.1.toNat ≠ a) :
    readCell (storeAll m ws) a = readCell m a := by
  induction ws generalizing m with
  | nil => rfl
  | cons w ws ih =>
    rw [storeAll, List.foldl_cons, ← storeAll, ih _ fun x hx => h x (List.mem_cons_of_mem _ hx),
      readCell_writeCell_other _ (Ne.symm (h w (by simp)))]

/-- Of stores to different addresses, each is what its address holds after them. -/
theorem readCell_storeAll_same {m : Memory} (hm : m.wf = true) (n : Nat) (addr : Nat → Word) (byte : Nat → Byte)
    (ha : ∀ i < n, ∀ j < n, (addr i).toNat = (addr j).toNat → i = j) {i : Nat} (hi : i < n) :
    readCell (storeAll m ((List.range n).map fun i => (addr i, byte i))) (addr i).toNat = byte i := by
  induction n with
  | zero => omega
  | succ n ih =>
    rw [List.range_succ, List.map_append, storeAll_append]
    simp only [List.map_cons, List.map_nil, storeAll, List.foldl_cons, List.foldl_nil]
    by_cases h : i = n
    · subst h
      exact readCell_writeCell_same (wf_storeAll hm _) _ _
    · rw [readCell_writeCell_other _ (fun he => h (ha i hi n (by omega) he))]
      exact ih (fun a ha' b hb' => ha a (by omega) b (by omega)) (by omega)

end Sys2Proof.Machine
end

