-- ==== Sys2Proof/Laws/BufferOrder.lean ====
section
/-! SUPPORT. Which buffer bytes a transaction touches and in which order, whatever the environment does and wherever it ends
(20_memory.md R55, 43_bus_handle.md R174, 60_exceptions.md R202). -/
namespace Sys2Proof.Machine

/-- Between the states these buffer bytes were read and these were written, in these orders. -/
structure Touched (s t : State) (rd wr : List (Word × Byte)) : Prop where
  ev : ∃ evs, t.history = s.history ++ evs ∧ bufferReads evs = rd ∧ bufferWrites evs = wr
  mem : t.mem = storeAll s.mem wr

theorem Touched.trans {s t u a b a' b'} (h : Touched s t a b) (g : Touched t u a' b') : Touched s u (a++a') (b++b') := by
  obtain ⟨e, h1, h2, h3⟩ := h.ev
  obtain ⟨e', h1', h2', h3'⟩ := g.ev
  refine ⟨⟨e ++ e', by rw [h1', h1, List.append_assoc], by simp [h2, h2'], by simp [h3, h3']⟩, ?_⟩
  rw [g.mem, h.mem, storeAll, storeAll, storeAll, List.foldl_append]

theorem Touched.refl (s) : Touched s s [] [] := ⟨⟨[], by simp, rfl, rfl⟩, rfl⟩
/-- No buffer byte was touched, and IDX is as it was. -/
def Untouched (s t : State) : Prop := Touched s t [] [] ∧ t.idx = s.idx

theorem Untouched.refl (s) : Untouched s s := ⟨Touched.refl s, rfl⟩

theorem Untouched.of_eq {s t : State} (hh : t.history = s.history) (hm : t.mem = s.mem) (hi : t.idx = s.idx) :
    Untouched s t := ⟨⟨⟨[], by simp [hh], rfl, rfl⟩, hm⟩, hi⟩

theorem Untouched.trans {s t u} (h : Untouched s t) (g : Untouched t u) : Untouched s u := ⟨h.1.trans g.1, g.2.trans h.2⟩

theorem Untouched.line {s t} (h : LineRun s t) : Untouched s t := by
  induction h with
  | refl => exact Untouched.refl _
  | tail _ h ih =>
    refine ih.trans ?_
    cases h with
    | sample => rw [portReadBits_snd]; exact ⟨⟨⟨_, rfl, rfl, rfl⟩, rfl⟩, rfl⟩
    | change l x => exact ⟨⟨⟨_, by rw [rmwOut_eq], rfl, rfl⟩, by simp [storeAll]⟩, by simp⟩

theorem AlwaysUntouched.bind {α β} {p : Proc α} {f : α → Proc β} (h : Always Untouched p) (g : ∀ a, Always Untouched
    (f a)) : Always Untouched (p >>= f) := Always.bind (R := Untouched) (fun {_ _ _} h g => Untouched.trans h g) h g

theorem AlwaysUntouched.line {α} {p : Proc α} (h : Always LineRun p) : Always Untouched p := fun s => Untouched.line (h s)

theorem AlwaysUntouched.mod (f : State → State) (h : ∀ s, Untouched s (f s)) : Always Untouched (modify f) := h

theorem AlwaysUntouched.pure {α} (a : α) : Always Untouched (pure a : Proc α) := fun s => Untouched.refl s

theorem sendBits_untouched (n) : Always Untouched (sendBits n) := by
  induction n with
  | zero => exact AlwaysUntouched.pure _
  | succ n ih => exact AlwaysUntouched.bind (fun s => Untouched.refl s) fun s => AlwaysUntouched.bind (AlwaysUntouched.line
      (writeBit_lineRun _)) fun _ => AlwaysUntouched.bind (fun s => .of_eq rfl rfl rfl) fun
      _ => ih

theorem receiveBits_untouched (n) : Always Untouched (receiveBits n) := by
  induction n with
  | zero => exact AlwaysUntouched.pure _
  | succ n ih => exact AlwaysUntouched.bind (AlwaysUntouched.line readBit_lineRun) fun _ => AlwaysUntouched.bind (fun s =>
      .of_eq rfl rfl rfl) fun _ => ih

theorem writeByte_untouched (b) : Always Untouched (writeByte b) := AlwaysUntouched.bind (fun _ =>
    .of_eq rfl rfl rfl) fun _ => AlwaysUntouched.bind (sendBits_untouched _) fun _ =>
    AlwaysUntouched.line readBit_lineRun

theorem readByte_untouched (b) : Always Untouched (readByte b) := AlwaysUntouched.bind (fun s => ⟨Touched.refl s |> fun h =>
    ⟨h.ev, h.mem⟩, rfl⟩) fun _ => AlwaysUntouched.bind (receiveBits_untouched _) fun _ =>
    AlwaysUntouched.bind (AlwaysUntouched.line (writeBit_lineRun _)) fun _ => AlwaysUntouched.bind (fun s =>
    Untouched.refl s) fun _ => AlwaysUntouched.pure _

theorem startCondition_untouched : Always Untouched startCondition :=
  AlwaysUntouched.bind (fun s => Untouched.refl s) fun _ => AlwaysUntouched.bind (Always.onlyIf Untouched.refl
      (AlwaysUntouched.line reopenLines_lineRun) _) fun _ => AlwaysUntouched.bind (AlwaysUntouched.line arbCheck_lineRun)
      fun _ => AlwaysUntouched.bind (fun _ => Untouched.line (driveLineLow_lineRun _ _)) fun _ =>
      AlwaysUntouched.bind (fun _ => Untouched.line (driveLineLow_lineRun _ _)) fun _ => fun _ =>
      .of_eq rfl rfl rfl

theorem stopCondition_untouched : Always Untouched stopCondition :=
  AlwaysUntouched.bind (fun s => Untouched.line (driveLineLow_lineRun _ _)) fun _ => AlwaysUntouched.bind (fun s =>
      Untouched.line (releaseLine_lineRun _ _)) fun _ => AlwaysUntouched.bind (AlwaysUntouched.line stretchWait_lineRun) fun
      _ => AlwaysUntouched.bind (fun s => Untouched.line (releaseLine_lineRun _ _)) fun _ =>
      AlwaysUntouched.bind (AlwaysUntouched.line arbCheck_lineRun) fun _ => fun s => by
    show Untouched s (closeTransaction s); unfold closeTransaction; split
    · exact .of_eq rfl rfl rfl
    · exact Untouched.refl _

theorem wp_of {α} {p : Proc α} (h : Always Untouched p) (s) : Wp p s (fun _ t => Untouched s t) (fun _ t =>
    Untouched s t) := by
  have := h s
  unfold Wp; cases hp : p s <;> rw [hp] at this <;> exact this

/-- The reads of `n` buffer bytes from index `idx` on. -/
def readsFrom (m : Memory) (buf idx : Word) (n : Nat) : List (Word × Byte) := (List.range n).map fun k =>
    (buf + (idx + BitVec.ofNat 16 k), readCell m (buf + (idx + BitVec.ofNat 16 k)).toNat)

theorem readsFrom_succ (m buf idx n) : readsFrom m buf idx (n+1) = (buf + idx, readCell m (buf+idx).toNat) :: readsFrom m
    buf (idx + 1#16) n := by
  unfold readsFrom
  rw [List.range_succ_eq_map, List.map_cons, List.map_map]
  have : ∀ k, idx + BitVec.ofNat 16 (k+1) = idx + 1#16 + BitVec.ofNat 16 k :=
      by intro k; rw [BitVec.ofNat_add, BitVec.add_assoc, BitVec.add_comm (BitVec.ofNat 16 k)]
  refine congrArg₂ List.cons (by simp) (List.map_congr_left fun k _ => ?_)
  simp only [Function.comp_def, Nat.succ_eq_add_one]
  rw [this]

theorem sendBytes_touched (buf n s) : Wp (sendBytes buf n) s (fun _ t => Touched s t (readsFrom s.mem buf s.idx n) [])
    (fun _ t => ∃ k ≤ n, Touched s t (readsFrom s.mem buf s.idx k) []) := by
  induction n generalizing s with
  | zero => exact Touched.refl s
  | succ n ih =>
    refine Wp.get_bind (Wp.modifyGet_bind ?_)
    have h0 : Touched s (memRead (buf + s.idx) s).2 [(buf + s.idx, readCell s.mem (buf+s.idx).toNat)] [] :=
        ⟨⟨[_], rfl, rfl, rfl⟩, rfl⟩
    have i0 : (memRead (buf + s.idx) s).2.idx = s.idx := rfl
    have m0 : (memRead (buf + s.idx) s).2.mem = s.mem := rfl
    revert h0 i0 m0
    generalize (memRead (buf + s.idx) s).2 = r
    generalize (memRead (buf + s.idx) s).1 = b
    intro h0 i0 m0
    refine Wp.bind ((wp_of (writeByte_untouched b) r).imp (fun a u h => ?_) (fun _ u h => ⟨1, by omega, ?_⟩))
    · refine Wp.modify_bind (Wp.modify_bind ?_)
      have hm : u.mem = s.mem := by rw [h.1.mem, m0]; rfl
      have hi : (nextIndex (accumulateNack a u)).idx = s.idx + 1#16 := by show u.idx + 1#16 = _; rw [h.2, i0]
      have hm' : (nextIndex (accumulateNack a u)).mem = s.mem := hm
      have ht : Touched s (nextIndex (accumulateNack a u)) [(buf + s.idx, readCell s.mem (buf+s.idx).toNat)] [] := by
        have := h0.trans h.1
        exact ⟨this.ev, this.mem⟩
      have := ih (nextIndex (accumulateNack a u))
      rw [hi, hm'] at this
      refine this.imp (fun _ t h' => ?_) (fun _ t ⟨k, hk, h'⟩ => ⟨k+1, by omega, ?_⟩)
      · rw [readsFrom_succ]; exact ht.trans h'
      · rw [readsFrom_succ]; exact ht.trans h'
    · rw [readsFrom_succ]; exact h0.trans h.1

/-- The addresses of `n` buffer bytes from index `idx` on. -/
def addressesFrom (buf idx : Word) (n : Nat) : List Word := (List.range n).map fun k => buf + (idx + BitVec.ofNat 16 k)

theorem addressesFrom_succ (buf idx n) : addressesFrom buf idx (n+1) = (buf + idx) :: addressesFrom buf (idx + 1#16) n := by
  unfold addressesFrom
  rw [List.range_succ_eq_map, List.map_cons, List.map_map]
  have : ∀ k, idx + BitVec.ofNat 16 (k+1) = idx + 1#16 + BitVec.ofNat 16 k :=
      by intro k; rw [BitVec.ofNat_add, BitVec.add_assoc, BitVec.add_comm (BitVec.ofNat 16 k)]
  refine congrArg₂ List.cons (by simp) (List.map_congr_left fun k _ => ?_)
  simp only [Function.comp_def, Nat.succ_eq_add_one]
  rw [this]

theorem receiveBytes_touched (buf len r n s) : Wp (receiveBytes buf len r n) s (fun _ t =>
    ∃ w, w.map Prod.fst = addressesFrom buf s.idx n ∧ Touched s t [] w) (fun _ t => ∃ k ≤ n, ∃ w, w.map Prod.fst =
    addressesFrom buf s.idx k ∧ Touched s t [] w) := by
  induction n generalizing s r with
  | zero => exact ⟨[], rfl, Touched.refl s⟩
  | succ n ih =>
    refine Wp.get_bind ?_
    refine Wp.bind ((wp_of (readByte_untouched _) s).imp (fun r' u h => ?_) (fun _ u h => ⟨0, by omega, [], rfl, h.1⟩))
    refine Wp.modify_bind (Wp.modify_bind ?_)
    have ht : Touched s (nextIndex (memWrite (buf + u.idx) r' u)) [] [(buf + s.idx, r')] := by
      have h1 : Touched u (nextIndex (memWrite (buf + u.idx) r' u)) [] [(buf + u.idx, r')] := ⟨⟨[_], rfl, rfl, rfl⟩, rfl⟩
      rw [h.2] at h1
      rw [h.2]
      exact h.1.trans h1
    have hi : (nextIndex (memWrite (buf + u.idx) r' u)).idx = s.idx + 1#16 := by show u.idx + 1#16 = _; rw [h.2]
    have := ih r' (nextIndex (memWrite (buf + u.idx) r' u))
    rw [hi] at this
    refine this.imp (fun _ t ⟨w, h1, h2⟩ => ⟨(buf + s.idx, r') :: w, ?_, ht.trans h2⟩) (fun _ t ⟨k, hk, w, h1, h2⟩ =>
        ⟨k+1, by omega, (buf + s.idx, r') :: w, ?_, ht.trans h2⟩)
    · rw [addressesFrom_succ, ← h1]; rfl
    · rw [addressesFrom_succ, ← h1]; rfl

theorem writeBytes_touched (st p buf len s) : Wp (writeBytes st p buf len) s (fun _ t =>
    Touched s t (readsFrom s.mem buf 0 len.toNat) []) (fun _ t => ∃ k ≤ len.toNat, Touched s t (readsFrom s.mem buf 0 k)
    []) := by
  refine Wp.modify_bind (Wp.bind ?_)
  have h0 : Touched s (clearNack s) [] [] := ⟨(Touched.refl s).ev, (Touched.refl s).mem⟩
  refine (wp_of (Always.onlyIf Untouched.refl startCondition_untouched st) (clearNack s)).imp (fun _ u h =>
      ?_) (fun _ u h => ⟨0, by omega, h0.trans h.1⟩)
  refine Wp.modify_bind (Wp.bind ?_)
  have h1 : Touched s (u.setIdx 0#16) [] [] := by have := h0.trans h.1; exact ⟨this.ev, this.mem⟩
  have m1 : (u.setIdx 0#16).mem = s.mem := h1.mem
  have hs := sendBytes_touched buf len.toNat (u.setIdx 0#16)
  rw [m1] at hs
  refine Wp.imp hs (fun _ v h2 => ?_) (fun _ v ⟨k, hk, h2⟩ => ⟨k, hk, h1.trans h2⟩)
  refine Wp.bind ((wp_of (Always.onlyIf Untouched.refl stopCondition_untouched p) v).imp (fun _ w h3 => ?_) (fun _ w h3 =>
      ⟨len.toNat, le_refl _, ?_⟩))
  · have := (h1.trans h2).trans h3.1
    rw [List.append_nil] at this
    exact this
  · have := (h1.trans h2).trans h3.1
    rw [List.append_nil] at this
    exact this

theorem readBytes_touched (p buf len s) : Wp (readBytes p buf len) s (fun _ t => ∃ w, w.map Prod.fst = addressesFrom buf 0
    len.toNat ∧ Touched s t [] w) (fun _ t => ∃ k ≤ len.toNat, ∃ w, w.map Prod.fst = addressesFrom buf 0 k ∧
    Touched s t [] w) := by
  refine Wp.modifyGet_bind (Wp.modify_bind ?_)
  have h1 : Touched s (State.setIdx (draw8 s).2 0#16) [] [] := ⟨(Touched.refl s).ev, (Touched.refl s).mem⟩
  refine Wp.bind ((receiveBytes_touched buf len _ len.toNat _).imp (fun _ v ⟨w, hw, h2⟩ => ?_) (fun _ v ⟨k, hk, w, hw,
      h2⟩ => ⟨k, hk, w, hw, h1.trans h2⟩))
  refine Wp.bind ((wp_of (Always.onlyIf Untouched.refl stopCondition_untouched p) v).imp (fun _ x h3 => ?_) (fun _ x h3 =>
      ⟨len.toNat, le_refl _, w, hw, ?_⟩))
  · refine ⟨w, hw, ?_⟩
    have := (h1.trans h2).trans h3.1
    simpa using this
  · have := (h1.trans h2).trans h3.1
    simpa using this

theorem Touched.done {s u rd wr c v cmd} (h : Touched s u rd wr) : bufferReads (newEvents s (complete c v cmd u)) = rd ∧
    bufferWrites (newEvents s (complete c v cmd u)) = wr ∧ (complete c v cmd u).mem = storeAll s.mem wr := by
  obtain ⟨e, h1, h2, h3⟩ := h.ev
  rw [newEvents_of_eq (s := s) (t := complete c v cmd u) (evs := e ++ [.done cmd c v])
      (by show u.history ++ [_] = _; rw [h1, List.append_assoc])]
  refine ⟨?_, ?_, h.mem⟩
  · simp [h2]; rfl
  · simp [h3]; rfl

theorem Touched.raise {s u rd wr c cmd} (h : Touched s u rd wr) : bufferReads (newEvents s (raiseCondition c cmd u)) = rd ∧
    bufferWrites (newEvents s (raiseCondition c cmd u)) = wr ∧ (raiseCondition c cmd u).mem = storeAll s.mem wr := by
  have hc : Touched s (draw8 (cleanup c u)).2 rd wr := by
    have : Touched u (draw8 (cleanup c u)).2 [] [] := by
      cases c
      case busTimeout => have := (Untouched.line (releaseLine_lineRun .data u)).1; exact ⟨this.ev, this.mem⟩
      all_goals exact ⟨(Touched.refl u).ev, (Touched.refl u).mem⟩
    simpa using h.trans this
  exact hc.done

theorem readsFrom_zero (m buf n) : readsFrom m buf 0 n = (List.range n).map (fun k => (buf + BitVec.ofNat 16 k,
    readCell m (buf + BitVec.ofNat 16 k).toNat)) := by
  unfold readsFrom; simp

theorem addressesFrom_zero (buf n) : addressesFrom buf 0 n = (List.range n).map (fun k => buf + BitVec.ofNat 16 k) := by
  unfold addressesFrom; simp

end Sys2Proof.Machine
end

