-- ==== Sys2Proof/Laws/Conditions.lean ====
section
/-! SUPPORT. How each procedure can end, whatever the environment does: where it ends normally, the drives it put on the lines and
the state it leaves; where a bus condition ends it, how it leaves the lines (60_exceptions.md R203, R204, R218). -/
namespace Sys2Proof.Machine

/-- Only samples lie between the states: OUT is as it was too. -/
structure Sampled (s t : State) : Prop where
  same : SameButLines s t
  out : t.out = s.out
  drove : Drove s t []

theorem Sampled.refl (s : State) : Sampled s s := ⟨.refl s, rfl, .refl s⟩

theorem Sampled.trans {s t u : State} (h : Sampled s t) (h' : Sampled t u) : Sampled s u :=
  ⟨h.same.trans h'.same, h'.out.trans h.out, h.drove.trans h'.drove⟩

theorem SameButLines.isOutput {s t : State} (h : SameButLines s t) (k : BitIndex) :
    Machine.isOutput t k = Machine.isOutput s k := by simp [Machine.isOutput, h.cfg, h.ddr]

theorem Sampled.engineLow {s t : State} (h : Sampled s t) (l : Line) : Machine.engineLow t l = Machine.engineLow s l := by
  simp [Machine.engineLow, h.same.isOutput, h.same.cfg, h.out]

theorem readLine_sampled (l : Line) (s : State) : Sampled s (readLine l s).2 :=
  ⟨(readLine_lineRun l s).same, readLine_out s l, readLine_drove s l⟩

theorem pollClock_wp (n : Nat) (s : State) :
    Wp (pollClock n) s (fun _ t => Sampled s t) (fun c t => c = .busTimeout ∧ Sampled s t) := by
  induction n generalizing s with
  | zero => exact ⟨rfl, .refl s⟩
  | succ n ih =>
    refine Wp.modifyGet_bind ?_
    cases (readLine .clock s).1
    · exact (ih _).imp (fun _ _ h => (readLine_sampled _ s).trans h) (fun _ _ h => ⟨h.1, (readLine_sampled _ s).trans h.2⟩)
    · exact readLine_sampled _ s

/-- The stretch wait ends normally or by BusTimeout, and then only under WAIT(N) (R120). -/
theorem stretchWait_wp (s : State) :
    Wp stretchWait s (fun _ t => Sampled s t) (fun c t => c = .busTimeout ∧ s.cfg.stretch ≠ .none ∧ Sampled s t) := by
  refine Wp.get_bind ?_
  cases hs : s.cfg.stretch with
  | none => exact .refl s
  | wait n => exact (pollClock_wp _ s).imp (fun _ _ h => h) (fun _ _ h => ⟨h.1, by simp, h.2⟩)

/-- `t` is `s` after one sample of the input port. -/
def OneSample (s t : State) : Prop := ∃ v, t.history = s.history ++ [.portRead s.cfg.portInAddr v]

/-- The arbitration check ends normally or by ArbitrationLost, and then only under ARB_DETECT, at its one sample (R121). -/
theorem arbCheck_wp (s : State) :
    Wp arbCheck s (fun _ t => Sampled s t)
      (fun c t => c = .arbLost ∧ s.cfg.arbDetect = true ∧ Sampled s t ∧ OneSample s t) := by
  refine Wp.get_bind ?_
  cases ha : s.cfg.arbDetect with
  | false => exact .refl s
  | true =>
    refine Wp.modifyGet_bind ?_
    cases (readLine .data s).1
    · refine ⟨rfl, rfl, readLine_sampled _ s, ?_⟩
      rw [readLine_snd, portReadBits_snd]
      exact ⟨_, rfl⟩
    · exact readLine_sampled _ s

/-- How a bus condition leaves the state it was raised in: CLOCK is released, DATA too at an arbitration check, and the
configuration has the feature that raises it. -/
structure Broken (s : State) (c : BusCondition) (t : State) : Prop where
  cfg : t.cfg = s.cfg
  clock : engineLow t .clock = false
  data : c = .arbLost → engineLow t .data = false
  arb : c = .arbLost → s.cfg.arbDetect = true
  wait : c = .busTimeout → s.cfg.stretch ≠ .none

theorem Broken.of {s s' t : State} {c : BusCondition} (h : Broken s' c t) (hc : s'.cfg = s.cfg) : Broken s c t :=
  ⟨h.cfg.trans hc, h.clock, h.data, by rw [← hc]; exact h.arb, by rw [← hc]; exact h.wait⟩

/-- `t` is `s` after one bit that the engine drives as `v`: the drives, CLOCK low and DATA at `v` at the end, whose last access
is the write that drives CLOCK low. -/
structure Pulsed (s : State) (v : Bool) (t : State) : Prop where
  same : SameButLines s t
  clock : engineLow t .clock = isOutput s s.cfg.clkOutBit
  data : engineLow t .data = (isOutput s s.cfg.dataOutBit && !v)
  drove : Drove s t (bitDrives (!engineLow s .clock) v)
  ends : EndsInWrite s t

/-- DATA set up, CLOCK released, samples, CLOCK driven low: one bit (R122, R123). -/
theorem pulsed_of (v : Bool) (s s3 : State) (hw : s.cfg.wellFormed = true)
    (h : Sampled (releaseLine .clock (setData v s)) s3) : Pulsed s v (driveLineLow .clock s3) := by
  have m1 : SameButLines s (setData v s) := (setData_lineRun v s).same
  have w1 : (setData v s).cfg.wellFormed = true := by rw [m1.cfg]; exact hw
  have e1 := engineLow_setData s hw v
  have m2 := m1.trans (releaseLine_lineRun .clock (setData v s)).same
  have e2 := engineLow_releaseLine _ w1 .clock
  have d2 := (setData_drove s v).trans (releaseLine_drove (setData v s) .clock)
  have m3 := m2.trans h.same
  have d3 := d2.trans h.drove
  have e4 := engineLow_driveLineLow s3 (by rw [m3.cfg]; exact hw) .clock
  have hx : ∀ l, engineLow (driveLineLow .clock s3) l =
      if l = .clock then isOutput s s.cfg.clkOutBit else isOutput s s.cfg.dataOutBit && !v := by
    intro l
    rw [e4]
    cases l
    · simp [d3.isOutput, m3.cfg, outBit]
    · simp [h.engineLow, e2, e1]
  refine ⟨m3.trans (driveLineLow_lineRun .clock s3).same, hx .clock, hx .data,
    (d3.trans (driveLineLow_drove s3 .clock)).cast fun ho => ?_, (driveLineLow_endsInWrite _ _).after d3⟩
  rw [driveNow_eq (s := setData v s) (c := !engineLow s .clock) (d := v) (by simp [e1]) (by simp [e1, isOutput_data ho]),
    driveNow_eq (s := releaseLine .clock (setData v s)) (c := true) (d := v) (by simp [e2])
      (by simp [e2, e1, isOutput_data ho]),
    driveNow_eq (s := driveLineLow .clock s3) (c := false) (d := v) (by simp [hx, isOutput_clock ho])
      (by simp [hx, isOutput_data ho])]
  rfl

/-- `WriteBit(v)`: one bit, or a condition ends it; a 0 is never lost to arbitration (R122). -/
theorem writeBit_wp (v : Bool) (s : State) (hw : s.cfg.wellFormed = true) :
    Wp (writeBit v) s (fun _ t => Pulsed s v t)
      (fun c t => Broken s c t ∧ SameButLines s t ∧ (c = .arbLost → v = true)) := by
  refine Wp.modify_bind ?_
  have m1 : SameButLines s (setData v s) := (setData_lineRun v s).same
  have w1 : (setData v s).cfg.wellFormed = true := by rw [m1.cfg]; exact hw
  refine Wp.modify_bind ?_
  have m2 := m1.trans (releaseLine_lineRun .clock (setData v s)).same
  have e2 := engineLow_releaseLine _ w1 .clock
  refine Wp.bind ((stretchWait_wp _).imp (fun _ s3 h3 => ?_) (fun c s3 h3 => ?_))
  · refine Wp.bind ?_
    have harb : Wp (onlyIf v arbCheck) s3 (fun _ t => Sampled s3 t)
        (fun c t => c = .arbLost ∧ v = true ∧ s3.cfg.arbDetect = true ∧ Sampled s3 t) := by
      cases v
      · exact .refl s3
      · exact (arbCheck_wp s3).imp (fun _ _ h => h) (fun _ _ h => ⟨h.1, rfl, h.2.1, h.2.2.1⟩)
    have m3 := m2.trans h3.same
    refine harb.imp (fun _ s4 h4 => pulsed_of v s s4 hw (h3.trans h4)) (fun c s4 h4 => ?_)
    obtain ⟨rfl, rfl, ha, hs⟩ := h4
    refine ⟨⟨(m3.trans hs.same).cfg, ?_, fun _ => ?_, fun _ => ?_, nofun⟩, m3.trans hs.same, fun _ => rfl⟩
    · rw [(h3.trans hs).engineLow, e2, if_pos rfl]
    · rw [(h3.trans hs).engineLow, e2, if_neg (by decide), engineLow_setData s hw]; simp
    · rw [← m3.cfg]; exact ha
  · obtain ⟨rfl, hs, h3⟩ := h3
    refine ⟨⟨(m2.trans h3.same).cfg, ?_, nofun, nofun, fun _ => ?_⟩, m2.trans h3.same, nofun⟩
    · rw [h3.engineLow, e2, if_pos rfl]
    · rw [← m2.cfg]; exact hs

/-- `ReadBit()`: one bit driven as a 1, or BusTimeout ends it (R123). -/
theorem readBit_wp (s : State) (hw : s.cfg.wellFormed = true) :
    Wp readBit s (fun _ t => Pulsed s true t)
      (fun c t => Broken s c t ∧ SameButLines s t ∧ c = .busTimeout) := by
  refine Wp.modify_bind ?_
  have m1 : SameButLines s (releaseLine .data s) := (releaseLine_lineRun .data s).same
  have w1 : (releaseLine .data s).cfg.wellFormed = true := by rw [m1.cfg]; exact hw
  refine Wp.modify_bind ?_
  have m2 := m1.trans (releaseLine_lineRun .clock (releaseLine .data s)).same
  have e2 := engineLow_releaseLine _ w1 .clock
  refine Wp.bind ((stretchWait_wp _).imp (fun _ s3 h3 => ?_) (fun c s3 h3 => ?_))
  · exact pulsed_of true s (readLine .data s3).2 hw (h3.trans (readLine_sampled .data s3))
  · obtain ⟨rfl, hs, h3⟩ := h3
    refine ⟨⟨(m2.trans h3.same).cfg, ?_, nofun, nofun, fun _ => ?_⟩, m2.trans h3.same, rfl⟩
    · rw [h3.engineLow, e2, if_pos rfl]
    · rw [← m2.cfg]; exact hs

/-- `Start()`: it leaves both lines driven low and `started` 1; an arbitration loss leaves the lines released, or is at the
check of a first START, its first access (R141, R203). -/
theorem startCondition_wp (s : State) (hw : s.cfg.wellFormed = true) :
    Wp startCondition s
      (fun _ t => SameButLines (s.setStarted true) t ∧ (∀ l, engineLow t l = isOutput s (outBit s.cfg l)) ∧
        Drove s t (startDrives s) ∧ EndsInWrite s t)
      (fun c t => SameButLines s t ∧ (Broken s c t ∨
        c = .arbLost ∧ s.cfg.arbDetect = true ∧ s.started = false ∧ t.out = s.out ∧ OneSample s t)) := by
  refine Wp.get_bind ?_
  refine Wp.bind ?_
  have hre : Wp (onlyIf s.started reopenLines) s
      (fun _ t => SameButLines s t ∧ (s.started = true → ∀ l, engineLow t l = false) ∧ (s.started = false → t = s) ∧
        Drove s t (if s.started then [⟨!engineLow s .clock, true⟩, ⟨true, true⟩] else []))
      (fun c t => SameButLines s t ∧ Broken s c t) := by
    cases hst : s.started with
    | false => exact ⟨.refl s, nofun, fun _ => rfl, .refl s⟩
    | true =>
      refine Wp.modify_bind ?_
      have m1 : SameButLines s (releaseLine .data s) := (releaseLine_lineRun .data s).same
      have w1 : (releaseLine .data s).cfg.wellFormed = true := by rw [m1.cfg]; exact hw
      have e1 := engineLow_releaseLine s hw .data
      refine Wp.modify_bind ?_
      have m2 := m1.trans (releaseLine_lineRun .clock (releaseLine .data s)).same
      have e2 := engineLow_releaseLine _ w1 .clock
      have d2 := (releaseLine_drove s .data).trans (releaseLine_drove (releaseLine .data s) .clock)
      refine (stretchWait_wp _).imp (fun _ s3 h3 => ⟨m2.trans h3.same, fun _ l => ?_, nofun, (d2.trans h3.drove).cast
        fun ho => ?_⟩) (fun c s3 h3 => ?_)
      · rw [h3.engineLow, e2, e1]; cases l <;> simp
      · rw [driveNow_eq (s := releaseLine .data s) (c := !engineLow s .clock) (d := true) (by simp [e1]) (by simp [e1]),
          driveNow_eq (s := releaseLine .clock (releaseLine .data s)) (c := true) (d := true) (by simp [e2])
            (by simp [e2, e1])]
        rfl
      · obtain ⟨rfl, hs, h3⟩ := h3
        refine ⟨m2.trans h3.same, ⟨(m2.trans h3.same).cfg, ?_, nofun, nofun, fun _ => ?_⟩⟩
        · rw [h3.engineLow, e2, if_pos rfl]
        · rw [← m2.cfg]; exact hs
  refine hre.imp (fun _ s1 h1 => ?_) (fun c s1 h1 => ⟨h1.1, .inl h1.2⟩)
  refine Wp.bind ((arbCheck_wp s1).imp (fun _ s2 h2 => ?_) (fun c s2 h2 => ?_))
  · have m2 := h1.1.trans h2.same
    have w2 : s2.cfg.wellFormed = true := by rw [m2.cfg]; exact hw
    have e3 := engineLow_driveLineLow _ w2 .data
    have m3 := m2.trans (driveLineLow_lineRun .data s2).same
    have w3 : (driveLineLow .data s2).cfg.wellFormed = true := by rw [m3.cfg]; exact hw
    have m4 := m3.trans (driveLineLow_lineRun .clock (driveLineLow .data s2)).same
    have e4 := engineLow_driveLineLow _ w3 .clock
    have d2 := h1.2.2.2.trans h2.drove
    have d4 := (d2.trans (driveLineLow_drove s2 .data)).trans (driveLineLow_drove (driveLineLow .data s2) .clock)
    have hx : ∀ l, engineLow (driveLineLow .clock (driveLineLow .data s2)) l = isOutput s (outBit s.cfg l) := by
      intro l
      rw [e4, e3]
      cases l <;> simp [m3.isOutput, m2.isOutput, m3.cfg, m2.cfg]
    refine ⟨?_, hx, ?_, (driveLineLow_endsInWrite _ _).after (d2.trans (driveLineLow_drove s2 .data))⟩
    · unfold SameButLines at m4 ⊢
      show State.setStarted _ true = _
      rw [m4]; rfl
    · refine (d4.trans (u := (driveLineLow .clock (driveLineLow .data s2)).setStarted true) (ds' := [])
        (.ofEq rfl rfl rfl)).cast fun ho => ?_
      have c2 : engineLow s2 .clock = if s.started then false else engineLow s .clock := by
        rw [h2.engineLow]
        cases hst : s.started with
        | false => rw [h1.2.2.1 hst]; rfl
        | true => rw [h1.2.1 hst]; rfl
      rw [driveNow_eq (s := driveLineLow .data s2) (c := !engineLow s2 .clock) (d := false) (by simp [e3])
          (by simp [e3, m2.isOutput, m2.cfg, outBit, isOutput_data ho]),
        driveNow_eq (s := driveLineLow .clock (driveLineLow .data s2)) (c := false) (d := false)
          (by simp [hx, outBit, isOutput_clock ho]) (by simp [hx, outBit, isOutput_data ho]), c2]
      unfold startDrives
      cases s.started <;> rfl
  · obtain ⟨rfl, ha, hs, ho⟩ := h2
    refine ⟨h1.1.trans hs.same, ?_⟩
    rw [h1.1.cfg] at ha
    cases hst : s.started with
    | false =>
      have := h1.2.2.1 hst
      rw [this] at hs ho
      exact .inr ⟨rfl, ha, rfl, hs.out, ho⟩
    | true =>
      refine .inl ⟨(h1.1.trans hs.same).cfg, ?_, fun _ => ?_, fun _ => ha, nofun⟩
      · rw [hs.engineLow, h1.2.1 hst]
      · rw [hs.engineLow, h1.2.1 hst]

/-- `Stop()`: it leaves both lines released (R142). -/
theorem stopCondition_wp (s : State) (hw : s.cfg.wellFormed = true) :
    Wp stopCondition s
      (fun _ t => SameButLines (s.setStarted (if s.cfg.stopClearsStarted then false else s.started)) t ∧
        (∀ l, engineLow t l = false) ∧ Drove s t (stopDrives (!engineLow s .clock)))
      (fun c t => Broken s c t ∧ SameButLines s t) := by
  refine Wp.modify_bind ?_
  have m1 : SameButLines s (driveLineLow .data s) := (driveLineLow_lineRun .data s).same
  have w1 : (driveLineLow .data s).cfg.wellFormed = true := by rw [m1.cfg]; exact hw
  have e1 := engineLow_driveLineLow s hw .data
  refine Wp.modify_bind ?_
  have m2 := m1.trans (releaseLine_lineRun .clock (driveLineLow .data s)).same
  have e2 := engineLow_releaseLine _ w1 .clock
  have d2 := (driveLineLow_drove s .data).trans (releaseLine_drove (driveLineLow .data s) .clock)
  refine Wp.bind ((stretchWait_wp _).imp (fun _ s3 h3 => ?_) (fun c s3 h3 => ?_))
  · have m3 := m2.trans h3.same
    have w3 : s3.cfg.wellFormed = true := by rw [m3.cfg]; exact hw
    refine Wp.modify_bind ?_
    have m4 := m3.trans (releaseLine_lineRun .data s3).same
    have d4 := (d2.trans h3.drove).trans (releaseLine_drove s3 .data)
    have e4 : ∀ l, engineLow (releaseLine .data s3) l = false := by
      intro l
      rw [engineLow_releaseLine _ w3, h3.engineLow, e2]; cases l <;> simp
    refine Wp.bind ((arbCheck_wp _).imp (fun _ s5 h5 => ?_) (fun c s5 h5 => ?_))
    · have m5 := m4.trans h5.same
      have hc : Drove s5 (closeTransaction s5) [] ∧ ∀ l, engineLow (closeTransaction s5) l = engineLow s5 l := by
        unfold closeTransaction; split
        · exact ⟨.ofEq rfl rfl rfl, fun _ => rfl⟩
        · exact ⟨.refl _, fun _ => rfl⟩
      refine ⟨?_, fun l => ?_, ((d4.trans h5.drove).trans hc.1).cast fun ho => ?_⟩
      · show SameButLines _ (closeTransaction s5)
        unfold closeTransaction
        rw [m5.cfg]
        unfold SameButLines at m5 ⊢
        cases s.cfg.stopClearsStarted <;> (rw [m5]; rfl)
      · show engineLow (closeTransaction s5) l = false
        rw [hc.2, h5.engineLow, e4]
      · rw [driveNow_eq (s := driveLineLow .data s) (c := !engineLow s .clock) (d := false) (by simp [e1])
            (by simp [e1, outBit, isOutput_data ho]),
          driveNow_eq (s := releaseLine .clock (driveLineLow .data s)) (c := true) (d := false) (by simp [e2])
            (by simp [e2, e1, outBit, isOutput_data ho]),
          driveNow_eq (s := releaseLine .data s3) (c := true) (d := true) (by simp [e4]) (by simp [e4])]
        rfl
    · obtain ⟨rfl, ha, hs, -⟩ := h5
      refine ⟨⟨(m4.trans hs.same).cfg, ?_, fun _ => ?_, fun _ => ?_, nofun⟩, m4.trans hs.same⟩
      · rw [hs.engineLow, e4]
      · rw [hs.engineLow, e4]
      · rw [← m4.cfg]; exact ha
  · obtain ⟨rfl, hs, h3⟩ := h3
    refine ⟨⟨(m2.trans h3.same).cfg, ?_, nofun, nofun, fun _ => ?_⟩, m2.trans h3.same⟩
    · rw [h3.engineLow, e2, if_pos rfl]
    · rw [← m2.cfg]; exact hs

/-! ### Bytes -/

/-- Everything but the lines and the working registers of a byte is the same. -/
def SameButByte (s t : State) : Prop := SameButLines ((s.setShift t.shift).setBitcnt t.bitcnt) t

theorem SameButLines.byte {s t : State} (h : SameButLines s t) : SameButByte s t := by
  unfold SameButByte SameButLines at *
  rw [h]; rfl

theorem SameButByte.refl (s : State) : SameButByte s s := rfl

theorem SameButByte.trans {s t u : State} (h : SameButByte s t) (h' : SameButByte t u) : SameButByte s u := by
  unfold SameButByte SameButLines at *
  rw [h', h]; rfl

theorem SameButByte.cfg {s t : State} (h : SameButByte s t) : t.cfg = s.cfg := by rw [h]; rfl
theorem SameButByte.ddr {s t : State} (h : SameButByte s t) : t.ddr = s.ddr := by rw [h]; rfl
theorem SameButByte.started {s t : State} (h : SameButByte s t) : t.started = s.started := by rw [h]; rfl
theorem SameButByte.idx {s t : State} (h : SameButByte s t) : t.idx = s.idx := by rw [h]; rfl
theorem SameButByte.mem {s t : State} (h : SameButByte s t) : t.mem = s.mem := by rw [h]; rfl
theorem SameButByte.isOutput {s t : State} (h : SameButByte s t) (k : BitIndex) :
    Machine.isOutput t k = Machine.isOutput s k := by simp [Machine.isOutput, h.cfg, h.ddr]

/-- `t` is `s` after the bits `vs` were clocked onto the bus: the drives, CLOCK low after the last. -/
structure Clocked (s : State) (vs : List Bool) (t : State) : Prop where
  drove : Drove s t (bitsDrives (!engineLow s .clock) vs)
  clock : vs ≠ [] → engineLow t .clock = isOutput s s.cfg.clkOutBit
  none : vs = [] → t.out = s.out

theorem Clocked.ofDrove {s t : State} (h : Drove s t []) (ho : t.out = s.out) : Clocked s [] t :=
  ⟨h, nofun, fun _ => ho⟩

theorem Pulsed.clocked {s t : State} {v : Bool} (h : Pulsed s v t) : Clocked s [v] t :=
  ⟨h.drove.cast fun _ => by simp [bitsDrives], fun _ => h.clock, nofun⟩

theorem Clocked.trans {s t u : State} {vs ws : List Bool} (h : Clocked s vs t) (h' : Clocked t ws u) :
    Clocked s (vs ++ ws) u := by
  have hc : engineLow t .clock = if vs = [] then engineLow s .clock else isOutput s s.cfg.clkOutBit := by
    split
    · next hv => exact h.drove.engineLow (h.none hv) _
    · next hv => exact h.clock hv
  refine ⟨(h.drove.trans h'.drove).cast fun ho => ?_, fun hn => ?_, fun hn => ?_⟩
  · rw [bitsDrives_append, hc, isOutput_clock ho]
    split <;> rfl
  · by_cases hw : ws = []
    · rw [h'.drove.engineLow (h'.none hw), h.clock (by simpa [hw] using hn)]
    · rw [h'.clock hw, h.drove.isOutput, h.drove.cfg]
  · simp only [List.append_eq_nil_iff] at hn
    rw [h'.none hn.2, h.none hn.1]

theorem countBit_byte (s : State) : SameButByte s (countBit s) := rfl

/-- The bits of SHIFT that `n` passes of the loop of `WriteByte` send. -/
def bitsToSend (s : State) (n : Nat) : List Bool :=
  (List.range n).map fun j => s.shift.getLsbD (7 - (s.bitcnt.toNat + j))

theorem bitsToSend_succ (s t : State) (n : Nat) (hs : t.shift = s.shift) (hb : t.bitcnt.toNat = s.bitcnt.toNat + 1) :
    bitsToSend s (n + 1) = nextBitOut s :: bitsToSend t n := by
  simp only [bitsToSend, List.range_succ_eq_map, List.map_cons, List.map_map, nextBitOut, Nat.add_zero, hs, hb]
  congr 1
  apply List.map_congr_left
  intro j _
  simp only [Function.comp, Nat.succ_eq_add_one]
  congr 2
  omega

theorem succ_bitcnt {n : BitVec 4} {m : Nat} (h : n.toNat + (m + 1) ≤ 8) : (n + 1#4).toNat = n.toNat + 1 := by
  rw [BitVec.toNat_add, BitVec.toNat_ofNat]
  omega

theorem bitsToSend_loaded (b : Byte) (s : State) : bitsToSend (loadShift b s) 8 = msbFirst b := by
  simp [bitsToSend, loadShift, msbFirst, bitAt, List.range_succ]

theorem sendBits_wp (n : Nat) (s : State) (hw : s.cfg.wellFormed = true) (hb : s.bitcnt.toNat + n ≤ 8) :
    Wp (sendBits n) s (fun _ t => SameButByte s t ∧ t.shift = s.shift ∧ t.bitcnt = s.bitcnt + BitVec.ofNat 4 n ∧
        Clocked s (bitsToSend s n) t)
      (fun c t => Broken s c t ∧ SameButByte s t ∧ (c = .arbLost → s.shift ≠ 0x00#8)) := by
  induction n generalizing s with
  | zero => exact ⟨.refl s, rfl, by simp, .ofDrove (.refl s) rfl⟩
  | succ n ih =>
    refine Wp.get_bind ?_
    refine Wp.bind ((writeBit_wp _ s hw).imp (fun _ t h => ?_) (fun c t h => ⟨h.1, h.2.1.byte, fun hc h0 => ?_⟩))
    · refine Wp.modify_bind ?_
      have m : SameButByte s (countBit t) := h.same.byte.trans (countBit_byte t)
      have hsh : (countBit t).shift = s.shift := h.same.shift
      have hbc : (countBit t).bitcnt = s.bitcnt + 1#4 := by rw [← h.same.bitcnt]; rfl
      have hbn : (countBit t).bitcnt.toNat = s.bitcnt.toNat + 1 := by rw [hbc]; exact succ_bitcnt hb
      have hd : Clocked t [] (countBit t) := .ofDrove (.ofEq rfl rfl rfl) rfl
      refine (ih (countBit t) (by rw [m.cfg]; exact hw) (by omega)).imp
        (fun _ u h' => ⟨m.trans h'.1, h'.2.1.trans hsh, ?_, ?_⟩) (fun c u h' => ⟨h'.1.of m.cfg, m.trans h'.2.1, ?_⟩)
      · rw [h'.2.2.1, hbc, BitVec.ofNat_add, BitVec.add_assoc, BitVec.add_comm (BitVec.ofNat 4 n)]
      · rw [bitsToSend_succ s (countBit t) n hsh hbn]
        exact (h.clocked.trans hd).trans h'.2.2.2
      · rw [← hsh]; exact h'.2.2
    · have := h.2.2 hc
      simp [nextBitOut, h0] at this

/-- `WriteByte(b)`: the bits of b, most significant first, and a released acknowledgment bit (R143, R147). -/
theorem writeByte_wp (b : Byte) (s : State) (hw : s.cfg.wellFormed = true) :
    Wp (writeByte b) s
      (fun _ t => SameButLines ((s.setShift b).setBitcnt 8#4) t ∧ engineLow t .clock = isOutput s s.cfg.clkOutBit ∧
        engineLow t .data = false ∧ Clocked s (msbFirst b ++ [true]) t ∧ EndsInWrite s t)
      (fun c t => Broken s c t ∧ SameButByte s t ∧ (c = .arbLost → b ≠ 0x00#8)) := by
  refine Wp.modify_bind ?_
  have m0 : SameButByte s (loadShift b s) := rfl
  have d0 : Clocked s [] (loadShift b s) := .ofDrove (.ofEq rfl rfl rfl) rfl
  refine Wp.bind ((sendBits_wp 8 (loadShift b s) hw (by simp [loadShift])).imp (fun _ t h => ?_)
    (fun c t h => ⟨h.1.of m0.cfg, m0.trans h.2.1, h.2.2⟩))
  have m := m0.trans h.1
  have d := d0.trans h.2.2.2
  rw [bitsToSend_loaded] at d
  refine (readBit_wp t (by rw [m.cfg]; exact hw)).imp (fun _ u h' => ⟨?_, ?_, ?_, d.trans h'.clocked, h'.ends.after d.drove⟩)
    (fun c u h' => ⟨h'.1.of m.cfg, m.trans h'.2.1.byte, by rw [h'.2.2]; nofun⟩)
  · have h1 := h.1
    have hs := h'.same
    unfold SameButByte at h1
    rw [h.2.1, h.2.2.1] at h1
    unfold SameButLines at h1 hs ⊢
    rw [hs, h1]
    rfl
  · rw [h'.clock, m.isOutput, m.cfg]
  · rw [h'.data]; simp

theorem receiveBits_wp (n : Nat) (s : State) (hw : s.cfg.wellFormed = true) :
    Wp (receiveBits n) s (fun _ t => SameButByte s t ∧ t.bitcnt = s.bitcnt + BitVec.ofNat 4 n ∧
        Clocked s (List.replicate n true) t)
      (fun c t => Broken s c t ∧ SameButByte s t ∧ c = .busTimeout) := by
  induction n generalizing s with
  | zero => exact ⟨.refl s, by simp, .ofDrove (.refl s) rfl⟩
  | succ n ih =>
    refine Wp.bind ((readBit_wp s hw).imp (fun x t h => ?_) (fun c t h => ⟨h.1, h.2.1.byte, h.2.2⟩))
    refine Wp.modify_bind ?_
    have m : SameButByte s (countBit (t.setShift (shiftIn t.shift x))) := h.same.byte.trans rfl
    have hd : Clocked t [] (countBit (t.setShift (shiftIn t.shift x))) := .ofDrove (.ofEq rfl rfl rfl) rfl
    have hbc : (countBit (t.setShift (shiftIn t.shift x))).bitcnt = s.bitcnt + 1#4 := by rw [← h.same.bitcnt]; rfl
    refine (ih _ (by rw [m.cfg]; exact hw)).imp (fun _ u h' => ⟨m.trans h'.1, ?_, ?_⟩)
      (fun c u h' => ⟨h'.1.of m.cfg, m.trans h'.2.1, h'.2.2⟩)
    · rw [h'.2.1, hbc, BitVec.ofNat_add, BitVec.add_assoc, BitVec.add_comm (BitVec.ofNat 4 n)]
    · rw [List.replicate_succ]
      exact (h.clocked.trans hd).trans h'.2.2

/-- `ReadByte(last)`: eight released bits and the master's acknowledgment bit (R144, R145). -/
theorem readByte_wp (last : Bool) (s : State) (hw : s.cfg.wellFormed = true) :
    Wp (readByte last) s
      (fun r t => SameButLines ((s.setShift r).setBitcnt 8#4) t ∧ engineLow t .clock = isOutput s s.cfg.clkOutBit ∧
        engineLow t .data = (isOutput s s.cfg.dataOutBit && !last) ∧
        Clocked s (List.replicate 8 true ++ [last]) t ∧ EndsInWrite s t)
      (fun c t => Broken s c t ∧ SameButByte s t ∧ (c = .arbLost → last = true)) := by
  refine Wp.modify_bind ?_
  have m0 : SameButByte s (loadShift 0x00#8 s) := rfl
  have d0 : Clocked s [] (loadShift 0x00#8 s) := .ofDrove (.ofEq rfl rfl rfl) rfl
  refine Wp.bind ((receiveBits_wp 8 (loadShift 0x00#8 s) hw).imp (fun _ t h => ?_)
    (fun c t h => ⟨h.1.of m0.cfg, m0.trans h.2.1, by rw [h.2.2]; nofun⟩))
  have m := m0.trans h.1
  have d := d0.trans h.2.2
  refine Wp.bind ((writeBit_wp last t (by rw [m.cfg]; exact hw)).imp
    (fun _ u h' => ⟨?_, ?_, ?_, d.trans h'.clocked, h'.ends.after d.drove⟩)
    (fun c u h' => ⟨h'.1.of m.cfg, m.trans h'.2.1.byte, h'.2.2⟩))
  · have h1 := h.1
    have hs := h'.same
    have hsh := h'.same.shift
    unfold SameButByte at h1
    rw [h.2.1] at h1
    unfold SameButLines at h1 hs ⊢
    rw [hsh, hs, h1]
    rfl
  · rw [h'.clock, m.isOutput, m.cfg]
  · rw [h'.data, m.isOutput, m.cfg]

/-! ### Transactions -/

/-- Everything but the lines, the working registers and host memory is the same. -/
def SameButLoop (s t : State) : Prop :=
  t = { s with
    shift := t.shift, bitcnt := t.bitcnt, nackacc := t.nackacc, idx := t.idx, mem := t.mem
    out := t.out, history := t.history, env := t.env, draws := t.draws }

theorem SameButLines.loop {s t : State} (h : SameButLines s t) : SameButLoop s t := by
  unfold SameButLines at h
  unfold SameButLoop
  rw [h]

theorem SameButByte.loop {s t : State} (h : SameButByte s t) : SameButLoop s t := by
  unfold SameButByte SameButLines at h
  unfold SameButLoop
  rw [h]; rfl

theorem SameButLoop.refl (s : State) : SameButLoop s s := rfl

theorem SameButLoop.trans {s t u : State} (h : SameButLoop s t) (h' : SameButLoop t u) : SameButLoop s u := by
  unfold SameButLoop at *
  rw [h', h]

theorem SameButLoop.cfg {s t : State} (h : SameButLoop s t) : t.cfg = s.cfg := by rw [h]
theorem SameButLoop.ddr {s t : State} (h : SameButLoop s t) : t.ddr = s.ddr := by rw [h]
theorem SameButLoop.started {s t : State} (h : SameButLoop s t) : t.started = s.started := by rw [h]
theorem SameButLoop.isOutput {s t : State} (h : SameButLoop s t) (k : BitIndex) :
    Machine.isOutput t k = Machine.isOutput s k := by simp [Machine.isOutput, h.cfg, h.ddr]

/-- The bits that a loop over buffer bytes clocks out: each most significant first, then a released acknowledgment bit. -/
def sentBits (rs : List (Word × Byte)) : List Bool := rs.flatMap fun av => msbFirst av.2 ++ [true]

/-- The loop of WRBYTES (R172). -/
theorem sendBytes_wp (buf : Word) (n : Nat) (s : State) (hw : s.cfg.wellFormed = true) :
    Wp (sendBytes buf n) s
      (fun _ t => SameButLoop s t ∧ t.mem = s.mem ∧ t.idx = s.idx + BitVec.ofNat 16 n ∧
        Clocked s (sentBits (readsFrom s.mem buf s.idx n)) t)
      (fun c t => Broken s c t ∧ SameButLoop s t) := by
  induction n generalizing s with
  | zero => exact ⟨.refl s, rfl, by simp, .ofDrove (.refl s) rfl⟩
  | succ n ih =>
    refine Wp.get_bind (Wp.modifyGet_bind ?_)
    obtain ⟨b, hb⟩ : ∃ b, b = readCell s.mem (buf + s.idx).toNat := ⟨_, rfl⟩
    have hb' : (memRead (buf + s.idx) s).1 = b := hb.symm
    obtain ⟨r, hr⟩ : ∃ r, r = (memRead (buf + s.idx) s).2 := ⟨_, rfl⟩
    rw [← hr, hb']
    have m0 : SameButLoop s r := by rw [hr]; rfl
    have mm : r.mem = s.mem := by rw [hr]; rfl
    have mi : r.idx = s.idx := by rw [hr]; rfl
    have d0 : Clocked s [] r := by rw [hr]; exact .ofDrove ⟨rfl, rfl, [_], rfl, rfl, fun _ => rfl⟩ rfl
    refine Wp.bind ((writeByte_wp b r (by rw [m0.cfg]; exact hw)).imp (fun x u h => ?_)
      (fun c u h => ⟨h.1.of m0.cfg, m0.trans h.2.1.loop⟩))
    refine Wp.modify_bind (Wp.modify_bind ?_)
    obtain ⟨w, hwe⟩ : ∃ w, w = nextIndex (accumulateNack x u) := ⟨_, rfl⟩
    rw [← hwe]
    have d1 : Clocked u [] w := by rw [hwe]; exact .ofDrove (.ofEq rfl rfl rfl) rfl
    have hu : u.mem = s.mem ∧ u.idx = s.idx ∧ SameButLoop r u := by
      have hs := h.1
      unfold SameButLines at hs
      refine ⟨?_, ?_, ?_⟩
      · rw [hs, ← mm]; rfl
      · rw [hs, ← mi]; rfl
      · unfold SameButLoop; rw [hs]; rfl
    have m2 : SameButLoop s w := (m0.trans hu.2.2).trans (by rw [hwe]; rfl)
    have hm : w.mem = s.mem := by rw [hwe]; exact hu.1
    have hi : w.idx = s.idx + 1#16 := by rw [hwe, ← hu.2.1]; rfl
    have d2 := (d0.trans h.2.2.2.1).trans d1
    refine (ih w (by rw [m2.cfg]; exact hw)).imp (fun _ t h' => ⟨m2.trans h'.1, h'.2.1.trans hm, ?_, ?_⟩)
      (fun c t h' => ⟨h'.1.of m2.cfg, m2.trans h'.2⟩)
    · rw [h'.2.2.1, hi, BitVec.ofNat_add, BitVec.add_assoc, BitVec.add_comm (BitVec.ofNat 16 n)]
    · have := d2.trans h'.2.2.2
      rw [readsFrom_succ, sentBits, List.flatMap_cons, ← sentBits, ← hb, ← hi, ← hm]
      simpa using this

/-- The bits of the bytes of a read of `n` bytes as the engine drives DATA: released for the data, then ACK, and NACK on the
last (R145). -/
def readBitsDriven (n : Nat) : List Bool :=
  (List.range n).flatMap fun i => List.replicate 8 true ++ [decide (i + 1 = n)]

theorem readBitsDriven_succ (n : Nat) :
    readBitsDriven (n + 1) = List.replicate 8 true ++ [decide (n = 0)] ++ readBitsDriven n := by
  simp only [readBitsDriven, List.range_succ_eq_map, List.flatMap_cons, List.flatMap_map]
  congr 1
  · simp
  · simp

/-- In the loop of RDBYTES, IDX is the last index when one byte is left. -/
theorem idx_last {x len : Word} {n : Nat} (h : x.toNat + (n + 1) = len.toNat) :
    (x == len - 1#16) = decide (n = 0) := by
  rw [Bool.eq_iff_iff, beq_iff_eq, decide_eq_true_eq]
  constructor
  · intro h'
    have := congrArg BitVec.toNat h'
    rw [BitVec.toNat_sub, BitVec.toNat_ofNat] at this
    omega
  · intro h'
    apply BitVec.eq_of_toNat_eq
    rw [BitVec.toNat_sub, BitVec.toNat_ofNat]
    omega

/-- The loop of RDBYTES (R173). -/
theorem receiveBytes_wp (buf len : Word) (n : Nat) (r : Byte) (s : State) (hw : s.cfg.wellFormed = true)
    (hn : s.idx.toNat + n = len.toNat) :
    Wp (receiveBytes buf len r n) s
      (fun _ t => SameButLoop s t ∧ t.nackacc = s.nackacc ∧ t.idx = s.idx + BitVec.ofNat 16 n ∧
        Clocked s (readBitsDriven n) t)
      (fun c t => Broken s c t ∧ SameButLoop s t ∧ t.nackacc = s.nackacc) := by
  induction n generalizing s r with
  | zero => exact ⟨.refl s, rfl, by simp, .ofDrove (.refl s) rfl⟩
  | succ n ih =>
    refine Wp.get_bind ?_
    rw [idx_last hn]
    refine Wp.bind ((readByte_wp _ s hw).imp (fun r' u h => ?_) (fun c u h => ⟨h.1, h.2.1.loop, by rw [h.2.1]; rfl⟩))
    refine Wp.modify_bind (Wp.modify_bind ?_)
    obtain ⟨w, hwe⟩ : ∃ w, w = nextIndex (memWrite (buf + u.idx) r' u) := ⟨_, rfl⟩
    rw [← hwe]
    have d1 : Clocked u [] w := by rw [hwe]; exact .ofDrove ⟨rfl, rfl, [_], rfl, rfl, fun _ => rfl⟩ rfl
    have hu : u.nackacc = s.nackacc ∧ u.idx = s.idx ∧ SameButLoop s u := by
      have hs := h.1
      unfold SameButLines at hs
      refine ⟨?_, ?_, ?_⟩
      · rw [hs]; rfl
      · rw [hs]; rfl
      · unfold SameButLoop; rw [hs]; rfl
    have m2 : SameButLoop s w := hu.2.2.trans (by rw [hwe]; rfl)
    have hk : w.nackacc = s.nackacc := by rw [hwe]; exact hu.1
    have hi : w.idx = s.idx + 1#16 := by rw [hwe, ← hu.2.1]; rfl
    have d2 := h.2.2.2.1.trans d1
    rw [List.append_nil] at d2
    refine (ih r' w (by rw [m2.cfg]; exact hw) (by rw [hi, BitVec.toNat_add, BitVec.toNat_ofNat]; omega)).imp
      (fun _ t h' => ⟨m2.trans h'.1, h'.2.1.trans hk, ?_, ?_⟩)
      (fun c t h' => ⟨h'.1.of m2.cfg, m2.trans h'.2.1, h'.2.2.trans hk⟩)
    · rw [h'.2.2.1, hi, BitVec.ofNat_add, BitVec.add_assoc, BitVec.add_comm (BitVec.ofNat 16 n)]
    · rw [readBitsDriven_succ]
      exact d2.trans h'.2.2.2

/-- The optional STOP of a transaction. -/
theorem onlyIf_stop_wp (p : Bool) (s : State) (hw : s.cfg.wellFormed = true) :
    Wp (onlyIf p stopCondition) s
      (fun _ t => SameButLines (s.setStarted (if p && s.cfg.stopClearsStarted then false else s.started)) t ∧
        (p = false → t = s) ∧ Drove s t (if p then stopDrives (!engineLow s .clock) else []))
      (fun c t => Broken s c t ∧ SameButLines s t) := by
  cases p with
  | false => exact ⟨by simp [SameButLines, State.setStarted], fun _ => rfl, .refl s⟩
  | true => exact (stopCondition_wp s hw).imp (fun _ t h => ⟨by simpa using h.1, nofun, h.2.2⟩) (fun _ t h => h)

/-- The optional START of WRBYTES. -/
theorem onlyIf_start_wp (st : Bool) (s : State) (hw : s.cfg.wellFormed = true) :
    Wp (onlyIf st startCondition) s
      (fun _ t => SameButLines (s.setStarted (st || s.started)) t ∧ (st = false → t = s) ∧
        (st = true → (∀ l, engineLow t l = isOutput s (outBit s.cfg l)) ∧ EndsInWrite s t) ∧
        Drove s t (if st then startDrives s else []))
      (fun c t => SameButLines s t ∧ (Broken s c t ∨ st = true ∧
        c = .arbLost ∧ s.cfg.arbDetect = true ∧ s.started = false ∧ t.out = s.out ∧ OneSample s t)) := by
  cases st with
  | false => exact ⟨by simp [SameButLines, State.setStarted], fun _ => rfl, nofun, .refl s⟩
  | true =>
    exact (startCondition_wp s hw).imp (fun _ t h => ⟨by simpa using h.1, nofun, fun _ => ⟨h.2.1, h.2.2.2⟩, h.2.2.1⟩)
      (fun _ t h => ⟨h.1, h.2.imp id fun h => ⟨rfl, h⟩⟩)

/-- WRBYTES, whatever the environment does: the state it completes in and its drives, and the state a bus condition leaves
(R172, R203, R204). -/
theorem writeBytes_wp (st p : Bool) (buf len : Word) (s : State) (hw : s.cfg.wellFormed = true) :
    Wp (writeBytes st p buf len) s
      (fun _ t => SameButLoop (s.setStarted (if p && s.cfg.stopClearsStarted then false else st || s.started)) t ∧
        t.mem = s.mem ∧ t.idx = len ∧
        (st = true → p = false → engineLow t .clock = isOutput s s.cfg.clkOutBit) ∧
        ∃ c, (LinesAreOutputs s → st = true ∨ len ≠ 0#16 ∨ engineLow s .clock = true → c = false) ∧
          (st = false → len = 0#16 → c = !engineLow s .clock) ∧
          Drove s t ((if st then startDrives s else []) ++
            bitsDrives (if st then false else !engineLow s .clock) (sentBits (readsFrom s.mem buf 0 len.toNat)) ++
            (if p then stopDrives c else [])))
      (fun c t => (Broken s c t ∨ c = .arbLost ∧ s.cfg.arbDetect = true ∧ st = true ∧ s.started = false ∧
        t.out = s.out ∧ OneSample s t) ∧ SameButLoop (s.setStarted t.started) t) := by
  refine Wp.modify_bind (Wp.bind ?_)
  have m0 : SameButLoop s (clearNack s) := rfl
  have d0 : Drove s (clearNack s) [] := .ofEq rfl rfl rfl
  refine (onlyIf_start_wp st (clearNack s) hw).imp (fun _ s1 h1 => ?_) (fun c t h => ⟨?_, ?_⟩)
  · refine Wp.modify_bind ?_
    obtain ⟨s2, h2⟩ : ∃ s2, s2 = s1.setIdx 0#16 := ⟨_, rfl⟩
    rw [← h2]
    have m2 : SameButLoop (s.setStarted (st || s.started)) s2 := by
      have := h1.1
      unfold SameButLines at this
      unfold SameButLoop
      rw [h2, this]; rfl
    have hm2 : s2.mem = s.mem := by
      have := h1.1
      unfold SameButLines at this
      rw [h2, this]; rfl
    have w2 : s2.cfg.wellFormed = true := by rw [m2.cfg]; exact hw
    have o2 : ∀ k, isOutput s2 k = isOutput s k := fun k => m2.isOutput k
    have c2 : s2.cfg = s.cfg := m2.cfg
    have e2 : ∀ l, engineLow s2 l = if st then isOutput s (outBit s.cfg l) else engineLow s l := by
      intro l
      have : engineLow s2 l = engineLow s1 l := by rw [h2]; rfl
      rw [this]
      cases st with
      | false => rw [h1.2.1 rfl]; rfl
      | true => exact (h1.2.2.1 rfl).1 l
    have d2 : Drove s s2 (if st then startDrives s else []) := by
      rw [h2]
      exact ((d0.trans h1.2.2.2).trans (u := s1.setIdx 0#16) (ds' := []) (.ofEq rfl rfl rfl)).cast fun _ => by
        rw [List.append_nil, List.nil_append]; rfl
    refine Wp.bind ((sendBytes_wp buf len.toNat s2 w2).imp (fun _ s3 h3 => ?_)
      (fun c t h => ⟨.inl (h.1.of c2), ?_⟩))
    · have m3 := m2.trans h3.1
      have w3 : s3.cfg.wellFormed = true := by rw [m3.cfg]; exact hw
      have hi2 : s2.idx = 0#16 := by rw [h2]; rfl
      rw [hm2, hi2] at h3
      have hempty : sentBits (readsFrom s.mem buf 0#16 len.toNat) = [] ↔ len = 0#16 := by
        constructor
        · intro h
          by_contra hne
          have : 0 < len.toNat := Nat.pos_of_ne_zero fun h0 => hne (BitVec.eq_of_toNat_eq h0)
          obtain ⟨k, hk⟩ := Nat.exists_eq_succ_of_ne_zero this.ne'
          rw [hk, Nat.succ_eq_add_one, readsFrom_succ] at h
          simp [sentBits] at h
        · intro h; rw [h]; rfl
      have e3 : engineLow s3 .clock = if len = 0#16 then engineLow s2 .clock else isOutput s s.cfg.clkOutBit := by
        split
        · next h => exact h3.2.2.2.drove.engineLow (h3.2.2.2.none (hempty.mpr h)) _
        · next h => rw [h3.2.2.2.clock (fun h' => h (hempty.mp h')), o2, c2]
      refine Wp.bind ((onlyIf_stop_wp p s3 w3).imp (fun _ s4 h4 => ?_) (fun c t h => ⟨.inl (h.1.of m3.cfg), ?_⟩))
      · refine Wp.get_bind (Wp.pure ?_)
        have h4s := h4.1
        unfold SameButLines at h4s
        have hst : s3.started = (st || s.started) := m3.started
        have c3 : s3.cfg = s.cfg := m3.cfg
        refine ⟨?_, ?_, ?_, fun hs hp => ?_, !engineLow s3 .clock, fun ho hor => ?_, fun hs hl => ?_,
          ((d2.trans h3.2.2.2.drove).trans h4.2.2).cast fun ho => ?_⟩
        · unfold SameButLoop at m3 ⊢
          rw [h4s, c3, hst, m3]
          rfl
        · rw [h4s]; exact h3.2.1
        · rw [h4s]
          show s3.idx = len
          rw [h3.2.2.1]; simp
        · rw [h4.2.1 hp, e3, e2, hs]
          split <;> rfl
        · rw [e3, e2]
          have := isOutput_clock ho
          rcases hor with h | h | h
          · rw [h]; simp [outBit, this]
          · rw [if_neg h, this]; rfl
          · rw [h]; simp [outBit, this]
        · rw [e3, e2, if_pos hl, hs]; rfl
        · rw [e2]
          congr 3
          cases st with
          | false => rfl
          | true => simp [outBit, isOutput_clock ho]
      · have := h.2
        unfold SameButLines at this
        unfold SameButLoop at m3 ⊢
        rw [this, m3]; rfl
    · have := m2.trans h.2
      unfold SameButLoop at this ⊢
      rw [this]; rfl
  · rcases h.2 with h | ⟨h1, h2, h3, h4, h5, h6⟩
    · exact .inl (h.of rfl)
    · exact .inr ⟨h2, h3, h1, h4, h5, h6⟩
  · have := h.1
    unfold SameButLines at this
    unfold SameButLoop
    rw [this]; rfl

/-- RDBYTES, whatever the environment does (R173, R203, R204). -/
theorem readBytes_wp (p : Bool) (buf len : Word) (s : State) (hw : s.cfg.wellFormed = true) :
    Wp (readBytes p buf len) s
      (fun _ t => SameButLoop (s.setStarted (if p && s.cfg.stopClearsStarted then false else s.started)) t ∧
        t.nackacc = s.nackacc ∧ t.idx = len ∧
        ∃ c, (LinesAreOutputs s → len ≠ 0#16 ∨ engineLow s .clock = true → c = false) ∧
          Drove s t (bitsDrives (!engineLow s .clock) (readBitsDriven len.toNat) ++ (if p then stopDrives c else [])))
      (fun c t => Broken s c t ∧ SameButLoop (s.setStarted t.started) t ∧ t.nackacc = s.nackacc) := by
  refine Wp.modifyGet_bind (Wp.modify_bind ?_)
  obtain ⟨s1, h1⟩ : ∃ s1, s1 = (draw8 s).2.setIdx 0#16 := ⟨_, rfl⟩
  rw [← h1]
  have m1 : SameButLoop s s1 := by rw [h1]; rfl
  have d1 : Clocked s [] s1 := by rw [h1]; exact .ofDrove (.ofEq rfl rfl rfl) rfl
  have k1 : s1.nackacc = s.nackacc := by rw [h1]; rfl
  have i1 : s1.idx = 0#16 := by rw [h1]; rfl
  refine Wp.bind ((receiveBytes_wp buf len _ _ s1 (by rw [m1.cfg]; exact hw) (by rw [i1]; simp)).imp (fun _ s2 h2 => ?_)
    (fun c t h => ⟨h.1.of m1.cfg, ?_, h.2.2.trans k1⟩))
  · have m2 := m1.trans h2.1
    have d2 := d1.trans h2.2.2.2
    rw [List.nil_append] at d2
    have hempty : readBitsDriven len.toNat = [] ↔ len = 0#16 := by
      constructor
      · intro h
        by_contra hne
        have : 0 < len.toNat := Nat.pos_of_ne_zero fun h0 => hne (BitVec.eq_of_toNat_eq h0)
        obtain ⟨k, hk⟩ := Nat.exists_eq_succ_of_ne_zero this.ne'
        rw [hk, Nat.succ_eq_add_one, readBitsDriven_succ] at h
        simp at h
      · intro h; rw [h]; rfl
    refine Wp.bind ((onlyIf_stop_wp p s2 (by rw [m2.cfg]; exact hw)).imp (fun _ s3 h3 => ?_) (fun c t h => ⟨h.1.of m2.cfg, ?_, ?_⟩))
    · have h3s := h3.1
      unfold SameButLines at h3s
      refine Wp.pure ⟨?_, ?_, ?_, !engineLow s2 .clock, fun ho hor => ?_, d2.drove.trans h3.2.2⟩
      · unfold SameButLoop at m2 ⊢
        rw [h3s, m2]
        rfl
      · rw [h3s]; exact h2.2.1.trans k1
      · rw [h3s]
        show s2.idx = len
        rw [h2.2.2.1, i1]; simp
      · by_cases hl : len = 0#16
        · rw [d2.drove.engineLow (d2.none (hempty.mpr hl))]
          rcases hor with h | h
          · exact absurd hl h
          · rw [h]; rfl
        · rw [d2.clock fun h => hl (hempty.mp h), isOutput_clock ho]; rfl
    · have := m2.trans h.2.loop
      unfold SameButLoop at this ⊢
      rw [this]; rfl
    · rw [h.2.nackacc, h2.2.1, k1]
  · have := m1.trans h.2.1
    unfold SameButLoop at this ⊢
    rw [this]; rfl

/-! ### What the cleanup of a bus condition leaves -/

/-- After a bus condition `started` is 0 (60_exceptions.md R203, R204). -/
theorem raiseCondition_started (c : BusCondition) (cmd : Command) (s : State) :
    (raiseCondition c.condition cmd s).started = false := by cases c <;> rfl

/-- An arbitration loss leaves the lines as they were at the check (R203). -/
theorem raiseCondition_arbLost_engineLow (cmd : Command) (s : State) (l : Line) :
    engineLow (raiseCondition .arbLost cmd s) l = engineLow s l := rfl

/-- A bus timeout leaves both lines released (R204). -/
theorem raiseCondition_busTimeout_engineLow (cmd : Command) (s : State) (hw : s.cfg.wellFormed = true)
    (hc : engineLow s .clock = false) (l : Line) : engineLow (raiseCondition .busTimeout cmd s) l = false := by
  show engineLow (releaseLine .data s) l = false
  rw [engineLow_releaseLine s hw]
  cases l <;> simp [hc]

/-- What a bus condition and its cleanup write (R202 to R204). -/
theorem raiseCondition_frame (c : BusCondition) (cmd : Command) (s : State) :
    raiseCondition c.condition cmd s = { s with
      started := false
      out := (raiseCondition c.condition cmd s).out
      result := (raiseCondition c.condition cmd s).result
      history := (raiseCondition c.condition cmd s).history
      env := (raiseCondition c.condition cmd s).env
      draws := (raiseCondition c.condition cmd s).draws } := by
  cases c with
  | arbLost => rfl
  | busTimeout =>
    have h := (releaseLine_lineRun .data s).same
    unfold SameButLines at h
    show raiseCondition .busTimeout cmd s = _
    rw [raiseCondition, cleanup, h]
    rfl

/-! ### What can end a command -/

@[simp] theorem complete_cond (c : Condition) (v : Byte) (cmd : Command) (s : State) :
    (complete c v cmd s).result.cond = c.code := rfl

@[simp] theorem raiseCondition_cond (c : Condition) (cmd : Command) (s : State) :
    (raiseCondition c cmd s).result.cond = c.code := rfl

/-- An arbitration loss at the check of a first START: OUT is as it was, and one sample was all (60_exceptions.md R203
point 2). -/
def LostAtFirstStart (i : Instr) (s : State) (c : BusCondition) (t : State) : Prop :=
  c = .arbLost ∧ s.cfg.arbDetect = true ∧ s.started = false ∧ (i = .start ∨ ∃ p buf len, i = .wrbytes true p buf len) ∧
    t.out = s.out ∧ OneSample s t

/-- What a command whose procedure a bus condition ends has written of the registers of other commands: nothing. -/
structure AbortFrame (i : Instr) (s t : State) : Prop where
  loop : SameButLoop (s.setStarted t.started) t
  byte : ((∃ v, i = .wrbit v) ∨ i = .rdbit ∨ i = .start ∨ i = .stop) → t.shift = s.shift ∧ t.bitcnt = s.bitcnt
  nack : (∀ st p buf len, i ≠ .wrbytes st p buf len) → t.nackacc = s.nackacc
  idx : (∀ st p buf len, i ≠ .wrbytes st p buf len) → (∀ p buf len, i ≠ .rdbytes p buf len) → t.idx = s.idx

theorem SameButLines.abortFrame {s t : State} (h : SameButLines s t) (i : Instr) : AbortFrame i s t := by
  refine ⟨?_, fun _ => ⟨h.shift, h.bitcnt⟩, fun _ => h.nackacc, fun _ _ => h.idx⟩
  unfold SameButLines at h
  unfold SameButLoop
  rw [h]; rfl

theorem SameButByte.abortFrame {s t : State} (h : SameButByte s t) {i : Instr}
    (hi : ¬ ((∃ v, i = .wrbit v) ∨ i = .rdbit ∨ i = .start ∨ i = .stop)) : AbortFrame i s t := by
  refine ⟨?_, fun h => absurd h hi, fun _ => ?_, fun _ _ => h.idx⟩
  · unfold SameButByte SameButLines at h
    unfold SameButLoop
    rw [h]; rfl
  · rw [h]; rfl

/-- The bus conditions that can end the procedure of a command, and how they leave the state (R122, R123, R203, R204). -/
theorem procOf_wp (i : Instr) (s : State) (hw : s.cfg.wellFormed = true) :
    Wp (procOf i) s (fun _ _ => True) (fun c t => (Broken s c t ∨ LostAtFirstStart i s c t) ∧
      (c = .arbLost → i ≠ .wrbit false ∧ i ≠ .rdbit ∧ i ≠ .rdbyte false ∧ i ≠ .wrbyte 0x00#8) ∧ AbortFrame i s t) := by
  cases i
  case release l => trivial
  case drivelow l => trivial
  case readline l => trivial
  case init => trivial
  case reset => trivial
  case wrbit v =>
    refine Wp.bind ((writeBit_wp v s hw).imp (fun _ _ _ => trivial) (fun c t h => ⟨.inl h.1, fun hc => ?_, h.2.1.abortFrame _⟩))
    simp [h.2.2 hc]
  case rdbit =>
    refine Wp.bind ((readBit_wp s hw).imp (fun _ _ _ => trivial) (fun c t h => ⟨.inl h.1, fun hc => ?_, h.2.1.abortFrame _⟩))
    rw [hc] at h
    exact absurd h.2.2 (by decide)
  case start =>
    refine Wp.bind ((startCondition_wp s hw).imp (fun _ _ _ => trivial)
      (fun c t h => ⟨?_, by simp, h.1.abortFrame _⟩))
    rcases h.2 with h | h
    · exact .inl h
    · exact .inr ⟨h.1, h.2.1, h.2.2.1, .inl rfl, h.2.2.2⟩
  case stop =>
    exact Wp.bind ((stopCondition_wp s hw).imp (fun _ _ _ => trivial)
      (fun c t h => ⟨.inl h.1, by simp, h.2.abortFrame _⟩))
  case wrbyte b =>
    refine Wp.bind ((writeByte_wp b s hw).imp (fun _ _ _ => trivial)
      (fun c t h => ⟨.inl h.1, fun hc => ?_, h.2.1.abortFrame (by simp)⟩))
    simpa using h.2.2 hc
  case rdbyte last =>
    refine (readByte_wp last s hw).imp (fun _ _ _ => trivial)
      (fun c t h => ⟨.inl h.1, fun hc => ?_, h.2.1.abortFrame (by simp)⟩)
    simpa using h.2.2 hc
  case wrbytes st p buf len =>
    refine (writeBytes_wp st p buf len s hw).imp (fun _ _ _ => trivial)
      (fun c t h => ⟨?_, by simp, h.2, by simp, fun h => absurd rfl (h st p buf len), fun h => absurd rfl (h st p buf len)⟩)
    rcases h.1 with h | ⟨h1, h2, h3, h4⟩
    · exact .inl h
    · exact .inr ⟨h1, h2, h4.1, .inr ⟨p, buf, len, by rw [h3]⟩, h4.2⟩
  case rdbytes p buf len =>
    exact (readBytes_wp p buf len s hw).imp (fun _ _ _ => trivial)
      (fun c t h => ⟨.inl h.1, by simp, h.2.1, by simp, fun _ => h.2.2, fun _ h => absurd rfl (h p buf len)⟩)

end Sys2Proof.Machine
end

