-- ==== Sys2Proof/Laws/BufferPlaces.lean ====
section
/-! SUPPORT. Where a transaction's buffer accesses stand among its port accesses, whatever the environment does and wherever it
ends (43_bus_handle.md R174). -/
namespace Sys2Proof.Machine

/-- A buffer access: an event that is no port access and no completion. -/
def Event.isBuffer : Event → Bool
  | .memRead .. => true
  | .memWrite .. => true
  | _ => false

/-- Whenever a buffer access stands in `evs`, `K` holds of the events before it and of the access. -/
def AtBuffer (K : List Event → Event → Prop) (evs : List Event) : Prop :=
  ∀ before e rest, evs = before ++ e :: rest → e.isBuffer = true → K before e

theorem atBuffer_nil (K : List Event → Event → Prop) : AtBuffer K [] := fun before e rest h => by simp at h

theorem atBuffer_append {K : List Event → Event → Prop} {xs ys : List Event} (h : AtBuffer K xs)
    (h' : AtBuffer (fun b e => K (xs ++ b) e) ys) : AtBuffer K (xs ++ ys) := by
  intro before e rest he hb
  rcases List.append_eq_append_iff.mp he with ⟨zs, h1, h2⟩ | ⟨zs, h1, h2⟩
  · rw [h1]
    exact h' zs e rest h2 hb
  · cases zs with
    | nil =>
      simp only [List.append_nil, List.nil_append] at h1 h2
      rw [← h1]
      simpa using h' [] e rest (by simpa using h2.symm) hb
    | cons z zs =>
      simp only [List.cons_append, List.cons.injEq] at h2
      obtain ⟨rfl, -⟩ := h2
      exact h before e zs h1 hb

theorem AtBuffer.mono {K K' : List Event → Event → Prop} {evs : List Event} (h : AtBuffer K evs)
    (hk : ∀ b e, K b e → K' b e) : AtBuffer K' evs := fun b e r he hb => hk _ _ (h b e r he hb)

/-- Events without a buffer access. -/
theorem atBuffer_of_none {evs : List Event} (hr : bufferReads evs = []) (hw : bufferWrites evs = [])
    (K : List Event → Event → Prop) : AtBuffer K evs := by
  intro before e rest he hb
  rw [he] at hr hw
  cases e <;> simp [Event.isBuffer] at hb
  · simp [bufferReads] at hr
  · simp [bufferWrites] at hw

/-- The drives that events put on the lines. -/
def drivesOf (cfg : Cfg) (evs : List Event) : List Drive := (portWritesTo cfg.portOutAddr evs).map (driveOf cfg)

theorem drivesOf_append (cfg : Cfg) (xs ys : List Event) : drivesOf cfg (xs ++ ys) = drivesOf cfg xs ++ drivesOf cfg ys := by
  simp [drivesOf]

/-- The events are none, or the last is a write of the output port. -/
def AfterWrite (cfg : Cfg) (evs : List Event) : Prop := evs = [] ∨ ∃ evs' v, evs = evs' ++ [.portWrite cfg.portOutAddr v]

theorem AfterWrite.prepend {cfg : Cfg} {xs ys : List Event} (h : AfterWrite cfg ys) (hx : AfterWrite cfg xs) :
    AfterWrite cfg (xs ++ ys) := by
  rcases h with rfl | ⟨evs, v, rfl⟩
  · simpa using hx
  · exact .inr ⟨xs ++ evs, v, by simp⟩

/-- The events of a run that touches no buffer byte, drives `ds`, and ends in a write of the output port. -/
theorem run_events {s t : State} {ds : List Drive} (hd : Drove s t ds) (hu : Untouched s t) (he : EndsInWrite s t) :
    ∃ evs, t.history = s.history ++ evs ∧ (LinesAreOutputs s → drivesOf s.cfg evs = ds) ∧ bufferReads evs = [] ∧
      bufferWrites evs = [] ∧ ∃ evs' v, evs = evs' ++ [.portWrite s.cfg.portOutAddr v] := by
  obtain ⟨evs, h1, -, h2⟩ := hd.events
  obtain ⟨⟨evs2, h3, h4, h5⟩, -⟩ := hu.1
  obtain ⟨evs3, v, h6⟩ := he
  have e2 : evs2 = evs := List.append_cancel_left (h3.symm.trans h1)
  have e3 : evs3 ++ [.portWrite s.cfg.portOutAddr v] = evs := List.append_cancel_left (h6.symm.trans h1)
  rw [e2] at h4 h5
  exact ⟨evs, h1, h2, h4, h5, evs3, v, e3.symm⟩

/-- A run that a condition ends and that touches no buffer byte. -/
theorem broken_events {s t : State} (hu : Untouched s t) (K : List Event → Event → Prop) :
    ∃ evs, t.history = s.history ++ evs ∧ AtBuffer K evs := by
  obtain ⟨⟨evs, h1, h2, h3⟩, -⟩ := hu.1
  exact ⟨evs, h1, atBuffer_of_none h2 h3 K⟩

/-- Where WRBYTES reads: byte i after the bits and acknowledgments of the bytes before it, and before its own. -/
def ReadPlace (s : State) (buf : Word) (n : Nat) (before : List Event) (e : Event) : Prop :=
  ∃ i < n, e = .memRead (buf + (s.idx + BitVec.ofNat 16 i)) (readCell s.mem (buf + (s.idx + BitVec.ofNat 16 i)).toNat) ∧
    (LinesAreOutputs s → drivesOf s.cfg before = bitsDrives (!engineLow s .clock) (sentBits (readsFrom s.mem buf s.idx i))) ∧
    AfterWrite s.cfg before

/-- Where RDBYTES writes: byte i after its bits and its acknowledgment bit, and before the next byte's. -/
def WritePlace (s : State) (buf : Word) (n : Nat) (before : List Event) (e : Event) : Prop :=
  ∃ i < n, ∃ v, e = .memWrite (buf + (s.idx + BitVec.ofNat 16 i)) v ∧
    (LinesAreOutputs s → drivesOf s.cfg before = bitsDrives (!engineLow s .clock)
      ((List.range (i + 1)).flatMap fun k => List.replicate 8 true ++ [decide (k + 1 = n)])) ∧
    ∃ evs w, before = evs ++ [.portWrite s.cfg.portOutAddr w]

/-- `t` is `s` after events whose buffer accesses stand where `K` says. -/
def Places (K : List Event → Event → Prop) (s t : State) : Prop := ∃ evs, t.history = s.history ++ evs ∧ AtBuffer K evs

theorem sendBytes_places (buf : Word) (n : Nat) (s : State) (hw : s.cfg.wellFormed = true) :
    Wp (sendBytes buf n) s (fun _ t => Places (ReadPlace s buf n) s t) (fun _ t => Places (ReadPlace s buf n) s t) := by
  induction n generalizing s with
  | zero => exact ⟨[], by simp, atBuffer_nil _⟩
  | succ n ih =>
    refine Wp.get_bind (Wp.modifyGet_bind ?_)
    obtain ⟨r, hr⟩ : ∃ r, r = (memRead (buf + s.idx) s).2 := ⟨_, rfl⟩
    obtain ⟨b, hb⟩ : ∃ b, b = readCell s.mem (buf + s.idx).toNat := ⟨_, rfl⟩
    rw [← hr, show (memRead (buf + s.idx) s).1 = b from hb.symm]
    have hh : r.history = s.history ++ [.memRead (buf + s.idx) b] := by rw [hr, hb]; rfl
    have wr : r.cfg.wellFormed = true := by rw [hr]; exact hw
    have first : AtBuffer (ReadPlace s buf (n + 1)) [.memRead (buf + s.idx) b] := by
      intro before e rest he _
      cases before with
      | cons x xs => simp at he
      | nil =>
        simp only [List.nil_append, List.cons.injEq] at he
        exact ⟨0, by omega, by rw [← he.1, hb]; simp, fun _ => rfl, .inl rfl⟩
    refine Wp.bind ((Wp.and (writeByte_wp b r wr) (wp_of (writeByte_untouched b) r)).imp (fun x u h => ?_) (fun c u h => ?_))
    · obtain ⟨⟨hs, hc, -, hd, he⟩, hu⟩ := h
      obtain ⟨evs, h1, h2, h3, h4, evs', v, h5⟩ := run_events hd.drove hu he
      refine Wp.modify_bind (Wp.modify_bind ?_)
      obtain ⟨w, hwe⟩ : ∃ w, w = nextIndex (accumulateNack x u) := ⟨_, rfl⟩
      rw [← hwe]
      have cu : u.cfg = s.cfg := by rw [hs.cfg]; show r.cfg = _; rw [hr]; rfl
      have cw : w.cfg = s.cfg := by rw [hwe]; exact cu
      have mw : w.mem = s.mem := by rw [hwe]; show u.mem = _; rw [hs.mem]; show r.mem = _; rw [hr]; rfl
      have iw : w.idx = s.idx + 1#16 := by rw [hwe]; show u.idx + 1#16 = _; rw [hs.idx]; show r.idx + 1#16 = _; rw [hr]; rfl
      have dw : w.ddr = s.ddr := by rw [hwe]; show u.ddr = _; rw [hs.ddr]; show r.ddr = _; rw [hr]; rfl
      have ow : LinesAreOutputs w ↔ LinesAreOutputs s := by simp [LinesAreOutputs, isOutput, cw, dw]
      have or' : LinesAreOutputs r ↔ LinesAreOutputs s := by rw [hr]; exact Iff.rfl
      have ew : LinesAreOutputs s → engineLow w .clock = true := by
        intro ho
        have : engineLow w .clock = engineLow u .clock := by rw [hwe]; rfl
        rw [this, hc]
        exact isOutput_clock (or'.mpr ho)
      have er : engineLow r .clock = engineLow s .clock := by rw [hr]; rfl
      have cr : r.cfg = s.cfg := by rw [hr]; rfl
      have ew' : ∀ b' e, ReadPlace w buf n b' e → ReadPlace s buf (n + 1) ([.memRead (buf + s.idx) b] ++ (evs ++ b')) e := by
        intro b' e ⟨i, hi, k1, k2, k3⟩
        refine ⟨i + 1, by omega, ?_, fun ho => ?_, ?_⟩
        · rw [k1, mw, iw, BitVec.ofNat_add, BitVec.add_assoc s.idx, BitVec.add_comm (BitVec.ofNat 16 i)]
        · rw [cw, mw, iw] at k2
          rw [cr, er] at h2
          rw [drivesOf_append, drivesOf_append, h2 (or'.mpr ho), k2 (ow.mpr ho), ew ho, readsFrom_succ, ← hb,
            show sentBits ((buf + s.idx, b) :: readsFrom s.mem buf (s.idx + 1#16) i) =
              (msbFirst b ++ [true]) ++ sentBits (readsFrom s.mem buf (s.idx + 1#16) i) from rfl,
            bitsDrives_append _ (msbFirst b ++ [true]), if_neg (by simp)]
          rfl
        · rw [cw] at k3
          refine .inr ?_
          rcases (k3.prepend (.inr ⟨evs', v, by rw [h5, cr]⟩) : AfterWrite s.cfg (evs ++ b')) with h | ⟨e1, v1, h⟩
          · rw [h5] at h; simp at h
          · exact ⟨[.memRead (buf + s.idx) b] ++ e1, v1, by rw [h]; simp⟩
      have hist : ∀ t, Places (ReadPlace w buf n) w t → Places (ReadPlace s buf (n + 1)) s t := by
        intro t ⟨evs2, g1, g2⟩
        refine ⟨[.memRead (buf + s.idx) b] ++ (evs ++ evs2), ?_, ?_⟩
        · rw [g1, hwe]
          show u.history ++ evs2 = _
          rw [h1, hh]
          simp
        · refine atBuffer_append first (atBuffer_append (atBuffer_of_none h3 h4 _) ?_)
          exact g2.mono ew'
      exact (ih w (by rw [cw]; exact hw)).imp (fun _ t h => hist t h) (fun _ t h => hist t h)
    · obtain ⟨evs, h1, h2⟩ := broken_events h.2 (fun b' e => ReadPlace s buf (n + 1) ([.memRead (buf + s.idx) b] ++ b') e)
      exact ⟨[.memRead (buf + s.idx) b] ++ evs, by rw [h1, hh]; simp, atBuffer_append first h2⟩

theorem receiveBytes_places (buf len : Word) (n : Nat) (x : Byte) (s : State) (hw : s.cfg.wellFormed = true)
    (hn : s.idx.toNat + n = len.toNat) :
    Wp (receiveBytes buf len x n) s (fun _ t => Places (WritePlace s buf n) s t)
      (fun _ t => Places (WritePlace s buf n) s t) := by
  induction n generalizing s x with
  | zero => exact ⟨[], by simp, atBuffer_nil _⟩
  | succ n ih =>
    refine Wp.get_bind ?_
    rw [idx_last hn]
    refine Wp.bind ((Wp.and (readByte_wp _ s hw) (wp_of (readByte_untouched _) s)).imp (fun x' u h => ?_) (fun c u h => ?_))
    · obtain ⟨⟨hs, hc, -, hd, he⟩, hu⟩ := h
      obtain ⟨evs, h1, h2, h3, h4, h5⟩ := run_events hd.drove hu he
      refine Wp.modify_bind (Wp.modify_bind ?_)
      obtain ⟨w, hwe⟩ : ∃ w, w = nextIndex (memWrite (buf + u.idx) x' u) := ⟨_, rfl⟩
      rw [← hwe]
      have cu : u.cfg = s.cfg := hs.cfg
      have iu : u.idx = s.idx := hs.idx
      have cw : w.cfg = s.cfg := by rw [hwe]; exact cu
      have iw : w.idx = s.idx + 1#16 := by rw [hwe]; show u.idx + 1#16 = _; rw [iu]
      have dw : w.ddr = s.ddr := by rw [hwe]; exact hs.ddr
      have ow : LinesAreOutputs w ↔ LinesAreOutputs s := by simp [LinesAreOutputs, isOutput, cw, dw]
      have ew : LinesAreOutputs s → engineLow w .clock = true := by
        intro ho
        have : engineLow w .clock = engineLow u .clock := by rw [hwe]; rfl
        rw [this, hc]
        exact isOutput_clock ho
      have hwh : w.history = s.history ++ (evs ++ [.memWrite (buf + s.idx) x']) := by
        rw [hwe]
        show u.history ++ [.memWrite (buf + u.idx) x'] = _
        rw [h1, iu, List.append_assoc]
      have first : AtBuffer (fun b e => WritePlace s buf (n + 1) (evs ++ b) e) [.memWrite (buf + s.idx) x'] := by
        intro before e rest he _
        cases before with
        | cons y ys => simp at he
        | nil =>
          simp only [List.nil_append, List.cons.injEq] at he
          refine ⟨0, by omega, x', by rw [← he.1]; simp, fun ho => ?_, by simpa using h5⟩
          rw [List.append_nil, h2 ho]
          simp [eq_comm]
      have ew' : ∀ b' e, WritePlace w buf n b' e →
          WritePlace s buf (n + 1) (evs ++ ([.memWrite (buf + s.idx) x'] ++ b')) e := by
        intro b' e ⟨i, hi, v, k1, k2, e1, v1, k3⟩
        refine ⟨i + 1, by omega, v, ?_, fun ho => ?_, evs ++ ([.memWrite (buf + s.idx) x'] ++ e1), v1, ?_⟩
        · rw [k1, iw, BitVec.ofNat_add, BitVec.add_assoc s.idx, BitVec.add_comm (BitVec.ofNat 16 i)]
        · rw [cw] at k2
          rw [drivesOf_append, drivesOf_append, h2 ho, k2 (ow.mpr ho), ew ho, List.range_succ_eq_map (n := i + 1),
            List.flatMap_cons, List.flatMap_map, bitsDrives_append, if_neg (by simp)]
          have hz : decide (0 + 1 = n + 1) = decide (n = 0) := by simp
          have hy : (fun k : Nat => List.replicate 8 true ++ [decide (k.succ + 1 = n + 1)]) =
              fun k => List.replicate 8 true ++ [decide (k + 1 = n)] := by funext k; simp
          rw [hz, hy]
          rfl
        · rw [k3, cw]; simp
      have hist : ∀ t, Places (WritePlace w buf n) w t → Places (WritePlace s buf (n + 1)) s t := by
        intro t ⟨evs2, g1, g2⟩
        refine ⟨evs ++ ([.memWrite (buf + s.idx) x'] ++ evs2), by rw [g1, hwh]; simp, ?_⟩
        exact atBuffer_append (atBuffer_of_none h3 h4 _) (atBuffer_append first (g2.mono ew'))
      exact (ih x' w (by rw [cw]; exact hw) (by rw [iw, BitVec.toNat_add, BitVec.toNat_ofNat]; omega)).imp
        (fun _ t h => hist t h) (fun _ t h => hist t h)
    · exact broken_events h.2 _

theorem places_of_untouched {s t : State} (h : Untouched s t) (K : List Event → Event → Prop) : Places K s t :=
  broken_events h K

theorem Places.untouched {s t u : State} {K : List Event → Event → Prop} (h : Places K s t) (h' : Untouched t u) :
    Places K s u := by
  obtain ⟨evs, h1, h2⟩ := h
  obtain ⟨⟨evs', h3, h4, h5⟩, -⟩ := h'.1
  exact ⟨evs ++ evs', by rw [h3, h1, List.append_assoc], atBuffer_append h2 (atBuffer_of_none h4 h5 _)⟩

/-- Where WRBYTES reads, its START before the first byte (R174). -/
def WrbytesPlace (s : State) (st : Bool) (buf len : Word) (before : List Event) (e : Event) : Prop :=
  ∃ i < len.toNat, e = .memRead (buf + BitVec.ofNat 16 i) (readCell s.mem (buf + BitVec.ofNat 16 i).toNat) ∧
    (LinesAreOutputs s → drivesOf s.cfg before = (if st then startDrives s else []) ++
      bitsDrives (if st then false else !engineLow s .clock) (sentBits (readsFrom s.mem buf 0 i))) ∧
    AfterWrite s.cfg before

theorem writeBytes_places (st p : Bool) (buf len : Word) (s : State) (hw : s.cfg.wellFormed = true) :
    Wp (writeBytes st p buf len) s (fun _ t => Places (WrbytesPlace s st buf len) s t)
      (fun _ t => Places (WrbytesPlace s st buf len) s t) := by
  refine Wp.modify_bind (Wp.bind ?_)
  have hstart := (onlyIf_start_wp st (clearNack s) hw).and
    (wp_of (Always.onlyIf Untouched.refl startCondition_untouched st) (clearNack s))
  refine hstart.imp (fun _ s1 h1 => ?_) (fun c t h => places_of_untouched (s := clearNack s) h.2 _)
  refine Wp.modify_bind ?_
  obtain ⟨s2, h2⟩ : ∃ s2, s2 = s1.setIdx 0#16 := ⟨_, rfl⟩
  rw [← h2]
  have hs := h1.1.1
  have c2 : s2.cfg = s.cfg := by rw [h2]; exact hs.cfg
  have m2 : s2.mem = s.mem := by rw [h2]; exact hs.mem
  have d2 : s2.ddr = s.ddr := by rw [h2]; exact hs.ddr
  have o2 : LinesAreOutputs s2 ↔ LinesAreOutputs s := by simp [LinesAreOutputs, isOutput, c2, d2]
  have e2 : LinesAreOutputs s → engineLow s2 .clock = if st then true else engineLow s .clock := by
    intro ho
    have : engineLow s2 .clock = engineLow s1 .clock := by rw [h2]; rfl
    rw [this]
    cases st with
    | false => rw [h1.1.2.1 rfl]; rfl
    | true => rw [(h1.1.2.2.1 rfl).1 .clock]; exact isOutput_clock ho
  have hev : ∃ evs, s2.history = s.history ++ evs ∧ bufferReads evs = [] ∧ bufferWrites evs = [] ∧
      (LinesAreOutputs s → drivesOf s.cfg evs = if st then startDrives s else []) ∧ AfterWrite s.cfg evs := by
    cases st with
    | false =>
      refine ⟨[], ?_, rfl, rfl, fun _ => rfl, .inl rfl⟩
      rw [h2, h1.1.2.1 rfl]
      exact (List.append_nil _).symm
    | true =>
      obtain ⟨evs, g1, g2, g3, g4, g5⟩ := run_events h1.1.2.2.2 h1.2 (h1.1.2.2.1 rfl).2
      exact ⟨evs, by rw [h2]; exact g1, g3, g4, g2, .inr g5⟩
  obtain ⟨evs, g1, g2, g3, g4, g5⟩ := hev
  have lift : ∀ t, Places (ReadPlace s2 buf len.toNat) s2 t → Places (WrbytesPlace s st buf len) s t := by
    intro t ⟨evs', k1, k2⟩
    refine ⟨evs ++ evs', by rw [k1, g1, List.append_assoc], atBuffer_append (atBuffer_of_none g2 g3 _) (k2.mono ?_)⟩
    intro b' e ⟨i, hi, q1, q2, q3⟩
    have i2 : s2.idx = 0#16 := by rw [h2]; rfl
    refine ⟨i, hi, ?_, fun ho => ?_, ?_⟩
    · rw [q1, m2, i2]; simp
    · rw [drivesOf_append, g4 ho]
      rw [c2, m2, i2] at q2
      rw [q2 (o2.mpr ho), e2 ho]
      cases st <;> rfl
    · rw [c2] at q3
      exact q3.prepend g5
  refine Wp.bind ((sendBytes_places buf len.toNat s2 (by rw [c2]; exact hw)).imp (fun _ t h => ?_) (fun _ t h => lift t h))
  have ht := lift t h
  refine Wp.bind ((wp_of (Always.onlyIf Untouched.refl stopCondition_untouched p) t).imp (fun _ u h' => ?_)
    (fun _ u h' => ht.untouched h'))
  exact ht.untouched h'

/-- Where RDBYTES writes (R174). -/
def RdbytesPlace (s : State) (buf len : Word) (before : List Event) (e : Event) : Prop :=
  ∃ i < len.toNat, ∃ v, e = .memWrite (buf + BitVec.ofNat 16 i) v ∧
    (LinesAreOutputs s → drivesOf s.cfg before = bitsDrives (!engineLow s .clock)
      ((List.range (i + 1)).flatMap fun k => List.replicate 8 true ++ [decide (k + 1 = len.toNat)])) ∧
    ∃ evs w, before = evs ++ [.portWrite s.cfg.portOutAddr w]

theorem readBytes_places (p : Bool) (buf len : Word) (s : State) (hw : s.cfg.wellFormed = true) :
    Wp (readBytes p buf len) s (fun _ t => Places (RdbytesPlace s buf len) s t)
      (fun _ t => Places (RdbytesPlace s buf len) s t) := by
  refine Wp.modifyGet_bind (Wp.modify_bind ?_)
  have lift : ∀ t, Places (WritePlace ((draw8 s).2.setIdx 0#16) buf len.toNat) ((draw8 s).2.setIdx 0#16) t →
      Places (RdbytesPlace s buf len) s t := by
    intro t ⟨evs, k1, k2⟩
    refine ⟨evs, k1, k2.mono ?_⟩
    intro b' e ⟨i, hi, v, q1, q2, q3⟩
    exact ⟨i, hi, v, by rw [q1]; simp, q2, q3⟩
  refine Wp.bind ((receiveBytes_places buf len len.toNat _ ((draw8 s).2.setIdx 0#16) hw (by simp)).imp
    (fun _ t h => ?_) (fun _ t h => lift t h))
  have ht := lift t h
  refine Wp.bind ((wp_of (Always.onlyIf Untouched.refl stopCondition_untouched p) t).imp (fun _ u h' => ?_)
    (fun _ u h' => ht.untouched h'))
  exact ht.untouched h'

/-- The events of a command that completes. -/
theorem Places.completed {s t : State} {K : List Event → Event → Prop} (h : Places K s t) (c : Condition) (v : Byte)
    (cmd : Command) : AtBuffer K (newEvents s (complete c v cmd t)) := by
  obtain ⟨evs, h1, h2⟩ := h
  rw [newEvents_of_eq (evs := evs ++ [.done cmd c v]) (by rw [complete_eq, h1, List.append_assoc])]
  exact atBuffer_append h2 (atBuffer_of_none rfl rfl _)

/-- The events of a command that a bus condition ends. -/
theorem Places.raised {s t : State} {K : List Event → Event → Prop} (h : Places K s t) (c : BusCondition)
    (cmd : Command) : AtBuffer K (newEvents s (raiseCondition c.condition cmd t)) := by
  cases c with
  | arbLost => exact Places.completed (t := (draw8 (t.setStarted false)).2) h .arbLost _ cmd
  | busTimeout =>
    have hu : Untouched t (releaseLine .data t) := Untouched.line (releaseLine_lineRun .data t)
    have hp := h.untouched hu
    exact Places.completed (t := (draw8 ((releaseLine .data t).setStarted false)).2) hp .busTimeout _ cmd

end Sys2Proof.Machine
end

