-- ==== Sys2Proof/Laws/Hearing.lean ====
section
/-! SUPPORT. How far each procedure comes on the answers of the environment, and what it hears: every procedure ends as `hear`
says of its points, with those accesses and samples (41_bit_transport.md R126, 42_protocol_engine.md R146). -/
namespace Sys2Proof.Machine

variable {α β : Type}

/-! ### Hearing along points -/

theorem Heard.andThen_assoc (h : Heard) (f g : List EnvSample → Heard) :
    (h.andThen f).andThen g = h.andThen fun env => (f env).andThen g := by
  obtain ⟨en, a, n, ls, b, rest⟩ := h
  cases en <;> simp only [Heard.andThen]
  split <;> simp [Nat.add_assoc]

theorem hear_append (cfg : Cfg) (xs ys : List Ask) (env : List EnvSample) :
    hear cfg (xs ++ ys) env = (hear cfg xs env).andThen (hear cfg ys) := by
  induction xs generalizing env with
  | nil => simp [hear, Heard.andThen]
  | cons x xs ih =>
    rw [List.cons_append, hear, hear, Heard.andThen_assoc]
    congr 1
    funext e
    exact ih e

/-- The port accesses of a point but for the polls of a stretch wait. -/
def Ask.weight (cfg : Cfg) : Ask → Nat
  | .change => 2
  | .wait => 0
  | .check _ => checks cfg 1
  | .sample => 1
  | .buffer => 0

theorem hearPolls_accesses (n : Nat) (env : List EnvSample) : (hearPolls n env).accesses = (hearPolls n env).polls := by
  induction n generalizing env with
  | zero => rfl
  | succ n ih =>
    cases env with
    | nil => rfl
    | cons e rest => simp only [hearPolls]; split <;> simp [ih]

/-- Polls that end with CLOCK high are at least one and at most the bound (R126). -/
theorem hearPolls_polls {n : Nat} {env : List EnvSample} (h : (hearPolls n env).ending = .through) :
    1 ≤ (hearPolls n env).polls ∧ (hearPolls n env).polls ≤ n := by
  induction n generalizing env with
  | zero => simp [hearPolls] at h
  | succ n ih =>
    cases env with
    | nil => simp [hearPolls] at h
    | cons e rest =>
      simp only [hearPolls] at h ⊢
      split at h
      · next he => simp only [he, if_true]; have := ih h; omega
      · next he => simp [he]

theorem hearPolls_levels (n : Nat) (env : List EnvSample) :
    (hearPolls n env).levels = [] ∧ (hearPolls n env).buffered = 0 := by
  induction n generalizing env with
  | zero => exact ⟨rfl, rfl⟩
  | succ n ih =>
    cases env with
    | nil => exact ⟨rfl, rfl⟩
    | cons e rest => simp only [hearPolls]; split <;> simp [ih]

theorem hearOne_accesses {cfg : Cfg} {a : Ask} {env : List EnvSample} (h : (hearOne cfg a env).ending = .through) :
    (hearOne cfg a env).accesses = a.weight cfg + (hearOne cfg a env).polls := by
  cases a with
  | change => rfl
  | wait =>
    simp only [hearOne] at h ⊢
    split
    · rfl
    · simp [Ask.weight, hearPolls_accesses]
  | check low =>
    simp only [hearOne, Ask.weight, checks] at h ⊢
    split
    · next ha => cases env <;> simp_all
    · rfl
  | sample => cases env <;> simp_all [hearOne, Ask.weight]
  | buffer => rfl

/-- Along points that are all passed, the port accesses are those of the points and the polls (R126, R146). -/
theorem hear_accesses {cfg : Cfg} {as : List Ask} {env : List EnvSample} (h : (hear cfg as env).ending = .through) :
    (hear cfg as env).accesses = (as.map (Ask.weight cfg)).sum + (hear cfg as env).polls := by
  induction as generalizing env with
  | nil => rfl
  | cons a as ih =>
    have ho := hearOne_accesses (cfg := cfg) (a := a) (env := env)
    simp only [hear, Heard.andThen] at h ⊢
    split at h
    · next he =>
      have := ih h
      have := ho he
      simp only [List.map_cons, List.sum_cons]
      omega
    · next he => exact absurd h he

/-! ### A procedure that ends as it is heard -/

/-- `t` is `s` after the accesses that `h` counts, with the answers left that `h` leaves. -/
structure Between (s t : State) (h : Heard) : Prop where
  env : t.env = h.rest
  events : ∃ evs, t.history = s.history ++ evs ∧ portAccesses evs = h.accesses ∧
    (bufferReads evs).length + (bufferWrites evs).length = h.buffered

/-- Along the points `as`, `p` ends as they are heard on the answers that `s` holds: normally, in a value and a state that meet
`Q`, or by the condition, in a state that meets `E`; `Q` and `E` are given the samples. -/
def Hears (p : Proc α) (s : State) (as : List Ask) (Q : List Bool → α → State → Prop)
    (E : List Bool → BusCondition → State → Prop) : Prop :=
  match (hear s.cfg as s.env).ending with
  | .through => ∃ a t, p s = .ok a t ∧ Between s t (hear s.cfg as s.env) ∧ Q (hear s.cfg as s.env).levels a t
  | .lost => ∃ t, p s = .error .arbLost t ∧ Between s t (hear s.cfg as s.env) ∧
      E (hear s.cfg as s.env).levels .arbLost t
  | .timedOut => ∃ t, p s = .error .busTimeout t ∧ Between s t (hear s.cfg as s.env) ∧
      E (hear s.cfg as s.env).levels .busTimeout t
  | .unheard => True

variable {p : Proc α} {s : State} {as bs : List Ask} {Q Q' : List Bool → α → State → Prop}
  {E E' : List Bool → BusCondition → State → Prop}

theorem Hears.through (h : Hears p s as Q E) (he : (hear s.cfg as s.env).ending = .through) :
    ∃ a t, p s = .ok a t ∧ Between s t (hear s.cfg as s.env) ∧ Q (hear s.cfg as s.env).levels a t := by
  unfold Hears at h
  rw [he] at h
  exact h

theorem Hears.lost (h : Hears p s as Q E) (he : (hear s.cfg as s.env).ending = .lost) :
    ∃ t, p s = .error .arbLost t ∧ Between s t (hear s.cfg as s.env) ∧ E (hear s.cfg as s.env).levels .arbLost t := by
  unfold Hears at h
  rw [he] at h
  exact h

theorem Hears.timedOut (h : Hears p s as Q E) (he : (hear s.cfg as s.env).ending = .timedOut) :
    ∃ t, p s = .error .busTimeout t ∧ Between s t (hear s.cfg as s.env) ∧
      E (hear s.cfg as s.env).levels .busTimeout t := by
  unfold Hears at h
  rw [he] at h
  exact h

theorem Hears.imp (h : Hears p s as Q E) (hq : ∀ ls a t, Q ls a t → Q' ls a t) (he : ∀ ls c t, E ls c t → E' ls c t) :
    Hears p s as Q' E' := by
  unfold Hears at *
  split <;> simp_all only
  · obtain ⟨a, t, h1, h2, h3⟩ := h; exact ⟨a, t, h1, h2, hq _ _ _ h3⟩
  · obtain ⟨t, h1, h2, h3⟩ := h; exact ⟨t, h1, h2, he _ _ _ h3⟩
  · obtain ⟨t, h1, h2, h3⟩ := h; exact ⟨t, h1, h2, he _ _ _ h3⟩

theorem Hears.congr {p' : Proc α} (hp : p s = p' s) (h : Hears p s as Q E) : Hears p' s as Q E := by
  unfold Hears at *
  rw [← hp]
  exact h

/-- What holds of a procedure whatever it hears holds beside what it hears. -/
theorem Hears.and (h : Hears p s as Q E) {W : α → State → Prop} {F : BusCondition → State → Prop} (hw : Wp p s W F) :
    Hears p s as (fun ls a t => Q ls a t ∧ W a t) (fun ls c t => E ls c t ∧ F c t) := by
  unfold Hears at *
  split <;> simp_all only
  · obtain ⟨a, t, h1, h2, h3⟩ := h; exact ⟨a, t, h1, h2, h3, hw.of_ok h1⟩
  · obtain ⟨t, h1, h2, h3⟩ := h; exact ⟨t, h1, h2, h3, hw.of_error h1⟩
  · obtain ⟨t, h1, h2, h3⟩ := h; exact ⟨t, h1, h2, h3, hw.of_error h1⟩

theorem Hears.pure {a : α} (h : Q [] a s) : Hears (Pure.pure a) s [] Q E :=
  ⟨a, s, rfl, ⟨rfl, [], by simp, rfl, rfl⟩, h⟩

theorem Between.trans {s t u : State} {cfg : Cfg} {h : Heard} {as : List Ask} (h1 : Between s t h)
    (he : h.ending = .through) (h2 : Between t u (hear cfg as t.env)) : Between s u (h.andThen (hear cfg as)) := by
  obtain ⟨evs, e1, e2, e3⟩ := h1.events
  obtain ⟨evs', e1', e2', e3'⟩ := h2.events
  have hr := h2.env
  rw [h1.env] at e2' e3' hr
  unfold Heard.andThen
  rw [he]
  exact ⟨hr, evs ++ evs', by rw [e1', e1, List.append_assoc], by simp [e2, e2'], by simp [← e3, ← e3']; omega⟩

theorem Hears.bind {f : α → Proc β} {R : List Bool → β → State → Prop}
    (h : Hears p s as (fun ls a t => t.cfg = s.cfg ∧
      Hears (f a) t bs (fun ls' b u => R (ls ++ ls') b u) (fun ls' c u => E (ls ++ ls') c u)) E) :
    Hears (p >>= f) s (as ++ bs) R E := by
  unfold Hears at h ⊢
  rw [hear_append]
  cases he : (hear s.cfg as s.env).ending with
  | through =>
    rw [he] at h
    obtain ⟨a, t, hp, hb, hc, hf⟩ := h
    have hb' := fun u => Between.trans (u := u) (cfg := s.cfg) (as := bs) hb he
    rw [hc, hb.env] at hf
    rw [hb.env] at hb'
    have hx : ((hear s.cfg as s.env).andThen (hear s.cfg bs)).ending = (hear s.cfg bs (hear s.cfg as s.env).rest).ending ∧
        ((hear s.cfg as s.env).andThen (hear s.cfg bs)).levels =
          (hear s.cfg as s.env).levels ++ (hear s.cfg bs (hear s.cfg as s.env).rest).levels := by
      unfold Heard.andThen; rw [he]; exact ⟨rfl, rfl⟩
    rw [hx.1, hx.2]
    have hbind : ∀ r, f a t = r → (p >>= f) s = r := fun r hr => by rw [bind_run, hp]; exact hr
    cases hg : (hear s.cfg bs (hear s.cfg as s.env).rest).ending with
    | through => rw [hg] at hf; obtain ⟨b, u, h1, h2, h3⟩ := hf; exact ⟨b, u, hbind _ h1, hb' u h2, h3⟩
    | lost => rw [hg] at hf; obtain ⟨u, h1, h2, h3⟩ := hf; exact ⟨u, hbind _ h1, hb' u h2, h3⟩
    | timedOut => rw [hg] at hf; obtain ⟨u, h1, h2, h3⟩ := hf; exact ⟨u, hbind _ h1, hb' u h2, h3⟩
    | unheard => trivial
  | lost =>
    rw [he] at h
    obtain ⟨t, hp, hb, hc⟩ := h
    have hx : (hear s.cfg as s.env).andThen (hear s.cfg bs) = hear s.cfg as s.env := by unfold Heard.andThen; rw [he]
    rw [hx, he]
    exact ⟨t, by rw [bind_run, hp], hb, hc⟩
  | timedOut =>
    rw [he] at h
    obtain ⟨t, hp, hb, hc⟩ := h
    have hx : (hear s.cfg as s.env).andThen (hear s.cfg bs) = hear s.cfg as s.env := by unfold Heard.andThen; rw [he]
    rw [hx, he]
    exact ⟨t, by rw [bind_run, hp], hb, hc⟩
  | unheard =>
    have hx : (hear s.cfg as s.env).andThen (hear s.cfg bs) = hear s.cfg as s.env := by unfold Heard.andThen; rw [he]
    rw [hx, he]
    trivial

/-- A procedure that goes on with another that meets no point. -/
theorem Hears.bindLast {f : α → Proc β} {R : List Bool → β → State → Prop}
    (h : Hears p s as (fun ls a t => t.cfg = s.cfg ∧
      Hears (f a) t [] (fun ls' b u => R (ls ++ ls') b u) (fun ls' c u => E (ls ++ ls') c u)) E) :
    Hears (p >>= f) s as R E := by
  have := h.bind
  rwa [List.append_nil] at this

/-! ### Single points -/

theorem Hears.get_bind {f : State → Proc β} {R : List Bool → β → State → Prop} (h : Hears (f s) s as R E) :
    Hears (get >>= f) s as R E := by
  unfold Hears at *
  split <;> simp_all only [bind_run, get_run]

/-- A step that meets no point: it appends no event and takes no answer. -/
theorem Hears.silent_bind {g : State → α × State} {f : α → Proc β} {R : List Bool → β → State → Prop}
    (hc : (g s).2.cfg = s.cfg) (he : (g s).2.env = s.env) (hh : (g s).2.history = s.history)
    (h : Hears (f (g s).1) (g s).2 as R E) : Hears (modifyGet g >>= f) s as R E := by
  unfold Hears at *
  rw [hc, he] at h
  have hb : ∀ t x, Between (g s).2 t x → Between s t x := fun t x hb => ⟨hb.env, by rw [← hh]; exact hb.events⟩
  split at h
  · obtain ⟨a, t, h1, h2, h3⟩ := h; exact ⟨a, t, h1, hb _ _ h2, h3⟩
  · obtain ⟨t, h1, h2, h3⟩ := h; exact ⟨t, h1, hb _ _ h2, h3⟩
  · obtain ⟨t, h1, h2, h3⟩ := h; exact ⟨t, h1, hb _ _ h2, h3⟩
  · trivial

theorem Hears.mod_bind {g : State → State} {f : PUnit → Proc β} {R : List Bool → β → State → Prop}
    (hc : (g s).cfg = s.cfg) (he : (g s).env = s.env) (hh : (g s).history = s.history)
    (h : Hears (f ⟨⟩) (g s) as R E) : Hears (modify g >>= f) s as R E :=
  Hears.silent_bind (α := PUnit) (g := fun s => (PUnit.unit, g s)) hc he hh h

theorem hears_change (l : Line) (x : Bool) (s : State) :
    Hears (modify (rmwOut (outBit s.cfg l) x)) s [.change] (fun ls _ t => ls = [] ∧ t = rmwOut (outBit s.cfg l) x s) E := by
  refine ⟨⟨⟩, _, rfl, ⟨?_, ?_⟩, rfl, rfl⟩
  · rw [rmwOut_eq]
    show (if s.cfg.portOutAddr = s.cfg.portInAddr then s.env.tail else s.env) = s.env.drop (sharedSamples s.cfg 1)
    unfold sharedSamples
    by_cases h : s.cfg.portInAddr = s.cfg.portOutAddr
    · simp [h, List.drop_one]
    · simp [h, Ne.symm h]
  · exact ⟨_, by rw [rmwOut_eq], rfl, rfl⟩

/-- A line change at the front. -/
theorem Hears.change_bind {l : Line} {x : Bool} {g : State → State} {f : PUnit → Proc β} {R : List Bool → β → State → Prop}
    (hg : g s = rmwOut (outBit s.cfg l) x s) (h : Hears (f ⟨⟩) (g s) bs R E) :
    Hears (modify g >>= f) s (.change :: bs) R E := by
  refine Hears.bind (as := [.change]) ((Hears.congr (p := modify (rmwOut (outBit s.cfg l) x)) (by simp [hg])
    (hears_change l x s)).imp (fun ls a t ht => ?_) (fun _ _ _ h => h))
  obtain ⟨rfl, rfl⟩ := ht
  rw [hg] at h
  exact ⟨by simp, by simpa using h⟩

theorem Hears.release_bind {l : Line} {f : PUnit → Proc β} {R : List Bool → β → State → Prop}
    (h : Hears (f ⟨⟩) (releaseLine l s) bs R E) : Hears (modify (releaseLine l) >>= f) s (.change :: bs) R E :=
  Hears.change_bind rfl h

theorem Hears.driveLow_bind {l : Line} {f : PUnit → Proc β} {R : List Bool → β → State → Prop}
    (h : Hears (f ⟨⟩) (driveLineLow l s) bs R E) : Hears (modify (driveLineLow l) >>= f) s (.change :: bs) R E :=
  Hears.change_bind rfl h

theorem Hears.setData_bind {v : Bool} {f : PUnit → Proc β} {R : List Bool → β → State → Prop}
    (h : Hears (f ⟨⟩) (setData v s) bs R E) : Hears (modify (setData v) >>= f) s (.change :: bs) R E :=
  Hears.change_bind (l := .data) (x := if v then relBit s.cfg else !relBit s.cfg) (by cases v <;> rfl) h

theorem hears_driveLow (l : Line) (s : State) (E : List Bool → BusCondition → State → Prop) :
    Hears (modify (driveLineLow l)) s [.change] (fun ls _ t => ls = [] ∧ t = driveLineLow l s) E :=
  (hears_change (E := E) l (!relBit s.cfg) s).congr rfl

/-- A line's sample: what it returns, and the answer it takes. -/
theorem readLine_between (l : Line) (s : State) {e : EnvSample} {rest : List EnvSample} (h : s.env = e :: rest) {ls : List Bool}
    {en : Ending} {pl : Nat} : Between s (readLine l s).2 ⟨en, 1, pl, ls, 0, rest⟩ := by
  rw [readLine_eq s l h]
  exact ⟨rfl, [_], rfl, rfl, rfl⟩

theorem pollClock_hears (n : Nat) (s : State) (hw : s.cfg.wellFormed = true) (hc : engineLow s .clock = false) :
    match (hearPolls n s.env).ending with
    | .through => ∃ t, pollClock n s = .ok () t ∧ Between s t (hearPolls n s.env)
    | .lost => False
    | .timedOut => ∃ t, pollClock n s = .error .busTimeout t ∧ Between s t (hearPolls n s.env)
    | .unheard => True := by
  induction n generalizing s with
  | zero => exact ⟨s, rfl, rfl, [], by simp, rfl, rfl⟩
  | succ n ih =>
    cases he : s.env with
    | nil => trivial
    | cons e rest =>
      have hr := readLine_of_answer s hw .clock he
      have hb := fun ls en pl => readLine_between .clock s he (ls := ls) (en := en) (pl := pl)
      have hs := readLine_eq s .clock he
      simp only [EnvSample.low, hc] at hr
      simp only [hearPolls, pollClock, bind_run, modifyGet_run, hr]
      cases hl : e.clockLow with
      | false =>
        exact ⟨_, rfl, hb [] .through 1⟩
      | true =>
        have := ih (readLine .clock s).2 (by rw [hs]; exact hw) (by rw [hs]; exact hc)
        have hrest : (readLine .clock s).2.env = rest := by rw [hs]
        rw [hrest] at this
        have step : ∀ t en, Between (readLine .clock s).2 t (hearPolls n rest) → Between s t
            ⟨en, (hearPolls n rest).accesses + 1, (hearPolls n rest).polls + 1, (hearPolls n rest).levels,
              (hearPolls n rest).buffered, (hearPolls n rest).rest⟩ := by
          intro t _ ⟨h1, evs, h2, h3, h4⟩
          obtain ⟨-, evs', h2', h3', h4'⟩ := hb [] .through 1
          refine ⟨h1, evs' ++ evs, by rw [h2, h2', List.append_assoc], by simp [h3, h3', Nat.add_comm], ?_⟩
          simp only [bufferReads_append, bufferWrites_append, List.length_append]
          simp only at h4'
          omega
        simp only [if_true, Bool.not_true, Bool.and_false, Bool.false_eq_true, if_false]
        split at this
        · obtain ⟨t, h1, h2⟩ := this; exact ⟨t, h1, step t _ h2⟩
        · exact this.elim
        · obtain ⟨t, h1, h2⟩ := this; exact ⟨t, h1, step t _ h2⟩
        · trivial

theorem hear_one (cfg : Cfg) (a : Ask) (env : List EnvSample) : hear cfg [a] env = hearOne cfg a env := by
  simp only [hear, Heard.andThen]
  split
  · next h => cases hx : hearOne cfg a env; simp_all
  · rfl

/-- The stretch wait, CLOCK being released (R120). -/
theorem stretchWait_hears (s : State) (hw : s.cfg.wellFormed = true) (hc : engineLow s .clock = false) :
    Hears stretchWait s [.wait] (fun ls _ t => ls = [] ∧ Sampled s t) (fun ls _ _ => ls = []) := by
  have hwp := stretchWait_wp s
  have : Hears stretchWait s [.wait] (fun ls _ _ => ls = []) (fun ls _ _ => ls = []) := by
    unfold Hears
    rw [hear_one]
    have hst : stretchWait s = match s.cfg.stretch with | .none => .ok () s | .wait n => pollClock n.toNat s := by
      simp only [stretchWait, bind_run, get_run]
      cases s.cfg.stretch <;> rfl
    rw [hst]
    simp only [hearOne]
    cases hs : s.cfg.stretch with
    | none => exact ⟨_, _, rfl, ⟨rfl, [], by simp, rfl, rfl⟩, rfl⟩
    | wait n =>
      have := pollClock_hears n.toNat s hw hc
      have hl := (hearPolls_levels n.toNat s.env).1
      simp only
      split at this
      · obtain ⟨t, h1, h2⟩ := this; exact ⟨_, t, h1, h2, hl⟩
      · exact this.elim
      · obtain ⟨t, h1, h2⟩ := this; exact ⟨t, h1, h2, hl⟩
      · trivial
  exact (this.and hwp).imp (fun _ _ _ h => h) (fun _ _ _ h => h.1)

/-- The arbitration check, the engine's drive of DATA being known (R121). -/
theorem arbCheck_hears (s : State) (hw : s.cfg.wellFormed = true) {low : Bool} (hd : engineLow s .data = low) :
    Hears arbCheck s [.check low] (fun ls _ t => ls = [] ∧ Sampled s t) (fun ls _ _ => ls = []) := by
  have hwp := arbCheck_wp s
  have : Hears arbCheck s [.check low] (fun ls _ _ => ls = []) (fun ls _ _ => ls = []) := by
    unfold Hears
    rw [hear_one]
    have har : arbCheck s = if s.cfg.arbDetect then
        (if (readLine .data s).1 then .ok () (readLine .data s).2 else .error .arbLost (readLine .data s).2) else .ok () s := by
      simp only [arbCheck, bind_run, get_run]
      cases s.cfg.arbDetect with
      | false => rfl
      | true =>
        simp only [onlyIf_true, sampleArbitration, bind_run, modifyGet_run, if_true]
        cases (readLine .data s).1 <;> rfl
    rw [har]
    cases ha : s.cfg.arbDetect with
    | false =>
      have hh : hearOne s.cfg (.check low) s.env = ⟨.through, 0, 0, [], 0, s.env⟩ := by simp [hearOne, ha]
      rw [hh]
      exact ⟨_, _, rfl, ⟨rfl, [], by simp, rfl, rfl⟩, rfl⟩
    | true =>
      cases he : s.env with
      | nil =>
        have hh : hearOne s.cfg (.check low) [] = ⟨.unheard, 0, 0, [], 0, []⟩ := by simp [hearOne, ha]
        rw [hh]
        trivial
      | cons e rest =>
        have hh : hearOne s.cfg (.check low) (e :: rest) = ⟨if low || e.dataLow then .lost else .through, 1, 0, [], 0, rest⟩ := by
          simp [hearOne, ha]
        have hr := readLine_of_answer s hw .data he
        rw [hh, hr, hd]
        simp only [EnvSample.low, ← Bool.not_or]
        cases low || e.dataLow
        · exact ⟨_, _, rfl, readLine_between .data s he, trivial⟩
        · exact ⟨_, rfl, readLine_between .data s he, trivial⟩
  exact (this.and hwp).imp (fun _ _ _ h => h) (fun _ _ _ h => h.1)

/-- A sample of DATA, being released. -/
theorem sample_hears (s : State) (hw : s.cfg.wellFormed = true) (hd : engineLow s .data = false) :
    Hears (modifyGet (readLine .data)) s [.sample] (fun ls x t => ls = [x] ∧ Sampled s t) E := by
  unfold Hears
  rw [hear_one]
  cases he : s.env with
  | nil => trivial
  | cons e rest =>
    have hr := readLine_of_answer s hw .data he
    rw [hd] at hr
    refine ⟨(readLine .data s).1, (readLine .data s).2, rfl, readLine_between .data s he, ?_, readLine_sampled .data s⟩
    rw [hr]
    simp [EnvSample.low, hearOne]

/-! ### Bits -/

/-- `WriteBit(v)` (R122). -/
theorem writeBit_hears (v : Bool) (s : State) (hw : s.cfg.wellFormed = true) :
    Hears (writeBit v) s (writeAsks v) (fun ls _ t => ls = [] ∧ Pulsed s v t) (fun ls _ t => ls = [] ∧ SameButLines s t) := by
  have : Hears (writeBit v) s (writeAsks v) (fun ls _ _ => ls = []) (fun ls _ _ => ls = []) := by
    have m1 : SameButLines s (setData v s) := (setData_lineRun v s).same
    have w1 : (setData v s).cfg.wellFormed = true := by rw [m1.cfg]; exact hw
    have m2 := m1.trans (releaseLine_lineRun .clock (setData v s)).same
    have w2 : (releaseLine .clock (setData v s)).cfg.wellFormed = true := by rw [m2.cfg]; exact hw
    have e2 := engineLow_releaseLine _ w1 .clock
    unfold writeBit
    refine Hears.setData_bind (Hears.release_bind (Hears.bind (as := [.wait])
      ((stretchWait_hears _ w2 (by rw [e2, if_pos rfl])).imp (fun ls _ s3 h3 => ⟨h3.2.same.cfg, ?_⟩) (fun _ _ _ h => h))))
    obtain ⟨rfl, h3⟩ := h3
    have w3 : s3.cfg.wellFormed = true := by rw [h3.same.cfg]; exact w2
    have harb : Hears (onlyIf v arbCheck) s3 (if v then [.check false] else []) (fun ls _ t => ls = [] ∧ Sampled s3 t)
        (fun ls _ _ => ls = []) := by
      cases v with
      | false => exact Hears.pure ⟨rfl, .refl s3⟩
      | true =>
        refine arbCheck_hears s3 w3 ?_
        rw [h3.engineLow, e2, if_neg (by decide), engineLow_setData s hw]
        simp
    refine Hears.bind (harb.imp (fun ls _ s4 h4 => ⟨h4.2.same.cfg, ?_⟩) (fun _ _ _ h => h))
    obtain ⟨rfl, h4⟩ := h4
    exact (hears_driveLow .clock s4 _).imp (fun _ _ _ h => h.1) (fun _ _ _ h => h)
  exact (this.and (writeBit_wp v s hw)).imp (fun _ _ _ h => h) (fun _ _ _ h => ⟨h.1, h.2.2.1⟩)

/-- `ReadBit()` (R123). -/
theorem readBit_hears (s : State) (hw : s.cfg.wellFormed = true) :
    Hears readBit s readAsks (fun ls x t => ls = [x] ∧ Pulsed s true t) (fun ls _ t => ls = [] ∧ SameButLines s t) := by
  have : Hears readBit s readAsks (fun ls x _ => ls = [x]) (fun ls _ _ => ls = []) := by
    have m1 : SameButLines s (releaseLine .data s) := (releaseLine_lineRun .data s).same
    have w1 : (releaseLine .data s).cfg.wellFormed = true := by rw [m1.cfg]; exact hw
    have e1 := engineLow_releaseLine s hw .data
    have m2 := m1.trans (releaseLine_lineRun .clock (releaseLine .data s)).same
    have w2 : (releaseLine .clock (releaseLine .data s)).cfg.wellFormed = true := by rw [m2.cfg]; exact hw
    have e2 := engineLow_releaseLine _ w1 .clock
    unfold readBit
    refine Hears.release_bind (Hears.release_bind (Hears.bind (as := [.wait])
      ((stretchWait_hears _ w2 (by rw [e2, if_pos rfl])).imp (fun ls _ s3 h3 => ⟨h3.2.same.cfg, ?_⟩) (fun _ _ _ h => h))))
    obtain ⟨rfl, h3⟩ := h3
    have w3 : s3.cfg.wellFormed = true := by rw [h3.same.cfg]; exact w2
    refine Hears.bind (as := [.sample]) ((sample_hears s3 w3 (by rw [h3.engineLow, e2, e1]; simp)).imp
      (fun ls x s4 h4 => ⟨h4.2.same.cfg, ?_⟩) (fun _ _ _ h => h))
    obtain ⟨rfl, h4⟩ := h4
    exact Hears.driveLow_bind (Hears.pure rfl)
  exact (this.and (readBit_wp s hw)).imp (fun _ _ _ h => h) (fun _ _ _ h => ⟨h.1, h.2.2.1⟩)

/-! ### START and STOP -/

/-- `Start()` (R141). -/
theorem startCondition_hears (s : State) (hw : s.cfg.wellFormed = true) :
    Hears startCondition s (startAsks s) (fun ls _ _ => ls = []) (fun ls _ _ => ls = []) := by
  unfold startCondition
  refine Hears.get_bind ?_
  have rest : ∀ (s1 : State) (low : Bool), s1.cfg.wellFormed = true → engineLow s1 .data = low →
      Hears (do
        arbCheck
        modify (driveLineLow .data)
        modify (driveLineLow .clock)
        modify (·.setStarted true)) s1 [.check low, .change, .change] (fun ls _ _ => ls = []) (fun ls _ _ => ls = []) := by
    intro s1 low w1 hd
    refine Hears.bind (as := [.check low]) ((arbCheck_hears s1 w1 hd).imp (fun ls _ s2 h2 => ⟨h2.2.same.cfg, ?_⟩)
      (fun _ _ _ h => h))
    obtain ⟨rfl, h2⟩ := h2
    refine Hears.driveLow_bind (Hears.driveLow_bind ?_)
    exact ⟨_, _, rfl, ⟨rfl, [], by simp, rfl, rfl⟩, rfl⟩
  unfold startAsks
  cases hst : s.started with
  | false => exact rest s (engineLow s .data) hw rfl
  | true =>
    have w1 : (releaseLine .data s).cfg.wellFormed = true := by rw [(releaseLine_lineRun .data s).same.cfg]; exact hw
    have e1 := engineLow_releaseLine s hw .data
    have m2 := (releaseLine_lineRun .data s).same.trans (releaseLine_lineRun .clock (releaseLine .data s)).same
    have w2 : (releaseLine .clock (releaseLine .data s)).cfg.wellFormed = true := by rw [m2.cfg]; exact hw
    have e2 := engineLow_releaseLine _ w1 .clock
    refine Hears.bind (as := [.change, .change, .wait]) (bs := [.check false, .change, .change]) ?_
    refine (?_ : Hears reopenLines s [.change, .change, .wait] (fun ls _ t => ls = [] ∧ t.cfg = s.cfg ∧
      engineLow t .data = false) (fun ls _ _ => ls = [])).imp (fun ls _ t h => ⟨h.2.1, ?_⟩) (fun _ _ _ h => h)
    · refine Hears.release_bind (Hears.release_bind ((stretchWait_hears _ w2 (by rw [e2, if_pos rfl])).imp
        (fun _ _ _ h => ⟨h.1, h.2.same.cfg.trans m2.cfg, ?_⟩) (fun _ _ _ h => h)))
      rw [h.2.engineLow, e2, e1]; simp
    · obtain ⟨rfl, hc, hd⟩ := h
      exact rest t false (by rw [hc]; exact hw) hd

/-- `Stop()` (R142). -/
theorem stopCondition_hears (s : State) (hw : s.cfg.wellFormed = true) :
    Hears stopCondition s stopAsks (fun ls _ _ => ls = []) (fun ls _ _ => ls = []) := by
  have w1 : (driveLineLow .data s).cfg.wellFormed = true := by rw [(driveLineLow_lineRun .data s).same.cfg]; exact hw
  have m2 := (driveLineLow_lineRun .data s).same.trans (releaseLine_lineRun .clock (driveLineLow .data s)).same
  have w2 : (releaseLine .clock (driveLineLow .data s)).cfg.wellFormed = true := by rw [m2.cfg]; exact hw
  have e2 := engineLow_releaseLine _ w1 .clock
  unfold stopCondition
  refine Hears.driveLow_bind (Hears.release_bind (Hears.bind (as := [.wait])
    ((stretchWait_hears _ w2 (by rw [e2, if_pos rfl])).imp (fun ls _ s3 h3 => ⟨h3.2.same.cfg, ?_⟩) (fun _ _ _ h => h))))
  obtain ⟨rfl, h3⟩ := h3
  have w3 : s3.cfg.wellFormed = true := by rw [h3.same.cfg]; exact w2
  have w4 : (releaseLine .data s3).cfg.wellFormed = true := by rw [(releaseLine_lineRun .data s3).same.cfg]; exact w3
  refine Hears.release_bind (Hears.bind (as := [.check false]) (bs := []) ((arbCheck_hears _ w4
    (by rw [engineLow_releaseLine _ w3, if_pos rfl])).imp (fun ls _ s5 h5 => ⟨h5.2.same.cfg, ?_⟩) (fun _ _ _ h => h)))
  obtain ⟨rfl, h5⟩ := h5
  refine ⟨_, _, rfl, ⟨?_, [], ?_, rfl, rfl⟩, rfl⟩ <;> (unfold closeTransaction; split <;> simp [State.setStarted, hear])

/-! ### Bytes -/

theorem sendBits_hears (n : Nat) (s : State) (hw : s.cfg.wellFormed = true) (hb : s.bitcnt.toNat + n ≤ 8) :
    Hears (sendBits n) s ((bitsToSend s n).flatMap writeAsks) (fun ls _ _ => ls = []) (fun _ _ _ => True) := by
  induction n generalizing s with
  | zero => exact Hears.pure rfl
  | succ n ih =>
    refine Hears.get_bind ?_
    have hs : bitsToSend s (n + 1) = nextBitOut s :: bitsToSend (countBit s) n :=
      bitsToSend_succ s (countBit s) n rfl (succ_bitcnt hb)
    rw [hs, List.flatMap_cons]
    refine Hears.bind ((writeBit_hears _ s hw).imp (fun ls _ t h => ⟨h.2.same.cfg, ?_⟩) (fun _ _ _ _ => trivial))
    obtain ⟨rfl, h⟩ := h
    have hsh : (countBit t).shift = (countBit s).shift := h.same.shift
    have hbc : (countBit t).bitcnt = (countBit s).bitcnt := by show t.bitcnt + 1#4 = _; rw [h.same.bitcnt]; rfl
    have hn : (countBit s).bitcnt.toNat = s.bitcnt.toNat + 1 := succ_bitcnt hb
    refine Hears.mod_bind rfl rfl rfl ?_
    have := ih (countBit t) (by rw [show (countBit t).cfg = s.cfg from h.same.cfg]; exact hw) (by rw [hbc]; omega)
    rw [show bitsToSend (countBit t) n = bitsToSend (countBit s) n by simp [bitsToSend, hsh, hbc]] at this
    exact this

/-- `WriteByte(b)` (R143). -/
theorem writeByte_hears (b : Byte) (s : State) (hw : s.cfg.wellFormed = true) :
    Hears (writeByte b) s (writeByteAsks b)
      (fun ls r t => ls = [r] ∧ SameButLines ((s.setShift b).setBitcnt 8#4) t ∧
        engineLow t .clock = isOutput s s.cfg.clkOutBit ∧ engineLow t .data = false) (fun _ _ t => SameButByte s t) := by
  have : Hears (writeByte b) s (writeByteAsks b) (fun ls r _ => ls = [r]) (fun _ _ _ => True) := by
    refine Hears.mod_bind rfl rfl rfl ?_
    have h1 := (sendBits_hears 8 (loadShift b s) hw (by simp [loadShift])).and
      (sendBits_wp 8 (loadShift b s) hw (by simp [loadShift]))
    rw [bitsToSend_loaded] at h1
    refine Hears.bind (h1.imp (fun ls _ t h => ⟨h.2.1.cfg, ?_⟩) (fun _ _ _ _ => trivial))
    obtain ⟨rfl, h, -⟩ := h
    exact (readBit_hears t (by rw [h.cfg]; exact hw)).imp (fun _ _ _ h => h.1) (fun _ _ _ _ => trivial)
  exact (this.and (writeByte_wp b s hw)).imp (fun _ _ _ h => ⟨h.1, h.2.1, h.2.2.1, h.2.2.2.1⟩) (fun _ _ _ h => h.2.2.1)

theorem receiveBits_hears (n : Nat) (s : State) (hw : s.cfg.wellFormed = true) :
    Hears (receiveBits n) s (List.replicate n readAsks).flatten
      (fun ls _ t => ls.length = n ∧ t.shift = ls.foldl shiftIn s.shift) (fun _ _ _ => True) := by
  induction n generalizing s with
  | zero => exact Hears.pure ⟨rfl, rfl⟩
  | succ n ih =>
    rw [List.replicate_succ, List.flatten_cons]
    refine Hears.bind ((readBit_hears s hw).imp (fun ls x t h => ⟨h.2.same.cfg, ?_⟩) (fun _ _ _ _ => trivial))
    obtain ⟨rfl, h⟩ := h
    refine Hears.mod_bind rfl rfl rfl ((ih _ (by show t.cfg.wellFormed = true; rw [h.same.cfg]; exact hw)).imp
      (fun ls _ u h' => ⟨by simp [h'.1], ?_⟩) (fun _ _ _ _ => trivial))
    rw [h'.2]
    show ls.foldl shiftIn (shiftIn t.shift x) = _
    rw [h.same.shift]; rfl

/-- `ReadByte(last)` (R144). -/
theorem readByte_hears (last : Bool) (s : State) (hw : s.cfg.wellFormed = true) :
    Hears (readByte last) s (readByteAsks last)
      (fun ls r t => ls.length = 8 ∧ r = byteOfMsbFirst ls ∧ SameButLines ((s.setShift r).setBitcnt 8#4) t ∧
        engineLow t .clock = isOutput s s.cfg.clkOutBit ∧
        engineLow t .data = (isOutput s s.cfg.dataOutBit && !last)) (fun _ _ t => SameButByte s t) := by
  have : Hears (readByte last) s (readByteAsks last) (fun ls r _ => ls.length = 8 ∧ r = byteOfMsbFirst ls)
      (fun _ _ _ => True) := by
    refine Hears.mod_bind rfl rfl rfl ?_
    refine Hears.bind (((receiveBits_hears 8 (loadShift 0x00#8 s) hw).and (receiveBits_wp 8 (loadShift 0x00#8 s) hw)).imp
      (fun ls _ t h => ⟨h.2.1.cfg, ?_⟩) (fun _ _ _ _ => trivial))
    refine Hears.bindLast ((writeBit_hears last t (by rw [h.2.1.cfg]; exact hw)).imp (fun ls' _ u h' => ⟨h'.2.same.cfg, ?_⟩)
      (fun _ _ _ _ => trivial))
    obtain ⟨rfl, h'⟩ := h'
    refine Hears.get_bind (Hears.pure ?_)
    simp only [List.append_nil]
    refine ⟨h.1.1, ?_⟩
    rw [h'.same.shift, h.1.2]; rfl
  exact (this.and (readByte_wp last s hw)).imp (fun _ _ _ h => ⟨h.1.1, h.1.2, h.2.1, h.2.2.1, h.2.2.2.1⟩)
    (fun _ _ _ h => h.2.2.1)

/-! ### Transactions -/

/-- A buffer access that a loop makes. -/
theorem Hears.buffer_bind {g : State → α × State} {f : α → Proc β} {R : List Bool → β → State → Prop}
    (hc : (g s).2.cfg = s.cfg) (he : (g s).2.env = s.env)
    (hh : ∃ evs, (g s).2.history = s.history ++ evs ∧ portAccesses evs = 0 ∧
      (bufferReads evs).length + (bufferWrites evs).length = 1)
    (h : Hears (f (g s).1) (g s).2 bs R E) : Hears (modifyGet g >>= f) s (.buffer :: bs) R E :=
  Hears.bind (as := [.buffer]) (bs := bs) ⟨_, _, rfl, ⟨he, hh⟩, hc, h⟩

theorem sendBytes_hears (buf : Word) (n : Nat) (s : State) (hw : s.cfg.wellFormed = true) :
    Hears (sendBytes buf n) s ((readsFrom s.mem buf s.idx n).flatMap fun av => .buffer :: writeByteAsks av.2)
      (fun ls _ t => ls.length = n ∧ t.nackacc = (s.nackacc || ls.any id)) (fun _ _ _ => True) := by
  induction n generalizing s with
  | zero => exact Hears.pure ⟨rfl, by simp⟩
  | succ n ih =>
    rw [readsFrom_succ, List.flatMap_cons]
    refine Hears.get_bind (Hears.buffer_bind rfl rfl ⟨[_], rfl, rfl, rfl⟩ ?_)
    refine Hears.bind ((writeByte_hears (readCell s.mem (buf + s.idx).toNat) (memRead (buf + s.idx) s).2 hw).imp
      (fun ls x t h => ⟨?_, ?_⟩) (fun _ _ _ _ => trivial))
    · rw [h.2.1.cfg]; rfl
    obtain ⟨rfl, h⟩ := h
    have hm : t.mem = s.mem := h.1.mem
    have hi : t.idx = s.idx := h.1.idx
    have hk : t.nackacc = s.nackacc := h.1.nackacc
    have hc : t.cfg = s.cfg := h.1.cfg
    refine Hears.mod_bind rfl rfl rfl (Hears.mod_bind rfl rfl rfl ?_)
    have := ih (nextIndex (accumulateNack x t)) (by rw [show (nextIndex (accumulateNack x t)).cfg = s.cfg from hc]; exact hw)
    rw [show (nextIndex (accumulateNack x t)).mem = s.mem from hm,
      show (nextIndex (accumulateNack x t)).idx = s.idx + 1#16 by show t.idx + 1#16 = _; rw [hi],
      show (nextIndex (accumulateNack x t)).nackacc = (s.nackacc || x) by show (t.nackacc || x) = _; rw [hk]] at this
    exact this.imp (fun ls _ u h' => ⟨by simp [h'.1], by rw [h'.2]; simp [Bool.or_assoc]⟩) (fun _ _ _ _ => trivial)

/-- WRBYTES (R172). -/
theorem writeBytes_hears (st p : Bool) (buf len : Word) (s : State) (hw : s.cfg.wellFormed = true) :
    Hears (writeBytes st p buf len) s (asksOf s (.wrbytes st p buf len))
      (fun ls r t => ls.length = len.toNat ∧ t.nackacc = ls.any id ∧ r = byteOfBit (ls.any id)) (fun _ _ _ => True) := by
  refine Hears.mod_bind rfl rfl rfl ?_
  simp only [asksOf, List.append_assoc]
  have hstart : Hears (onlyIf st startCondition) (clearNack s) (if st then startAsks s else []) (fun ls _ _ => ls = [])
      (fun _ _ _ => True) := by
    cases st with
    | false => exact Hears.pure rfl
    | true => exact (startCondition_hears (clearNack s) hw).imp (fun _ _ _ h => h) (fun _ _ _ _ => trivial)
  refine Hears.bind ((hstart.and (onlyIf_start_wp st (clearNack s) hw)).imp (fun ls _ s1 h1 => ⟨?_, ?_⟩)
    (fun _ _ _ _ => trivial))
  · rw [h1.2.1.cfg]; rfl
  obtain ⟨rfl, h1, -⟩ := h1
  have c1 : s1.cfg = s.cfg := by rw [h1.cfg]; rfl
  have m1 : s1.mem = s.mem := by rw [h1.mem]; rfl
  have k1 : s1.nackacc = false := by rw [h1.nackacc]; rfl
  refine Hears.mod_bind rfl rfl rfl ?_
  have hs := (sendBytes_hears buf len.toNat (s1.setIdx 0#16) (by show s1.cfg.wellFormed = true; rw [c1]; exact hw)).and
    (sendBytes_wp buf len.toNat (s1.setIdx 0#16) (by show s1.cfg.wellFormed = true; rw [c1]; exact hw))
  rw [show (s1.setIdx 0#16).mem = s.mem from m1, show (s1.setIdx 0#16).idx = 0#16 from rfl,
    show (s1.setIdx 0#16).nackacc = false from k1] at hs
  have ha : (bufferBytes s.mem buf len).flatMap (fun b => Ask.buffer :: writeByteAsks b) =
      (readsFrom s.mem buf 0#16 len.toNat).flatMap fun av => .buffer :: writeByteAsks av.2 := by
    rw [show (0#16 : Word) = 0 from rfl, readsFrom_zero, bufferBytes, List.flatMap_map, List.flatMap_map]
  rw [ha]
  refine Hears.bind (hs.imp (fun ls _ s2 h2 => ⟨h2.2.1.cfg, ?_⟩) (fun _ _ _ _ => trivial))
  have c2 : s2.cfg = s.cfg := h2.2.1.cfg.trans c1
  have hstop : Hears (onlyIf p stopCondition) s2 (if p then stopAsks else []) (fun ls _ _ => ls = []) (fun _ _ _ => True) := by
    cases p with
    | false => exact Hears.pure rfl
    | true => exact (stopCondition_hears s2 (by rw [c2]; exact hw)).imp (fun _ _ _ h => h) (fun _ _ _ _ => trivial)
  refine Hears.bindLast ((hstop.and (onlyIf_stop_wp p s2 (by rw [c2]; exact hw))).imp (fun ls' _ s3 h3 => ⟨?_, ?_⟩)
    (fun _ _ _ _ => trivial))
  · rw [h3.2.1.cfg]; rfl
  obtain ⟨rfl, h3, -⟩ := h3
  have k3 : s3.nackacc = ls.any id := by rw [h3.nackacc]; show s2.nackacc = _; rw [h2.1.2]; rfl
  refine Hears.get_bind (Hears.pure ?_)
  simp only [List.nil_append, List.append_nil]
  exact ⟨h2.1.1, k3, by rw [k3]⟩

/-- The writes of the first `n` bytes that samples make, from index `idx` on. -/
def writesFrom (buf idx : Word) (ls : List Bool) (n : Nat) : List (Word × Byte) :=
  (List.range n).map fun k => (buf + (idx + BitVec.ofNat 16 k), byteSampled ls k)

theorem byteSampled_zero {ls ls' : List Bool} (h : ls.length = 8) : byteSampled (ls ++ ls') 0 = byteOfMsbFirst ls := by
  simp [byteSampled, h]

theorem byteSampled_succ {ls ls' : List Bool} (h : ls.length = 8) (k : Nat) :
    byteSampled (ls ++ ls') (k + 1) = byteSampled ls' k := by
  unfold byteSampled
  rw [List.drop_append, List.drop_eq_nil_of_le (by omega), List.nil_append, h]
  congr 3

theorem writesFrom_succ (buf idx : Word) {ls ls' : List Bool} (h : ls.length = 8) (n : Nat) :
    writesFrom buf idx (ls ++ ls') (n + 1) = (buf + idx, byteOfMsbFirst ls) :: writesFrom buf (idx + 1#16) ls' n := by
  unfold writesFrom
  rw [List.range_succ_eq_map, List.map_cons, List.map_map]
  have : ∀ k, idx + BitVec.ofNat 16 (k + 1) = idx + 1#16 + BitVec.ofNat 16 k := by
    intro k; rw [BitVec.ofNat_add, BitVec.add_assoc, BitVec.add_comm (BitVec.ofNat 16 k)]
  refine congrArg₂ List.cons (by rw [byteSampled_zero h]; simp) (List.map_congr_left fun k _ => ?_)
  simp only [Function.comp, Nat.succ_eq_add_one]
  rw [this, byteSampled_succ h]

theorem receiveBytes_hears (buf len : Word) (n : Nat) (r : Byte) (s : State) (hw : s.cfg.wellFormed = true)
    (hn : s.idx.toNat + n = len.toNat) :
    Hears (receiveBytes buf len r n) s
      ((List.range n).flatMap fun i => readByteAsks (decide (i + 1 = n)) ++ [.buffer])
      (fun ls r' t => ls.length = 8 * n ∧ (r' = if n = 0 then r else byteSampled ls (n - 1)) ∧
        Touched s t [] (writesFrom buf s.idx ls n))
      (fun ls _ t => ∃ k ≤ n, Touched s t [] (writesFrom buf s.idx ls k)) := by
  induction n generalizing s r with
  | zero => exact Hears.pure ⟨rfl, rfl, Touched.refl s⟩
  | succ n ih =>
    have ha : ((List.range (n + 1)).flatMap fun i => readByteAsks (decide (i + 1 = n + 1)) ++ [Ask.buffer]) =
        readByteAsks (decide (n = 0)) ++ (.buffer :: (List.range n).flatMap fun i => readByteAsks (decide (i + 1 = n)) ++ [.buffer]) := by
      rw [List.range_succ_eq_map, List.flatMap_cons, List.flatMap_map, List.append_assoc]
      congr 1
      · simp
      · simp
    rw [ha]
    refine Hears.get_bind ?_
    rw [idx_last hn]
    refine Hears.bind (((readByte_hears _ s hw).and (wp_of (readByte_untouched _) s)).imp
      (fun ls r' u h => ⟨?_, ?_⟩) (fun ls _ u h => ⟨0, by omega, h.2.1⟩))
    · rw [h.1.2.2.1.cfg]; rfl
    obtain ⟨⟨h8, hr, h, -⟩, hu⟩ := h
    have hc : u.cfg = s.cfg := h.cfg
    have hi : u.idx = s.idx := h.idx
    refine Hears.buffer_bind (g := fun s => (PUnit.unit, memWrite (buf + s.idx) r' s)) rfl rfl ⟨[_], rfl, rfl, rfl⟩ ?_
    refine Hears.mod_bind rfl rfl rfl ?_
    have ht : Touched s (nextIndex (memWrite (buf + u.idx) r' u)) [] [(buf + s.idx, r')] := by
      have h1 : Touched u (nextIndex (memWrite (buf + u.idx) r' u)) [] [(buf + u.idx, r')] := ⟨⟨[_], rfl, rfl, rfl⟩, rfl⟩
      rw [hi] at h1 ⊢
      exact hu.1.trans h1
    have hi' : (nextIndex (memWrite (buf + u.idx) r' u)).idx = s.idx + 1#16 := by show u.idx + 1#16 = _; rw [hi]
    have := ih r' (nextIndex (memWrite (buf + u.idx) r' u))
      (by rw [show (nextIndex (memWrite (buf + u.idx) r' u)).cfg = s.cfg from hc]; exact hw)
      (by rw [hi', BitVec.toNat_add, BitVec.toNat_ofNat]; omega)
    rw [hi'] at this
    refine this.imp (fun ls' r'' t h' => ⟨by simp [h8, h'.1]; omega, ?_, ?_⟩) (fun ls' _ t ⟨k, hk, h'⟩ => ⟨k + 1, by omega, ?_⟩)
    · have hv := h'.2.1
      cases n with
      | zero => simpa [byteSampled_zero h8, ← hr] using hv
      | succ m => simpa [byteSampled_succ h8] using hv
    · rw [writesFrom_succ _ _ h8, ← hr]
      exact ht.trans h'.2.2
    · rw [writesFrom_succ _ _ h8, ← hr]
      exact ht.trans h'

/-- RDBYTES (R173). -/
theorem readBytes_hears (p : Bool) (buf len : Word) (s : State) (hw : s.cfg.wellFormed = true) :
    Hears (readBytes p buf len) s (asksOf s (.rdbytes p buf len))
      (fun ls r t => ls.length = 8 * len.toNat ∧ (0 < len.toNat → r = byteSampled ls (len.toNat - 1)) ∧
        Touched s t [] (writesFrom buf 0#16 ls len.toNat))
      (fun ls _ t => ∃ k ≤ len.toNat, Touched s t [] (writesFrom buf 0#16 ls k)) := by
  refine Hears.silent_bind rfl rfl rfl (Hears.mod_bind rfl rfl rfl ?_)
  have h0 : Touched s ((draw8 s).2.setIdx 0#16) [] [] := ⟨(Touched.refl s).ev, (Touched.refl s).mem⟩
  have hr := (receiveBytes_hears buf len len.toNat (draw8 s).1 ((draw8 s).2.setIdx 0#16) hw (by simp)).and
    (receiveBytes_wp buf len len.toNat (draw8 s).1 ((draw8 s).2.setIdx 0#16) hw (by simp))
  unfold asksOf
  refine Hears.bind (hr.imp (fun ls r s2 h2 => ⟨?_, ?_⟩) (fun ls _ t ⟨⟨k, hk, h⟩, _⟩ => ⟨k, hk, h0.trans h⟩))
  · rw [h2.2.1.cfg]
  have c2 : s2.cfg = s.cfg := h2.2.1.cfg
  have hstop : Hears (onlyIf p stopCondition) s2 (if p then stopAsks else []) (fun ls _ _ => ls = [])
      (fun ls _ _ => ls = []) := by
    cases p with
    | false => exact Hears.pure rfl
    | true => exact stopCondition_hears s2 (by rw [c2]; exact hw)
  refine Hears.bindLast (((hstop.and (onlyIf_stop_wp p s2 (by rw [c2]; exact hw))).and
    (wp_of (Always.onlyIf Untouched.refl stopCondition_untouched p) s2)).imp (fun ls' _ s3 h3 => ⟨?_, ?_⟩)
    (fun ls' _ s3 h3 => ⟨len.toNat, le_refl _, ?_⟩))
  · rw [h3.1.2.1.cfg]; rfl
  · obtain ⟨⟨rfl, -⟩, hu⟩ := h3
    refine Hears.pure ?_
    simp only [List.append_nil]
    refine ⟨h2.1.1, fun hl => ?_, ?_⟩
    · have hv := h2.1.2.1
      rwa [if_neg (by omega)] at hv
    · simpa using (h0.trans h2.1.2.2).trans hu.1
  · obtain ⟨⟨rfl, -⟩, hu⟩ := h3
    simpa using (h0.trans h2.1.2.2).trans hu.1

end Sys2Proof.Machine
end

