-- ==== Sys2Proof/Laws/Counts.lean ====
section
/-! SUPPORT. How many port accesses, polls and buffer accesses the points of a command make, and how a command ends that is heard
along them, its completion or its cleanup included (41_bit_transport.md R126, 42_protocol_engine.md R146, 60_exceptions.md R202). -/
namespace Sys2Proof.Machine

/-! ### Counts -/

theorem hear_through_cons {cfg : Cfg} {a : Ask} {as : List Ask} {env : List EnvSample}
    (h : (hear cfg (a :: as) env).ending = .through) :
    (hearOne cfg a env).ending = .through ∧ (hear cfg as (hearOne cfg a env).rest).ending = .through ∧
      (hear cfg (a :: as) env).polls = (hearOne cfg a env).polls + (hear cfg as (hearOne cfg a env).rest).polls ∧
      (hear cfg (a :: as) env).buffered = (hearOne cfg a env).buffered + (hear cfg as (hearOne cfg a env).rest).buffered := by
  simp only [hear, Heard.andThen] at h ⊢
  split at h
  · next he => simp only [he]; exact ⟨trivial, h, trivial, trivial⟩
  · next he => exact absurd h he

theorem hearOne_polls (cfg : Cfg) {a : Ask} (h : a ≠ .wait) (env : List EnvSample) : (hearOne cfg a env).polls = 0 := by
  cases a with
  | check low => simp only [hearOne]; split <;> (try split) <;> rfl
  | sample => simp only [hearOne]; split <;> rfl
  | wait => exact absurd rfl h
  | change => rfl
  | buffer => rfl

theorem hearOne_buffered (cfg : Cfg) (a : Ask) (env : List EnvSample) :
    (hearOne cfg a env).buffered = if a = .buffer then 1 else 0 := by
  cases a with
  | check low => simp only [hearOne, reduceCtorEq, if_false]; split <;> (try split) <;> rfl
  | sample => simp only [hearOne]; split <;> rfl
  | wait => simp only [hearOne]; split <;> simp [hearPolls_levels]
  | change => rfl
  | buffer => rfl

theorem PollsOf.add {cfg : Cfg} {m n a b : Nat} (h : PollsOf cfg m a) (h' : PollsOf cfg n b) :
    PollsOf cfg (m + n) (a + b) := by
  unfold PollsOf at *
  split <;> simp_all
  rw [Nat.add_mul]
  omega

theorem PollsOf.zero (cfg : Cfg) : PollsOf cfg 0 0 := by unfold PollsOf; split <;> simp

/-- Along points that are all passed, every stretch wait makes its polls (R126). -/
theorem hear_polls {cfg : Cfg} {as : List Ask} {env : List EnvSample} (h : (hear cfg as env).ending = .through) :
    PollsOf cfg (as.count .wait) (hear cfg as env).polls := by
  induction as generalizing env with
  | nil => exact .zero cfg
  | cons a as ih =>
    obtain ⟨h1, h2, hp, -⟩ := hear_through_cons h
    rw [hp, List.count_cons, Nat.add_comm]
    refine PollsOf.add ?_ (ih h2)
    by_cases ha : a = .wait
    · subst ha
      simp only [BEq.rfl, if_true]
      simp only [hearOne] at h1 ⊢
      unfold PollsOf
      cases hs : cfg.stretch with
      | none => rfl
      | wait n =>
        rw [hs] at h1
        simpa using hearPolls_polls h1
    · rw [hearOne_polls cfg ha, if_neg (by simpa using ha)]
      exact .zero cfg

theorem checks_add (cfg : Cfg) (m n : Nat) : checks cfg m + checks cfg n = checks cfg (m + n) := by
  unfold checks; split <;> rfl

theorem checks_zero (cfg : Cfg) : checks cfg 0 = 0 := by unfold checks; split <;> rfl

/-- The port accesses of points but for the polls. -/
def asksWeight (cfg : Cfg) (as : List Ask) : Nat := (as.map (Ask.weight cfg)).sum

theorem asksWeight_append (cfg : Cfg) (xs ys : List Ask) :
    asksWeight cfg (xs ++ ys) = asksWeight cfg xs + asksWeight cfg ys := by simp [asksWeight]

theorem asksWeight_buffer (cfg : Cfg) (as : List Ask) : asksWeight cfg (.buffer :: as) = asksWeight cfg as := by
  simp [asksWeight, Ask.weight]

theorem writeAsks_weight (cfg : Cfg) (v : Bool) : asksWeight cfg (writeAsks v) = 6 + checks cfg (if v then 1 else 0) := by
  cases v <;> simp [asksWeight, writeAsks, Ask.weight, checks_zero]; omega

theorem readAsks_weight (cfg : Cfg) : asksWeight cfg readAsks = 7 := rfl

theorem startAsks_weight (cfg : Cfg) (s : State) :
    asksWeight cfg (startAsks s) = (if s.started then 8 else 4) + checks cfg 1 := by
  unfold startAsks asksWeight
  split <;> simp [Ask.weight] <;> omega

theorem stopAsks_weight (cfg : Cfg) : asksWeight cfg stopAsks = 6 + checks cfg 1 := by
  simp [asksWeight, stopAsks, Ask.weight]; omega

theorem bits_weight (cfg : Cfg) (vs : List Bool) :
    asksWeight cfg (vs.flatMap writeAsks) = 6 * vs.length + checks cfg (vs.count true) := by
  induction vs with
  | nil => simp [asksWeight, checks_zero]
  | cons v vs ih =>
    rw [List.flatMap_cons, asksWeight_append, writeAsks_weight, ih, List.count_cons, ← checks_add cfg (vs.count true)]
    cases v <;> simp <;> omega

theorem writeByteAsks_weight (cfg : Cfg) (b : Byte) :
    asksWeight cfg (writeByteAsks b) = 8 * 6 + 7 + checks cfg ((msbFirst b).count true) := by
  rw [writeByteAsks, asksWeight_append, bits_weight, readAsks_weight]
  simp [msbFirst]; omega

theorem readByteAsks_weight (cfg : Cfg) (last : Bool) :
    asksWeight cfg (readByteAsks last) = 8 * 7 + 6 + checks cfg (if last then 1 else 0) := by
  rw [readByteAsks, asksWeight_append, writeAsks_weight, show asksWeight cfg (List.replicate 8 readAsks).flatten = 56 from by
    simp [asksWeight, List.replicate, readAsks, Ask.weight]]
  omega

theorem sendAsks_weight (cfg : Cfg) (bytes : List Byte) :
    asksWeight cfg (bytes.flatMap fun b => .buffer :: writeByteAsks b) =
      bytes.length * (8 * 6 + 7) + checks cfg (bytes.map fun b => (msbFirst b).count true).sum := by
  induction bytes with
  | nil => simp [asksWeight, checks_zero]
  | cons b bytes ih =>
    rw [List.flatMap_cons, asksWeight_append, asksWeight_buffer, writeByteAsks_weight, ih, List.map_cons, List.sum_cons,
      ← checks_add, List.length_cons]
    omega

theorem receiveAsks_weight (cfg : Cfg) (n : Nat) :
    asksWeight cfg ((List.range n).flatMap fun i => readByteAsks (decide (i + 1 = n)) ++ [.buffer]) =
      n * (8 * 7 + 6) + checks cfg (if 0 < n then 1 else 0) := by
  induction n with
  | zero => simp [asksWeight, checks_zero]
  | succ n ih =>
    have ha : ((List.range (n + 1)).flatMap fun i => readByteAsks (decide (i + 1 = n + 1)) ++ [Ask.buffer]) =
        readByteAsks (decide (n = 0)) ++ (.buffer :: (List.range n).flatMap fun i => readByteAsks (decide (i + 1 = n)) ++ [.buffer]) := by
      rw [List.range_succ_eq_map, List.flatMap_cons, List.flatMap_map, List.append_assoc]
      congr 1
      · simp
      · simp
    rw [ha, asksWeight_append, asksWeight_buffer, readByteAsks_weight, ih]
    cases n <;> simp [checks_zero]
    omega

theorem writeAsks_waits (v : Bool) : (writeAsks v).count .wait = 1 := by cases v <;> rfl

theorem startAsks_waits (s : State) : (startAsks s).count .wait = if s.started then 1 else 0 := by
  unfold startAsks
  split
  · rfl
  · rfl

theorem bits_waits (vs : List Bool) : (vs.flatMap writeAsks).count .wait = vs.length := by
  induction vs with
  | nil => rfl
  | cons v vs ih => rw [List.flatMap_cons, List.count_append, writeAsks_waits, ih, List.length_cons, Nat.add_comm]

theorem writeByteAsks_waits (b : Byte) : (writeByteAsks b).count .wait = 9 := by
  rw [writeByteAsks, List.count_append, bits_waits]; rfl

theorem readByteAsks_waits (last : Bool) : (readByteAsks last).count .wait = 9 := by cases last <;> rfl

theorem sendAsks_waits (bytes : List Byte) :
    (bytes.flatMap fun b => Ask.buffer :: writeByteAsks b).count .wait = 9 * bytes.length := by
  induction bytes with
  | nil => rfl
  | cons b bytes ih =>
    rw [List.flatMap_cons, List.count_append, List.count_cons, writeByteAsks_waits, ih, List.length_cons]
    simp; omega

theorem flatMap_waits {γ : Type} (xs : List γ) (f : γ → List Ask) (k : Nat) (a : Ask) (h : ∀ x, (f x).count a = k) :
    (xs.flatMap f).count a = k * xs.length := by
  induction xs with
  | nil => rfl
  | cons x xs ih => rw [List.flatMap_cons, List.count_append, h, ih, List.length_cons, Nat.mul_succ, Nat.add_comm]

theorem receiveAsks_waits (n : Nat) :
    ((List.range n).flatMap fun i => readByteAsks (decide (i + 1 = n)) ++ [Ask.buffer]).count .wait = 9 * n := by
  rw [flatMap_waits _ _ 9 _ (fun i => by rw [List.count_append, readByteAsks_waits]; rfl), List.length_range]

theorem stopAsks_waits : stopAsks.count .wait = 1 := rfl

/-! ### Commands -/

/-- The command's procedure ends as it is heard; what RDBYTES wrote up to there is what its samples made (R202). -/
theorem procOf_hears (i : Instr) (s : State) (hw : s.cfg.wellFormed = true)
    (hi : i ≠ .init ∧ i ≠ .reset ∧ ∀ l, i ≠ .release l ∧ i ≠ .drivelow l ∧ i ≠ .readline l) :
    Hears (procOf i) s (asksOf s i) (fun _ _ _ => True)
      (fun ls _ t => ∀ p buf len, i = .rdbytes p buf len → ∃ k ≤ len.toNat, Touched s t [] (writesFrom buf 0#16 ls k)) := by
  cases i
  case release l => exact absurd rfl (hi.2.2 l).1
  case drivelow l => exact absurd rfl (hi.2.2 l).2.1
  case readline l => exact absurd rfl (hi.2.2 l).2.2
  case init => exact absurd rfl hi.1
  case reset => exact absurd rfl hi.2.1
  case wrbit v => exact Hears.bindLast ((writeBit_hears v s hw).imp (fun _ _ _ h => ⟨h.2.same.cfg, Hears.pure trivial⟩)
      (fun _ _ _ _ => by simp))
  case rdbit => exact Hears.bindLast ((readBit_hears s hw).imp (fun _ _ _ h => ⟨h.2.same.cfg, Hears.pure trivial⟩)
      (fun _ _ _ _ => by simp))
  case start => exact Hears.bindLast (((startCondition_hears s hw).and (startCondition_wp s hw)).imp
      (fun _ _ _ h => ⟨h.2.1.cfg, Hears.pure trivial⟩) (fun _ _ _ _ => by simp))
  case stop => exact Hears.bindLast (((stopCondition_hears s hw).and (stopCondition_wp s hw)).imp
      (fun _ _ _ h => ⟨h.2.1.cfg, Hears.pure trivial⟩) (fun _ _ _ _ => by simp))
  case wrbyte b => exact Hears.bindLast ((writeByte_hears b s hw).imp (fun _ _ _ h => ⟨h.2.1.cfg, Hears.pure trivial⟩)
      (fun _ _ _ _ => by simp))
  case rdbyte last => exact (readByte_hears last s hw).imp (fun _ _ _ _ => trivial) (fun _ _ _ _ => by simp)
  case wrbytes st p buf len => exact (writeBytes_hears st p buf len s hw).imp (fun _ _ _ _ => trivial) (fun _ _ _ _ => by simp)
  case rdbytes p buf len => exact (readBytes_hears p buf len s hw).imp (fun _ _ _ _ => trivial) (fun _ _ _ h p' buf' len' he => by
      cases he; exact h)

/-- The completion of a command whose points are all passed: its accesses, its answers and its one completion. -/
theorem Between.completed {s t : State} {h : Heard} (hb : Between s t h) (v : Byte) (cmd : Command) :
    portAccesses (newEvents s (complete .ok v cmd t)) = h.accesses ∧ (complete .ok v cmd t).env = h.rest := by
  obtain ⟨evs, h1, h2, -⟩ := hb.events
  rw [newEvents_of_eq (evs := evs ++ [.done cmd .ok v]) (by rw [complete_eq, h1, List.append_assoc])]
  exact ⟨by rw [portAccesses_append, h2]; rfl, hb.env⟩

/-- The cleanup of a bus condition: no access after an arbitration loss, one line change after a timeout (R203, R204). -/
theorem Between.raised {s t : State} {h : Heard} (hb : Between s t h) (c : BusCondition) (cmd : Command) :
    portAccesses (newEvents s (raiseCondition c.condition cmd t)) = h.accesses + (if c = .arbLost then 0 else 2) ∧
      (raiseCondition c.condition cmd t).env =
        (if c = .arbLost then h.rest else h.rest.drop (sharedSamples t.cfg 1)) := by
  obtain ⟨evs, h1, h2, -⟩ := hb.events
  cases c with
  | arbLost =>
    rw [newEvents_of_eq (evs := evs ++ [.done cmd .arbLost (Config.freeByte t.draws)])
      (by show t.history ++ _ = _; rw [h1, List.append_assoc]; rfl)]
    exact ⟨by rw [portAccesses_append, h2]; rfl, hb.env⟩
  | busTimeout =>
    have hr : releaseLine .data t = _ := rmwOut_eq t (outBit t.cfg .data) (relBit t.cfg)
    have hx : (raiseCondition .busTimeout cmd t).history = (releaseLine .data t).history ++
        [.done cmd .busTimeout (Config.freeByte (releaseLine .data t).draws)] := rfl
    have he : (raiseCondition .busTimeout cmd t).env = (releaseLine .data t).env := rfl
    rw [congrArg State.history hr, h1, List.append_assoc, List.append_assoc] at hx
    rw [congrArg State.env hr, hb.env] at he
    refine ⟨?_, ?_⟩
    · show portAccesses (newEvents s (raiseCondition .busTimeout cmd t)) = _
      rw [newEvents_of_eq hx, portAccesses_append, h2]; rfl
    · show (raiseCondition .busTimeout cmd t).env = _
      rw [he]
      unfold sharedSamples
      by_cases hp : t.cfg.portInAddr = t.cfg.portOutAddr
      · simp [hp, List.drop_one]
      · simp [hp, Ne.symm hp]

end Sys2Proof.Machine
end

