-- ==== Sys2Proof/Laws/Encoding.lean ====
section
/-! SUPPORT. The fields of a command word by its two bytes, and the row it selects: a question about the high byte and about
whether the low byte is zero. -/
namespace Sys2Proof

open Machine

theorem append_eq_iff (a b c d : Byte) : a ++ b = c ++ d ↔ a = c ∧ b = d := by
  refine ⟨fun h => ⟨?_, ?_⟩, fun ⟨h1, h2⟩ => by rw [h1, h2]⟩
  · apply BitVec.eq_of_getLsbD_eq
    intro i hi
    have := congrArg (fun w => w.getLsbD (i + 8)) h
    simpa only [BitVec.getLsbD_append, show ¬ (i + 8 < 8) by omega, if_false, Nat.add_sub_cancel] using this
  · apply BitVec.eq_of_getLsbD_eq
    intro i hi
    have := congrArg (fun w => w.getLsbD i) h
    simpa only [BitVec.getLsbD_append, hi, if_true] using this

/-- The high byte of a word. -/
def hiByte (w : Word) : Byte := w.extractLsb' 8 8

/-- The low byte of a word. -/
def loByte (w : Word) : Byte := w.extractLsb' 0 8

theorem word_split (w : Word) : w = hiByte w ++ loByte w := by
  apply BitVec.eq_of_getLsbD_eq
  intro i hi
  rw [BitVec.getLsbD_append]
  by_cases h : i < 8
  · simp [loByte, h]
  · have h' : 8 + (i - 8) = i := by omega
    have h'' : i - 8 < 8 := by omega
    simp [hiByte, h, h', h'']

@[simp] theorem hiByte_append (a b : Byte) : hiByte (a ++ b) = a :=
  ((append_eq_iff _ _ _ _).mp (word_split (a ++ b))).1.symm

@[simp] theorem loByte_append (a b : Byte) : loByte (a ++ b) = b :=
  ((append_eq_iff _ _ _ _).mp (word_split (a ++ b))).2.symm

/-- The high byte of a command word: `OP`, two reserved bits, `S`, `F`. -/
def commandByte (op : BitVec 4) (s f : Bool) : Byte := op ++ 0#2 ++ BitVec.ofBool s ++ BitVec.ofBool f

theorem commandWord_eq (op : BitVec 4) (s f : Bool) (b : Byte) : commandWord op s f b = commandByte op s f ++ b := rfl

theorem opField_append (a b : Byte) : opField (a ++ b) = a.extractLsb' 4 4 := by
  apply BitVec.eq_of_getLsbD_eq
  intro i hi
  have h1 : ¬ (12 + i < 8) := by omega
  have h2 : 12 + i - 8 = 4 + i := by omega
  simp only [opField, BitVec.getLsbD_extractLsb', hi, decide_true, Bool.true_and, BitVec.getLsbD_append, h1, if_false, h2]

theorem sField_append (a b : Byte) : sField (a ++ b) = a.getLsbD 1 := by
  simp only [sField, BitVec.getLsbD_append]; rfl

theorem fField_append (a b : Byte) : fField (a ++ b) = a.getLsbD 0 := by
  simp only [fField, BitVec.getLsbD_append]; rfl

theorem imm8Field_append (a b : Byte) : imm8Field (a ++ b) = b := loByte_append a b

/-- A word selects a row when both of its bytes do. -/
theorem selects_append (r : OpcodeRow) (a b : Byte) :
    r.selects (a ++ b) = (a &&& hiByte r.mask == hiByte r.pattern && b &&& loByte r.mask == loByte r.pattern) := by
  unfold OpcodeRow.selects
  rw [Bool.eq_iff_iff, Bool.and_eq_true, beq_iff_eq, beq_iff_eq, beq_iff_eq]
  conv_lhs => rw [word_split r.mask, word_split r.pattern, BitVec.and_append, append_eq_iff]

/-- The row does not look at the low byte, or looks for zero in all of it (R82). -/
theorem row_lowByte : ∀ r ∈ opcodeTable,
    loByte r.pattern = 0#8 ∧ (loByte r.mask = 0#8 ∨ loByte r.mask = 0xFF#8) := by decide

/-- Does the high byte select the row, the low byte being zero or not? -/
def OpcodeRow.selectsByte (r : OpcodeRow) (a : Byte) (zero : Bool) : Bool :=
  a &&& hiByte r.mask == hiByte r.pattern && (zero || loByte r.mask == 0#8)

theorem selects_eq_selectsByte {r : OpcodeRow} (h : r ∈ opcodeTable) (a b : Byte) :
    r.selects (a ++ b) = r.selectsByte a (b == 0#8) := by
  rw [selects_append, OpcodeRow.selectsByte]
  obtain ⟨h1, h2 | h2⟩ := row_lowByte r h
  · simp [h1, h2]
  · have h3 : b &&& 0xFF#8 = b := BitVec.and_allOnes
    have h4 : (0xFF#8 == 0#8) = false := rfl
    rw [h1, h2, h3, h4, Bool.or_false]

/-- The row that a high byte selects, the low byte being zero or not. -/
def rowOfByte (a : Byte) (zero : Bool) : Option OpcodeRow := opcodeTable.find? (·.selectsByte a zero)

theorem find?_congr_mem {α : Type} {p q : α → Bool} (l : List α) (h : ∀ x ∈ l, p x = q x) : l.find? p = l.find? q := by
  induction l with
  | nil => rfl
  | cons x xs ih =>
    rw [List.find?_cons, List.find?_cons, h x (by simp), ih fun y hy => h y (List.mem_cons_of_mem _ hy)]

theorem opcodeRow_append (a b : Byte) : opcodeRow (a ++ b) = rowOfByte a (b == 0#8) :=
  find?_congr_mem _ fun _ hr => selects_eq_selectsByte hr a b

/-- Whether a word is illegal (R85), by its high byte and whether its low byte is zero. -/
def illegalByte (a : Byte) (zero : Bool) : Bool :=
  a.extractLsb' 4 4 == 0x0#4 || a.extractLsb' 4 4 == 0xE#4 || a.extractLsb' 4 4 == 0xF#4 ||
    opcodeTable.any fun r => (hiByte r.pattern).extractLsb' 4 4 == a.extractLsb' 4 4 && !r.selectsByte a zero

theorem illegalWord_append (a b : Byte) : IllegalWord (a ++ b) ↔ illegalByte a (b == 0#8) = true := by
  unfold IllegalWord illegalByte
  simp only [Bool.or_eq_true, beq_iff_eq, opField_append, List.any_eq_true, Bool.and_eq_true, or_assoc]
  refine or_congr Iff.rfl (or_congr Iff.rfl (or_congr Iff.rfl (exists_congr fun r => and_congr_right fun hr => ?_)))
  have hp : opField r.pattern = (hiByte r.pattern).extractLsb' 4 4 := by
    conv_lhs => rw [word_split r.pattern, opField_append]
  rw [hp]
  refine and_congr Iff.rfl ?_
  rw [← selects_eq_selectsByte hr a b, OpcodeRow.selects]
  simp

end Sys2Proof
end

