-- ==== Sys2Proof/Laws/Frames.lean ====
section
/-! SUPPORT. What no command but INIT and RESET changes, said once for a run of actions and its completion; what INIT and RESET
leave alone; the three things a step can be; and what a move of the host leaves alone. -/
namespace Sys2Proof.Machine

/-- What every run of actions leaves as it was, or keeps (10_state.md R20, R23, R26, R30, R37). -/
structure RunFrame (s t : State) : Prop where
  cfg : t.cfg = s.cfg
  configured : t.configured = s.configured
  result : t.result = s.result
  ddr : t.ddr = s.ddr
  stream : t.stream = s.stream
  host : t.host = s.host
  events : ∃ evs, t.history = s.history ++ evs ∧ completions evs = [] ∧
    (s.cfg.ddrAddr ≠ s.cfg.portOutAddr → portWritesTo s.cfg.ddrAddr evs = [])
  mem : s.mem.wf = true → t.mem.wf = true
  bitcnt : s.bitcnt ≤ 8#4 → t.bitcnt ≤ 8#4
  out : SenseBitsAreInputs s → ∀ k, k ≠ s.cfg.clkOutBit → k ≠ s.cfg.dataOutBit → isOutput s k = true →
    bitAt t.out k = bitAt s.out k

theorem RunFrame.isOutput {s t : State} (h : RunFrame s t) (k : BitIndex) :
    Machine.isOutput t k = Machine.isOutput s k := by simp [Machine.isOutput, h.cfg, h.ddr]

theorem RunFrame.refl (s : State) : RunFrame s s :=
  ⟨rfl, rfl, rfl, rfl, rfl, rfl, ⟨[], by simp, rfl, fun _ => rfl⟩, id, id, fun _ _ _ _ _ => rfl⟩

theorem RunFrame.trans {s t u : State} (h : RunFrame s t) (g : RunFrame t u) : RunFrame s u := by
  obtain ⟨e1, a1, b1, c1⟩ := h.events
  obtain ⟨e2, a2, b2, c2⟩ := g.events
  refine ⟨g.cfg.trans h.cfg, g.configured.trans h.configured, g.result.trans h.result, g.ddr.trans h.ddr,
    g.stream.trans h.stream, g.host.trans h.host,
    ⟨e1 ++ e2, by rw [a2, a1, List.append_assoc], by simp [b1, b2], fun hd => ?_⟩, g.mem ∘ h.mem, g.bitcnt ∘ h.bitcnt, ?_⟩
  · rw [h.cfg] at c2
    simp [c1 hd, c2 hd]
  · intro hs k h1 h2 ho
    have hs' : SenseBitsAreInputs t := by
      intro hp
      rw [h.isOutput, h.isOutput, h.cfg]
      rw [h.cfg] at hp
      exact hs hp
    rw [g.out hs' k (by rw [h.cfg]; exact h1) (by rw [h.cfg]; exact h2) (by rw [h.isOutput]; exact ho), h.out hs k h1 h2 ho]

theorem Action.runFrame {s t : State} (h : Action s t) : RunFrame s t := by
  cases h with
  | lines h =>
    cases h with
    | sample =>
      rw [portReadBits_snd]
      exact ⟨rfl, rfl, rfl, rfl, rfl, rfl, ⟨_, rfl, rfl, fun _ => rfl⟩, id, id, fun _ _ _ _ _ => rfl⟩
    | change l x =>
      refine ⟨by simp, by simp, by simp, by simp, by simp, by simp,
        ⟨_, by rw [rmwOut_eq], rfl, fun hd => by simp [portWritesTo, Ne.symm hd]⟩, by simp, by simp, ?_⟩
      intro hs k h1 h2 ho
      refine bitAt_rmwOut_other s _ x (by cases l <;> assumption) ho fun hp => ?_
      obtain ⟨a, b⟩ := hs hp
      constructor <;> rintro rfl <;> simp_all
  | bitcnt n hn => exact ⟨rfl, rfl, rfl, rfl, rfl, rfl, ⟨[], by simp, rfl, fun _ => rfl⟩, id, fun _ => hn, fun _ _ _ _ _ => rfl⟩
  | memRead a => exact ⟨rfl, rfl, rfl, rfl, rfl, rfl, ⟨[_], rfl, rfl, fun _ => rfl⟩, id, id, fun _ _ _ _ _ => rfl⟩
  | memWrite a v =>
    exact ⟨rfl, rfl, rfl, rfl, rfl, rfl, ⟨[_], rfl, rfl, fun _ => rfl⟩, fun h => wf_writeCell v h a.isLt, id, fun _ _ _ _ _ => rfl⟩
  | _ => exact ⟨rfl, rfl, rfl, rfl, rfl, rfl, ⟨[], by simp [draw8], rfl, fun _ => rfl⟩, id, id, fun _ _ _ _ _ => rfl⟩

theorem ActionRun.runFrame {s t : State} (h : ActionRun s t) : RunFrame s t := by
  induction h with
  | refl => exact .refl _
  | tail _ h ih => exact ih.trans h.runFrame

/-- Every command but INIT and RESET is a run within the frame, and its completion. -/
theorem exec_runFrame {i : Instr} {s t : State} (h : exec i s = .next t) (hi : i ≠ .init) (hr : i ≠ .reset) :
    ∃ u c v, RunFrame s u ∧ t = complete c v (.legal i) u := by
  obtain ⟨u, c, v, h, e⟩ := exec_runThenDone h hi hr
  exact ⟨u, c, v, h.runFrame, e⟩

/-! ### INIT and RESET -/

/-- A port write leaves everything but OUT, DDR and the history alone (20_memory.md R52). -/
theorem portWrite_frame (a : Word) (v : Byte) (s : State) :
    (portWrite a v s).cfg = s.cfg ∧ (portWrite a v s).mem = s.mem ∧ (portWrite a v s).bitcnt = s.bitcnt ∧
      (portWrite a v s).stream = s.stream ∧ (portWrite a v s).host = s.host ∧ (portWrite a v s).draws = s.draws ∧
      (portWrite a v s).history = s.history ++ [.portWrite a v] := by
  simp only [portWrite, latchPort]
  split <;> (try split) <;> simp

/-- What INIT and RESET leave alone, and how they complete. -/
theorem exec_initReset {i : Instr} {s t : State} (h : exec i s = .next t) (hi : i = .init ∨ i = .reset) :
    t.cfg = s.cfg ∧ t.mem = s.mem ∧ t.bitcnt = s.bitcnt ∧ t.stream = s.stream ∧ t.host = s.host ∧
      ∃ evs, t.history = s.history ++ evs ++ [.done (.legal i) .ok 0x00#8] ∧ completions evs = [] ∧
        t.result = ⟨0#3, 0x00#8⟩ := by
  have hl := portWrite_frame
  rcases hi with rfl | rfl
  · cases h
    simp [runProc, initCommand, initPort, complete, hl, completionResult, Condition.code]
    exact ⟨[_, _], rfl, rfl⟩
  · cases h
    simp [runProc, resetCommand, resetPort, complete, hl, completionResult, Condition.code, draw8]
    exact ⟨[_, _], rfl, rfl⟩

/-! ### Steps -/

/-- What a step that answers a next state was: a command, an illegal packet, or the host's turn. -/
theorem step_cases {s t : State} (h : step s = .next t) :
    s.cfg.failedCheck = none ∧
      ((∃ i rest, fetchCommand s.stream = some (.legal i, rest) ∧ exec i (s.setStream rest) = .next t) ∨
        (∃ why ws rest, fetchCommand s.stream = some (.illegal why ws, rest) ∧
          t = illegalCommand why ws (s.setStream rest)) ∨
        (fetchCommand s.stream = none ∧ t = hostTurn s)) := by
  unfold step at h
  split at h
  · cases h
  · rename_i hf
    refine ⟨hf, ?_⟩
    split at h
    · rename_i cmd rest hc
      cases cmd with
      | legal i => exact .inl ⟨i, rest, hc, h⟩
      | illegal why ws =>
        cases h
        exact .inr (.inl ⟨why, ws, rest, hc, rfl⟩)
    · rename_i hn
      cases h
      exact .inr (.inr ⟨hn, rfl⟩)

/-- What a store of the host leaves alone (70_reset_and_hazards.md R242). -/
theorem hostStore_frame (a : Word) (v : Byte) (s : State) :
    (hostStore a v s).cfg = s.cfg ∧ (hostStore a v s).configured = s.configured ∧ (hostStore a v s).bitcnt = s.bitcnt ∧
      (s.mem.wf = true → (hostStore a v s).mem.wf = true) ∧ (a ≠ s.cfg.ddrAddr → (hostStore a v s).ddr = s.ddr) := by
  simp only [hostStore, latchPort]
  split
  · split <;> (try split) <;> simp_all
  · simp
    exact fun h => wf_writeCell v h a.isLt

/-- What the host's turn leaves alone. -/
theorem hostTurn_frame (s : State) :
    (hostTurn s).cfg = s.cfg ∧ (hostTurn s).configured = s.configured ∧ (hostTurn s).bitcnt = s.bitcnt ∧
      (s.mem.wf = true → (hostTurn s).mem.wf = true) ∧
      (HostLeavesDdr s → fetchCommand s.stream = none → s.configured = true → (hostTurn s).ddr = s.ddr) := by
  unfold hostTurn
  cases hh : s.host with
  | nil => simp
  | cons m ms =>
    cases m with
    | send w => simp [hostMove]
    | store a v =>
      have := hostStore_frame a v (s.setHost ms)
      exact ⟨this.1, this.2.1, this.2.2.1, this.2.2.2.1, fun h hf hc => this.2.2.2.2 (h hf hc a v ms hh)⟩

end Sys2Proof.Machine
end

