-- ==== Sys2Proof/Laws/PerInstr.lean ====
section
/-! SUPPORT. What holds of every command as syntax, one lemma for each constructor. -/
namespace Sys2Proof

/-- The row of the opcode map that a command stands for (30_encoding.md R82). -/
def rowOf : Instr → Mnemonic
  | .release _ => .release
  | .drivelow _ => .drivelow
  | .readline _ => .readline
  | .wrbit _ => .wrbit
  | .rdbit => .rdbit
  | .start => .start
  | .stop => .stop
  | .wrbyte _ => .wrbyte
  | .rdbyte _ => .rdbyte
  | .init => .init
  | .reset => .reset
  | .wrbytes .. => .wrbytes
  | .rdbytes .. => .rdbytes

namespace Laws.PacketShape

/-- A command's words are one packet: its command word says how many words follow, two after WRBYTES and RDBYTES and none
after any other (30_encoding.md R80, R84, R86). -/
def Statement (i : Instr) : Prop :=
  (encode i).length = (if rowOf i = .wrbytes ∨ rowOf i = .rdbytes then 3 else 1) ∧
    ∀ w0 ∈ (encode i).head?, hasExtension w0 = decide ((encode i).length = 3)

theorem release (line : Line) : Statement (.release line) := by cases line <;> exact ⟨rfl, fun _ h => by cases h; rfl⟩
theorem drivelow (line : Line) : Statement (.drivelow line) := by cases line <;> exact ⟨rfl, fun _ h => by cases h; rfl⟩
theorem readline (line : Line) : Statement (.readline line) := by cases line <;> exact ⟨rfl, fun _ h => by cases h; rfl⟩
theorem wrbit (v : Bool) : Statement (.wrbit v) := by cases v <;> exact ⟨rfl, fun _ h => by cases h; rfl⟩
theorem rdbit : Statement .rdbit := ⟨rfl, fun _ h => by cases h; rfl⟩
theorem start : Statement .start := ⟨rfl, fun _ h => by cases h; rfl⟩
theorem stop : Statement .stop := ⟨rfl, fun _ h => by cases h; rfl⟩
theorem wrbyte (imm8 : Byte) : Statement (.wrbyte imm8) := by
  refine ⟨rfl, fun w0 h => ?_⟩
  have : opField (commandWord 0x8#4 false false imm8) = 0x8#4 := by
    simp only [opField, commandWord]
    ext k hk
    simp only [BitVec.getElem_extractLsb', BitVec.getLsbD_append]
    rw [if_neg (by omega), if_neg (by omega), if_neg (by omega), if_neg (by omega)]
    rw [BitVec.getElem_eq_testBit_toNat, BitVec.getLsbD]
    congr 1
    omega
  cases h
  simp [hasExtension, this, encode]
theorem rdbyte (last : Bool) : Statement (.rdbyte last) := by cases last <;> exact ⟨rfl, fun _ h => by cases h; rfl⟩
theorem init : Statement .init := ⟨rfl, fun _ h => by cases h; rfl⟩
theorem reset : Statement .reset := ⟨rfl, fun _ h => by cases h; rfl⟩
theorem wrbytes (sendStart sendStop : Bool) (buf len : Word) : Statement (.wrbytes sendStart sendStop buf len) := by
  refine ⟨rfl, fun w0 h => ?_⟩
  cases h
  cases sendStart <;> cases sendStop <;> rfl
theorem rdbytes (sendStop : Bool) (buf len : Word) : Statement (.rdbytes sendStop buf len) := by
  refine ⟨rfl, fun w0 h => ?_⟩
  cases h
  cases sendStop <;> rfl

end Laws.PacketShape
end Sys2Proof
end

