-- ==== Sys2Proof/Laws/Simulation.lean ====
section
/-! SUPPORT. Two runs side by side: what the working registers or the history hold before a command reaches nothing but what
they hold after it (10_state.md R23, R31). -/
namespace Sys2Proof.Machine

/-- A relation between the states of two runs. -/
abbrev StateRel := State → State → Prop
/-- From states that `R` relates, two runs of `p` end alike: with one value and states that `R'` relates, or by one condition and
states that `E` relates. -/
def Sim {α} (R R' E : StateRel) (p : Proc α) : Prop := ∀ s s', R s s' → match p s, p s' with
  | .ok a t, .ok a' t' => a = a' ∧ R' t t'
  | .error c t, .error c' t' => c = c' ∧ E t t'
  | _, _ => False

theorem Sim.bind {α β} {R R' R'' E : StateRel} {p : Proc α} {f : α → Proc β} (h : Sim R R' E p) (g : ∀ a,
    Sim R' R'' E (f a)) : Sim R R'' E (p >>= f) := by
  intro s s' hr
  have := h s s' hr
  rw [bind_run, bind_run]
  cases h1 : p s <;> cases h2 : p s' <;> rw [h1, h2] at this <;> simp only at this
  · obtain ⟨rfl, h⟩ := this
    exact g _ _ _ h
  · exact this

theorem Sim.get_bind {β} {R R'' E : StateRel} {f : State → Proc β} (g : ∀ a a', R a a' → f a = f a') (h : ∀ a,
    Sim R R'' E (f a)) : Sim R R'' E (get >>= f) := by
  intro s s' hr
  rw [bind_run, bind_run]
  simp only [get_run, ← g s s' hr]
  exact h s s s' hr |> fun x => x

theorem Sim.ret {α} {R E : StateRel} (a : α) : Sim R R E (pure a : Proc α) := fun _ _ h => ⟨rfl, h⟩

theorem Sim.mod {R R' E : StateRel} {f : State → State} (h : ∀ s s', R s s' → R' (f s) (f s')) : Sim R R' E (modify f) :=
    fun _ _ hr => ⟨rfl, h _ _ hr⟩

theorem Sim.mg {α} {R R' E : StateRel} {f : State → α × State} (h : ∀ s s', R s s' → (f s).1 = (f s').1 ∧
    R' (f s).2 (f s').2) : Sim R R' E (modifyGet f) := fun _ _ hr => h _ _ hr

theorem Sim.onlyIf {R E : StateRel} {p : Proc Unit} (c) (h : Sim R R E p) : Sim R R E (onlyIf c p) :=
    by cases c; exact Sim.ret (); exact h

theorem Sim.thr {α} {R R' E : StateRel} (c) (h : ∀ s s', R s s' → E s s') : Sim R R' E (throw c : Proc α) := fun _ _ hr =>
    ⟨rfl, h _ _ hr⟩

/-- The accesses to the lines cannot tell related states apart. -/
structure Blind (R : StateRel) : Prop where
  cfg : ∀ s s', R s s' → s'.cfg = s.cfg ∧ s'.started = s.started
  read : ∀ s s', R s s' → ∀ a, (portReadBits a s').1 = (portReadBits a s).1 ∧ R (portReadBits a s).2 (portReadBits a s').2
  rmw : ∀ s s', R s s' → ∀ k x, R (rmwOut k x s) (rmwOut k x s')
  started : ∀ s s', R s s' → ∀ b, R (s.setStarted b) (s'.setStarted b)

variable {R E : StateRel} (hb : Blind R) (he : ∀ s s', R s s' → E s s')
include hb he

theorem Sim.readLine (l) : Sim R R E (modifyGet (readLine l)) := Sim.mg fun s s' h => by
  have c := (hb.cfg s s' h).1
  have := hb.read s s' h s.cfg.portInAddr
  unfold Machine.readLine; rw [c]
  exact ⟨by simp only [this.1], this.2⟩

theorem Sim.rel (l) : Sim R R E (modify (releaseLine l)) := Sim.mod fun s s' h => by
  have c := (hb.cfg s s' h).1
  unfold releaseLine; rw [c]; exact hb.rmw _ _ h _ _

theorem Sim.drv (l) : Sim R R E (modify (driveLineLow l)) := Sim.mod fun s s' h => by
  have c := (hb.cfg s s' h).1
  unfold driveLineLow; rw [c]; exact hb.rmw _ _ h _ _

theorem Sim.poll (n) : Sim R R E (pollClock n) := by
  induction n with
  | zero => exact Sim.thr _ he
  | succ n ih =>
    refine Sim.bind (Sim.readLine hb he _) fun a => ?_
    cases a; exact ih; exact Sim.ret _

theorem Sim.stretch : Sim R R E stretchWait := by
  refine Sim.get_bind (fun a a' h => by rw [(hb.cfg _ _ h).1]) fun a => ?_
  cases a.cfg.stretch
  · exact Sim.ret _
  · exact Sim.poll hb he _

theorem Sim.arb : Sim R R E arbCheck := by
  refine Sim.get_bind (fun a a' h => by rw [(hb.cfg _ _ h).1]) fun a => Sim.onlyIf _ ?_
  refine Sim.bind (Sim.readLine hb he _) fun a => ?_
  cases a; exact Sim.thr _ he; exact Sim.ret _

theorem Sim.wb (v) : Sim R R E (writeBit v) := by
  refine Sim.bind (by cases v; exact Sim.drv hb he _; exact Sim.rel hb he _) fun _ => Sim.bind (Sim.rel hb he _) fun _ =>
      Sim.bind (Sim.stretch hb he) fun _ => Sim.bind (Sim.onlyIf _ (Sim.arb hb he)) fun _ => Sim.drv hb he _

theorem Sim.rb : Sim R R E readBit :=
  Sim.bind (Sim.rel hb he _) fun _ => Sim.bind (Sim.rel hb he _) fun _ => Sim.bind (Sim.stretch hb he) fun _ =>
      Sim.bind (Sim.readLine hb he _) fun _ => Sim.bind (Sim.drv hb he _) fun _ => Sim.ret _

theorem Sim.start : Sim R R E startCondition := by
  refine Sim.get_bind (fun a a' h => by rw [(hb.cfg _ _ h).2]) fun a => ?_
  refine Sim.bind (Sim.onlyIf _ (Sim.bind (Sim.rel hb he _) fun _ => Sim.bind (Sim.rel hb he _) fun _ => Sim.stretch hb he))
      fun _ => ?_
  exact Sim.bind (Sim.arb hb he) fun _ => Sim.bind (Sim.drv hb he _) fun _ => Sim.bind (Sim.drv hb he _) fun _ =>
      Sim.mod fun s s' h => hb.started _ _ h _

theorem Sim.stop : Sim R R E stopCondition := by
  refine Sim.bind (Sim.drv hb he _) fun _ => Sim.bind (Sim.rel hb he _) fun _ => Sim.bind (Sim.stretch hb he) fun _ =>
      Sim.bind (Sim.rel hb he _) fun _ => Sim.bind (Sim.arb hb he) fun _ => ?_
  refine Sim.mod fun s s' h => ?_
  unfold closeTransaction; rw [(hb.cfg _ _ h).1]
  split
  · exact hb.started _ _ h _
  · exact h
omit hb he

/-! ### The working registers -/

/-- The state with other working registers. -/
abbrev State.withWorking (s : State) (sh : Byte) (bc : BitVec 4) (na : Bool) (ix : Word) : State :=
  { s with shift := sh, bitcnt := bc, nackacc := na, idx := ix }

/-- The states differ in the working registers only, and agree in those whose mark is true: SHIFT, BITCNT, NACKACC, IDX. -/
structure SameButWorking (a b c d : Bool) (s s' : State) : Prop where
  eq : s' = s.withWorking s'.shift s'.bitcnt s'.nackacc s'.idx
  sh : a = true → s'.shift = s.shift
  bc : b = true → s'.bitcnt = s.bitcnt
  na : c = true → s'.nackacc = s.nackacc
  ix : d = true → s'.idx = s.idx

theorem SameButWorking.intro {a b c d : Bool} {s : State} {sh bc na ix} (h1 : a = true → sh = s.shift) (h2 : b = true →
    bc = s.bitcnt) (h3 : c = true → na = s.nackacc) (h4 : d = true → ix = s.idx) :
  SameButWorking a b c d s (s.withWorking sh bc na ix) := ⟨rfl, h1, h2, h3, h4⟩

theorem SameButWorking.cases {a b c d : Bool} {s s'} (h : SameButWorking a b c d s s') : ∃ sh bc na ix,
    s' = (s.withWorking sh bc na ix) ∧ (a = true → sh = s.shift) ∧ (b = true → bc = s.bitcnt) ∧
    (c = true → na = s.nackacc) ∧ (d = true → ix = s.idx) :=
  ⟨_, _, _, _, h.eq, h.sh, h.bc, h.na, h.ix⟩

theorem askEnv_work (a : Word) (s : State) (sh bc na ix) : askEnv a (s.withWorking sh bc na ix) = ((askEnv a s).1,
    (askEnv a s).2.withWorking sh bc na ix) := by
  unfold askEnv envSample; rcases s with ⟨_,_,_,_,_,_,_,_,_,_,_,_,_,_,env,_⟩; cases env <;> (dsimp only; split <;> rfl)

theorem portReadBits_work (a : Word) (s : State) (sh bc na ix) : portReadBits a (s.withWorking sh bc na ix) =
    ((portReadBits a s).1, (portReadBits a s).2.withWorking sh bc na ix) := by
  simp only [portReadBits, askEnv_work]; rfl

theorem portWrite_work (a : Word) (v) (s : State) (sh bc na ix) : portWrite a v (s.withWorking sh bc na ix) = (portWrite a v
    s).withWorking sh bc na ix := by
  simp only [portWrite, latchPort]
  split <;> (try split) <;> simp [State.log, State.setOut, State.setDdr]

theorem sameButWorking_blind (a b c d) : Blind (SameButWorking a b c d) := by
  refine ⟨?_, ?_, ?_, ?_⟩
  · intro s s' h; obtain ⟨_,_,_,_,rfl,-⟩ := h.cases; exact ⟨rfl, rfl⟩
  · intro s s' h w; obtain ⟨_,_,_,_,rfl,h1,h2,h3,h4⟩ := h.cases
    rw [portReadBits_work]; exact ⟨rfl, .intro (fun x => by rw [portReadBits_snd]; exact h1 x) (fun x =>
        by rw [portReadBits_snd]; exact h2 x) (fun x => by rw [portReadBits_snd]; exact h3 x) (fun x => by rw [portReadBits_snd]; exact h4 x)⟩
  · intro s s' h k x; obtain ⟨sh,bc,na,ix,rfl,h1,h2,h3,h4⟩ := h.cases
    have e : rmwOut k x (s.withWorking sh bc na ix) = (rmwOut k x s).withWorking sh bc na ix := by
      simp only [rmwOut, portRead, portReadBits_work, portWrite_work]
    rw [e]
    exact .intro (by simpa using h1) (by simpa using h2) (by simpa using h3) (by simpa using h4)
  · intro s s' h x; obtain ⟨_,_,_,_,rfl,h1,h2,h3,h4⟩ := h.cases
    exact .intro h1 h2 h3 h4

theorem SameButWorking.forget {a b c d} : ∀ s s', SameButWorking a b c d s s' → SameButWorking false false false false s
    s' := fun _ _ h => ⟨h.eq, nofun, nofun, nofun, nofun⟩
/-- The states differ in the working registers only. -/
abbrev SameButWork := SameButWorking false false false false

theorem sendBits_sim (c d n) : Sim (SameButWorking true true c d) (SameButWorking true true c d) SameButWork (sendBits n) :=
    by
  induction n with
  | zero => exact Sim.ret _
  | succ n ih =>
    refine Sim.get_bind (fun s s' h => by unfold nextBitOut; rw [h.sh rfl, h.bc rfl]) fun s => ?_
    refine Sim.bind (Sim.wb (sameButWorking_blind ..) SameButWorking.forget _) fun _ => Sim.bind (Sim.mod ?_) fun _ => ih
    intro s s' h
    obtain ⟨sh,bc,na,ix,rfl,h1,h2,h3,h4⟩ := h.cases
    exact ⟨rfl, h1, fun _ => by simp [countBit, h2 rfl], h3, h4⟩

theorem receiveBits_sim (c d n) : Sim (SameButWorking true true c d) (SameButWorking true true c d) SameButWork
    (receiveBits n) := by
  induction n with
  | zero => exact Sim.ret _
  | succ n ih =>
    refine Sim.bind (Sim.rb (sameButWorking_blind ..) SameButWorking.forget) fun x => Sim.bind (Sim.mod ?_) fun _ => ih
    intro s s' h
    obtain ⟨sh,bc,na,ix,rfl,h1,h2,h3,h4⟩ := h.cases
    exact ⟨rfl, fun _ => by simp [countBit, h1 rfl], fun _ => by simp [countBit, h2 rfl], h3, h4⟩

theorem loadShift_sim (a b c d v) : Sim (SameButWorking a b c d) (SameButWorking true true c d) SameButWork
    (modify (loadShift v)) := by
  refine Sim.mod ?_
  intro s s' h
  obtain ⟨sh,bc,na,ix,rfl,h1,h2,h3,h4⟩ := h.cases
  exact ⟨rfl, fun _ => rfl, fun _ => rfl, h3, h4⟩

theorem writeByte_sim (a b c d v) : Sim (SameButWorking a b c d) (SameButWorking true true c d) SameButWork (writeByte v) :=
  Sim.bind (loadShift_sim a b c d _) fun _ => Sim.bind (sendBits_sim c d 8) fun _ => Sim.rb (sameButWorking_blind ..)
      SameButWorking.forget

theorem readByte_sim (a b c d v) : Sim (SameButWorking a b c d) (SameButWorking true true c d) SameButWork (readByte v) :=
  Sim.bind (loadShift_sim a b c d _) fun _ => Sim.bind (receiveBits_sim c d 8) fun _ =>
      Sim.bind (Sim.wb (sameButWorking_blind ..) SameButWorking.forget _) fun _ => Sim.get_bind (fun s s' h =>
      by rw [h.sh rfl]) fun _ => Sim.ret _

theorem Sim.weakIn {α} {R R0 R' E : StateRel} {p : Proc α} (h : Sim R R' E p) (w : ∀ s s', R0 s s' → R s s') : Sim R0 R' E
    p := fun s s' hr => h s s' (w _ _ hr)

theorem SameButWorking.forgetByte {a b c d} : ∀ s s', SameButWorking a b c d s s' → SameButWorking false false c d s s' :=
    fun _ _ h => ⟨h.eq, nofun, nofun, h.na, h.ix⟩

theorem Sim.weakOut {α} {R R0 R' E : StateRel} {p : Proc α} (h : Sim R R0 E p) (w : ∀ s s', R0 s s' → R' s s') : Sim R R' E
    p := by
  intro s s' hr
  have := h s s' hr
  cases h1 : p s <;> cases h2 : p s' <;> rw [h1, h2] at this <;> simp only at this ⊢
  · exact ⟨this.1, w _ _ this.2⟩
  · exact this

theorem sendBytes_sim (buf n) : Sim (SameButWorking false false true true) (SameButWorking false false true true)
    SameButWork (sendBytes buf n) := by
  induction n with
  | zero => exact Sim.ret _
  | succ n ih =>
    refine Sim.get_bind (fun s s' h => by rw [h.ix rfl]) fun s => ?_
    refine Sim.bind (R' := SameButWorking false false true true) (Sim.mg ?_) fun b => Sim.bind (R' :=
        SameButWorking false false true true) ((writeByte_sim false false true true _).weakOut SameButWorking.forgetByte)
        fun ack => Sim.bind (R' := SameButWorking false false true true) (Sim.mod ?_) fun _ => Sim.bind (Sim.mod ?_) fun
        _ => ih
    · intro s s' h
      obtain ⟨sh,bc,na,ix,rfl,h1,h2,h3,h4⟩ := h.cases
      exact ⟨rfl, rfl, h1, h2, h3, h4⟩
    · intro s s' h
      obtain ⟨sh,bc,na,ix,rfl,h1,h2,h3,h4⟩ := h.cases
      exact ⟨rfl, h1, h2, fun _ => by simp [accumulateNack, h3 rfl], h4⟩
    · intro s s' h
      obtain ⟨sh,bc,na,ix,rfl,h1,h2,h3,h4⟩ := h.cases
      exact ⟨rfl, h1, h2, h3, fun _ => by simp [nextIndex, h4 rfl]⟩

theorem receiveBytes_sim (buf len r n) : Sim (SameButWorking false false false true) (SameButWorking false false false true)
    SameButWork (receiveBytes buf len r n) := by
  induction n generalizing r with
  | zero => exact Sim.ret _
  | succ n ih =>
    refine Sim.get_bind (fun s s' h => by rw [h.ix rfl]) fun s => ?_
    refine Sim.bind (R' := SameButWorking false false false true) ((readByte_sim false false false true _).weakOut
        SameButWorking.forgetByte) fun ack => Sim.bind (R' := SameButWorking false false false true) (Sim.mod ?_) fun _ =>
        Sim.bind (Sim.mod ?_) fun _ => ih _
    · intro s s' h
      obtain ⟨sh,bc,na,ix,rfl,h1,h2,h3,h4⟩ := h.cases
      exact ⟨by simp only [h4 rfl]; rfl, h1, h2, nofun, h4⟩
    · intro s s' h
      obtain ⟨sh,bc,na,ix,rfl,h1,h2,h3,h4⟩ := h.cases
      exact ⟨rfl, h1, h2, h3, fun _ => by simp [nextIndex, h4 rfl]⟩

theorem writeBytes_sim (st p buf len) : Sim SameButWork SameButWork SameButWork (writeBytes st p buf len) := by
  refine Sim.bind (R' := SameButWorking false false true false) (Sim.mod ?_) fun _ =>
      Sim.bind (Sim.onlyIf _ (Sim.start (sameButWorking_blind ..) SameButWorking.forget)) fun _ => Sim.bind (R' :=
      SameButWorking false false true true) (Sim.mod ?_) fun _ => Sim.bind (sendBytes_sim _ _) fun _ =>
      Sim.bind (Sim.onlyIf _ (Sim.stop (sameButWorking_blind ..) SameButWorking.forget)) fun _ =>
      Sim.get_bind (fun s s' h => by rw [h.na rfl]) fun _ => (Sim.ret _).weakOut SameButWorking.forget
  · intro s s' h
    obtain ⟨sh,bc,na,ix,rfl,h1,h2,h3,h4⟩ := h.cases
    exact ⟨rfl, h1, h2, fun _ => rfl, h4⟩
  · intro s s' h
    obtain ⟨sh,bc,na,ix,rfl,h1,h2,h3,h4⟩ := h.cases
    exact ⟨rfl, h1, h2, h3, fun _ => rfl⟩

theorem readBytes_sim (p buf len) : Sim SameButWork SameButWork SameButWork (readBytes p buf len) := by
  refine Sim.bind (R' := SameButWork) (Sim.mg ?_) fun _ => Sim.bind (R' := SameButWorking false false false true)
      (Sim.mod ?_) fun _ => Sim.bind (receiveBytes_sim _ _ _ _) fun _ =>
      Sim.bind (Sim.onlyIf _ (Sim.stop (sameButWorking_blind ..) SameButWorking.forget)) fun _ =>
      (Sim.ret _).weakOut SameButWorking.forget
  · intro s s' h
    obtain ⟨sh,bc,na,ix,rfl,h1,h2,h3,h4⟩ := h.cases
    exact ⟨rfl, rfl, h1, h2, h3, h4⟩
  · intro s s' h
    obtain ⟨sh,bc,na,ix,rfl,h1,h2,h3,h4⟩ := h.cases
    exact ⟨rfl, h1, h2, h3, fun _ => rfl⟩

theorem portWrite_sim : ∀ s s', SameButWork s s' → ∀ a v, SameButWork (portWrite a v s) (portWrite a v s') := by
  intro s s' h a v
  obtain ⟨sh,bc,na,ix,rfl,h1,h2,h3,h4⟩ := h.cases
  refine ⟨?_, nofun, nofun, nofun, nofun⟩
  rw [portWrite_work]

theorem procOf_sim (i) : Sim SameButWork SameButWork SameButWork (procOf i) := by
  have B := sameButWorking_blind false false false false
  have W := @SameButWorking.forget false false false false
  cases i
  case release l => exact Sim.bind (Sim.rel B W _) fun _ => Sim.ret _
  case drivelow l => exact Sim.bind (Sim.drv B W _) fun _ => Sim.ret _
  case readline l => exact Sim.bind (Sim.readLine B W _) fun _ => Sim.ret _
  case wrbit l => exact Sim.bind (Sim.wb B W _) fun _ => Sim.ret _
  case rdbit => exact Sim.bind (Sim.rb B W) fun _ => Sim.ret _
  case start => exact Sim.bind (Sim.start B W) fun _ => Sim.ret _
  case stop => exact Sim.bind (Sim.stop B W) fun _ => Sim.ret _
  case wrbyte l =>
    exact Sim.bind ((writeByte_sim false false false false _).weakOut SameButWorking.forget) fun _ =>
      Sim.ret _
  case rdbyte l => exact (readByte_sim false false false false _).weakOut SameButWorking.forget
  case wrbytes => exact writeBytes_sim _ _ _ _
  case rdbytes => exact readBytes_sim _ _ _
  case init =>
    refine Sim.bind (R' := SameButWork) (Sim.mod ?_) fun _ => Sim.ret _
    intro s s' h
    have c : s'.cfg = s.cfg := (B.cfg _ _ h).1
    have h1 := portWrite_sim _ _ h s.cfg.portOutAddr s.cfg.initOut
    have h2 := portWrite_sim _ _ h1 s.cfg.ddrAddr s.cfg.initDdr
    obtain ⟨sh,bc,na,ix,e,-⟩ := h2.cases
    simp only [initPort, c, e]
    exact ⟨rfl, nofun, nofun, nofun, nofun⟩
  case reset =>
    refine Sim.bind (R' := SameButWork) (Sim.mod ?_) fun _ => Sim.ret _
    intro s s' h
    have c : s'.cfg = s.cfg := (B.cfg _ _ h).1
    have h1 := portWrite_sim _ _ h s.cfg.ddrAddr s.cfg.resetDdr
    have h2 := portWrite_sim _ _ h1 s.cfg.portOutAddr s.cfg.resetOut
    obtain ⟨sh,bc,na,ix,e,-⟩ := h2.cases
    simp only [resetPort, c, e]
    exact ⟨rfl, nofun, nofun, nofun, nofun⟩

/-! ### From procedures to commands -/
theorem exec_sim {R : StateRel} (hcfg : ∀ s s', R s s' → s'.cfg = s.cfg ∧ s'.configured = s.configured) (hp : ∀ i,
    Sim R R R (procOf i))
   (hco : ∀ s s', R s s' → ∀ c v cmd, R (complete c v cmd s) (complete c v cmd s'))
   (hra : ∀ s s', R s s' → ∀ c cmd, R (raiseCondition c cmd s) (raiseCondition c cmd s')) {i s s' t} (h : exec i s = .next
       t) (hr : R s s') :
   ∃ t', exec i s' = .next t' ∧ R t t' := by
  obtain ⟨c1, c2⟩ := hcfg _ _ hr
  rcases exec_cases h with ⟨a, b, rfl⟩ | ⟨x, y, hbuf, a, b, rfl⟩ | ⟨a, b, hx⟩
  · obtain ⟨t', ht'⟩ := exec_isNext i s'
    rcases exec_cases ht' with ⟨-, -, rfl⟩ | ⟨_, _, _, h, -⟩ | ⟨h | h, -⟩
    · exact ⟨_, ht', hra _ _ hr _ _⟩
    · rw [c2, a] at h; cases h
    · rw [c2, a] at h; cases h
    · rw [b] at h; cases h
  · obtain ⟨t', ht'⟩ := exec_isNext i s'
    rcases exec_cases ht' with ⟨h, -⟩ | ⟨_, _, _, h, -, rfl⟩ | ⟨-, h, -⟩
    · rw [c2, a] at h; cases h
    · exact ⟨_, ht', hra _ _ hr _ _⟩
    · have := h _ _ hbuf; rw [c1, b] at this; cases this
  · obtain ⟨t', ht'⟩ := exec_isNext i s'
    rcases exec_cases ht' with ⟨h, h2, -⟩ | ⟨_, _, h1, -, h, rfl⟩ | ⟨-, -, hx'⟩
    · rcases a with a | a
      · rw [c2, a] at h; cases h
      · rw [a] at h2; cases h2
    · have := b _ _ h1; rw [← c1, h] at this; cases this
    · refine ⟨_, ht', ?_⟩
      have hs := hp i s s' hr
      rcases hx with ⟨v, u, e, rfl⟩ | ⟨c, u, e, rfl⟩ <;> rcases hx' with ⟨v', u', e', rfl⟩ | ⟨c', u', e', rfl⟩ <;> rw [e,
          e'] at hs <;> simp only at hs
      · rw [← hs.1]; exact hco _ _ hs.2 _ _ _
      · rw [← hs.1]; exact hra _ _ hs.2 _ _

/-! ### The history -/

/-- The state with `h` before its history. -/
abbrev State.withBefore (s : State) (h : List Event) : State := { s with history := h ++ s.history }

/-- The second state has `h` before its history, and nothing else is different. -/
def MoreHistory (h : List Event) : StateRel := fun s s' => s' = (s.withBefore h)

theorem portReadBits_moreHistory (h) (s : State) (a : Word) : portReadBits a (s.withBefore h) = ((portReadBits a s).1,
    (portReadBits a s).2.withBefore h) := by
  have : askEnv a (s.withBefore h) = ((askEnv a s).1, (askEnv a s).2.withBefore h) := by
    unfold askEnv envSample; rcases s with ⟨_,_,_,_,_,_,_,_,_,_,_,_,_,_,env,_⟩; cases env <;> (dsimp only; split <;> rfl)
  have e : ∀ e d, portBit (s.withBefore h) a e d = portBit s a e d := fun _ _ => rfl
  simp [portReadBits, this, draw8, State.log, State.setDraws, e]

theorem portWrite_moreHistory (h) (s : State) (a v) : portWrite a v (s.withBefore h) = (portWrite a v s).withBefore h := by
  simp only [portWrite, latchPort]
  split <;> (try split) <;> simp [State.log, State.setOut, State.setDdr]

theorem moreHistory_blind (h) : Blind (MoreHistory h) := by
  refine ⟨?_, ?_, ?_, ?_⟩
  · rintro s s' rfl; exact ⟨rfl, rfl⟩
  · rintro s s' rfl w; rw [portReadBits_moreHistory]; exact ⟨rfl, rfl⟩
  · rintro s s' rfl k x
    unfold MoreHistory
    simp only [rmwOut, portRead, portReadBits_moreHistory, portWrite_moreHistory]
  · rintro s s' rfl x; rfl

theorem procOf_moreHistory (h i) : Sim (MoreHistory h) (MoreHistory h) (MoreHistory h) (procOf i) := by
  have B := moreHistory_blind h
  have W : ∀ s s', MoreHistory h s s' → MoreHistory h s s' := fun _ _ h => h
  have ld : ∀ v, Sim (MoreHistory h) (MoreHistory h) (MoreHistory h) (modify (loadShift v)) := fun v =>
      Sim.mod (by rintro s s' rfl; rfl)
  have sb : ∀ n, Sim (MoreHistory h) (MoreHistory h) (MoreHistory h) (sendBits n) := by
    intro n; induction n with
    | zero => exact Sim.ret _
    | succ n ih =>
      exact Sim.get_bind (by rintro s s' rfl; rfl) fun s => Sim.bind (Sim.wb B W _) fun _ =>
        Sim.bind (Sim.mod (by rintro s s' rfl; rfl)) fun _ => ih
  have rb : ∀ n, Sim (MoreHistory h) (MoreHistory h) (MoreHistory h) (receiveBits n) := by
    intro n; induction n with
    | zero => exact Sim.ret _
    | succ n ih => exact Sim.bind (Sim.rb B W) fun _ => Sim.bind (Sim.mod (by rintro s s' rfl; rfl)) fun _ => ih
  have wby : ∀ b, Sim (MoreHistory h) (MoreHistory h) (MoreHistory h) (writeByte b) := fun b => Sim.bind (ld _) fun _ =>
      Sim.bind (sb _) fun _ => Sim.rb B W
  have rby : ∀ b, Sim (MoreHistory h) (MoreHistory h) (MoreHistory h) (readByte b) := fun b => Sim.bind (ld _) fun _ =>
      Sim.bind (rb _) fun _ => Sim.bind (Sim.wb B W _) fun _ => Sim.get_bind (by rintro s s' rfl; rfl) fun _ => Sim.ret _
  have sby : ∀ buf n, Sim (MoreHistory h) (MoreHistory h) (MoreHistory h) (sendBytes buf n) := by
    intro buf n; induction n with
    | zero => exact Sim.ret _
    | succ n ih =>
      exact Sim.get_bind (by rintro s s' rfl; rfl) fun s => Sim.bind (R' := MoreHistory h)
        (Sim.mg (by rintro s s' rfl; exact ⟨rfl, by unfold MoreHistory; simp [memRead, State.log]⟩)) fun _ =>
        Sim.bind (wby _) fun _ => Sim.bind (R' := MoreHistory h) (Sim.mod (by rintro s s' rfl; rfl)) fun _ =>
        Sim.bind (R' := MoreHistory h) (Sim.mod (by rintro s s' rfl; rfl)) fun _ => ih
  have rcy : ∀ buf len n r, Sim (MoreHistory h) (MoreHistory h) (MoreHistory h) (receiveBytes buf len r n) := by
    intro buf len n; induction n with
    | zero => exact fun r => Sim.ret _
    | succ n ih =>
      exact fun r => Sim.get_bind (by rintro s s' rfl; rfl) fun s => Sim.bind (rby _) fun _ => Sim.bind (R' :=
        MoreHistory h) (Sim.mod (by rintro s s' rfl; unfold MoreHistory; simp [memWrite, State.log, State.setMem])) fun _ =>
        Sim.bind (R' := MoreHistory h) (Sim.mod (by rintro s s' rfl; rfl)) fun _ => ih _
  cases i
  case release l => exact Sim.bind (Sim.rel B W _) fun _ => Sim.ret _
  case drivelow l => exact Sim.bind (Sim.drv B W _) fun _ => Sim.ret _
  case readline l => exact Sim.bind (Sim.readLine B W _) fun _ => Sim.ret _
  case wrbit l => exact Sim.bind (Sim.wb B W _) fun _ => Sim.ret _
  case rdbit => exact Sim.bind (Sim.rb B W) fun _ => Sim.ret _
  case start => exact Sim.bind (Sim.start B W) fun _ => Sim.ret _
  case stop => exact Sim.bind (Sim.stop B W) fun _ => Sim.ret _
  case wrbyte l => exact Sim.bind (wby _) fun _ => Sim.ret _
  case rdbyte l => exact rby _
  case wrbytes st p buf len =>
    exact Sim.bind (R' := MoreHistory h) (Sim.mod (by rintro s s' rfl; rfl)) fun _ =>
        Sim.bind (Sim.onlyIf _ (Sim.start B W)) fun _ => Sim.bind (R' := MoreHistory h) (Sim.mod (by rintro s s' rfl; rfl))
        fun _ => Sim.bind (sby _ _) fun _ => Sim.bind (Sim.onlyIf _ (Sim.stop B W)) fun _ =>
        Sim.get_bind (by rintro s s' rfl; rfl) fun _ => Sim.ret _
  case rdbytes p buf len =>
    exact Sim.bind (R' := MoreHistory h) (Sim.mg (by rintro s s' rfl; exact ⟨rfl, rfl⟩)) fun _ => Sim.bind (R' :=
        MoreHistory h) (Sim.mod (by rintro s s' rfl; rfl)) fun _ => Sim.bind (rcy _ _ _ _) fun _ =>
        Sim.bind (Sim.onlyIf _ (Sim.stop B W)) fun _ => Sim.ret _
  case init =>
    refine Sim.bind (R' := MoreHistory h) (Sim.mod ?_) fun _ => Sim.ret _
    rintro s s' rfl
    simp only [MoreHistory, initPort, portWrite_moreHistory]; rfl
  case reset =>
    refine Sim.bind (R' := MoreHistory h) (Sim.mod ?_) fun _ => Sim.ret _
    rintro s s' rfl
    simp only [MoreHistory, resetPort, portWrite_moreHistory]; rfl

end Sys2Proof.Machine
end

