-- ==== Sys2Proof/Tests/Slice0.lean ====
section
/-! SUPPORT. The model's own tests. Expected words, histories and results are those of spec/95_test_vectors.md, whose vector each
test names; bits of a sample that the spec leaves to a draw, and values it calls a draw, are not compared. Then one witness for
the hypotheses of every statement of Certificates/Slice0/Obligations.lean that has hypotheses. -/
namespace Sys2Proof.Tests
open Sys2Proof.Machine

/-! ### WellFormed: EXCFG and its variants pass, and each check refuses a configuration that fails it -/

/-- The variants of 95_test_vectors.md section 1. -/
def cfgAL : Cfg := { Cfg.excfg with outActiveLow := true, inActiveLow := true, initOut := 0x00#8 }
def cfgSH : Cfg := { Cfg.excfg with portInAddr := 0x8000#16, clkInBit := 6, dataInBit := 7, initDdr := 0x3F#8 }
def cfgARB : Cfg := { Cfg.excfg with arbDetect := true }
def cfgW3 : Cfg := { Cfg.excfg with stretch := .wait 3#16 }
def cfgW3A : Cfg := { cfgW3 with arbDetect := true }
def cfgNS : Cfg := { Cfg.excfg with stopClearsStarted := false }

theorem test_wellFormed : [Cfg.excfg, cfgAL, cfgSH, cfgARB, cfgW3, cfgW3A, cfgNS].all Cfg.wellFormed = true := by decide

theorem test_refuses_outBits : Cfg.failedCheck { Cfg.excfg with dataOutBit := 1 } = some .outBitsDistinct := by decide
theorem test_refuses_inBits : Cfg.failedCheck { Cfg.excfg with dataInBit := 1 } = some .inBitsDistinct := by decide
theorem test_refuses_sharedPort : Cfg.failedCheck { cfgSH with clkInBit := 0 } = some .sharedPortMasksDistinct := by decide
theorem test_refuses_ddrAddr : Cfg.failedCheck { Cfg.excfg with ddrAddr := 0x8001#16 } = some .ddrAddrDistinct := by decide
theorem test_refuses_initDrives : Cfg.failedCheck { Cfg.excfg with initDdr := 0xFD#8 } = some .initDrivesLines := by decide
theorem test_refuses_initSenses : Cfg.failedCheck { cfgSH with initDdr := 0xBF#8 } = some .initSensesLines := by decide
theorem test_refuses_initReleases : Cfg.failedCheck { Cfg.excfg with initOut := 0x01#8 } = some .initReleasesLines := by decide
theorem test_refuses_stretchBound :
    Cfg.failedCheck { Cfg.excfg with stretch := .wait 0#16 } = some .stretchBoundPositive := by decide

/-! ### Decoding: words written out from 30_encoding.md R82 (vectors ENC-1 and ENC-2) -/

/-- What one packet decodes to. -/
def decoded (ws : List Word) : Option Command := (fetchCommand ws).map Prod.fst

theorem test_decode_lines :
    [[0x1000#16], [0x1100#16], [0x2000#16], [0x2100#16], [0x3000#16], [0x3100#16]].map decoded =
      [.release .clock, .release .data, .drivelow .clock, .drivelow .data, .readline .clock, .readline .data].map
        fun i => some (.legal i) := by decide

theorem test_decode_bits :
    [[0x4000#16], [0x4100#16], [0x5000#16], [0x6000#16], [0x7000#16]].map decoded =
      [.wrbit false, .wrbit true, .rdbit, .start, .stop].map fun i => some (.legal i) := by decide

theorem test_decode_bytes :
    [[0x80A5#16], [0x9000#16], [0x9100#16], [0xA000#16], [0xB000#16]].map decoded =
      [.wrbyte 0xA5#8, .rdbyte false, .rdbyte true, .init, .reset].map fun i => some (.legal i) := by decide

theorem test_decode_transactions :
    [[0xC200#16, 0x0300#16, 0x0001#16], [0xC100#16, 0x0302#16, 0x0005#16], [0xC300#16, 0x0300#16, 0x0000#16],
      [0xD100#16, 0x0400#16, 0x0003#16]].map decoded =
      [.wrbytes true false 0x0300#16 1#16, .wrbytes false true 0x0302#16 5#16, .wrbytes true true 0x0300#16 0#16,
        .rdbytes true 0x0400#16 3#16].map fun i => some (.legal i) := by decide

theorem test_decode_illegal :
    [0x0000#16, 0xE000#16, 0xF123#16, 0x1001#16, 0x5100#16, 0x6800#16, 0x8100#16].map (fun w => decoded [w]) =
      [some (.illegal .reservedOpcode [0x0000#16]), some (.illegal .reservedOpcode [0xE000#16]),
        some (.illegal .reservedOpcode [0xF123#16]), some (.illegal .reservedBits [0x1001#16]),
        some (.illegal .reservedBits [0x5100#16]), some (.illegal .reservedBits [0x6800#16]),
        some (.illegal .reservedBits [0x8100#16])] := by decide

theorem test_decode_illegal_packets :
    fetchCommand [0xC400#16, 0x0300#16, 0x0001#16, 0x6000#16] =
      some (.illegal .reservedBits [0xC400#16, 0x0300#16, 0x0001#16], [0x6000#16]) ∧
    decoded [0xD200#16, 0x0300#16, 0x0001#16] = some (.illegal .reservedBits [0xD200#16, 0x0300#16, 0x0001#16]) ∧
    fetchCommand [0xC400#16, 0x0300#16] = none := by decide

theorem test_encode : encode (.wrbytes false true 0x0302#16 5#16) = [0xC100#16, 0x0302#16, 0x0005#16] ∧
    encode (.wrbyte 0xA5#8) = [0x80A5#16] ∧ encode (.readline .data) = [0x3100#16] := by decide

/-- W1 and W2 count on from bit 16 and bit 32. -/
theorem test_decodeTableWord :
    decodeTableWord 48 0x000303001000C200 = some (.wrbytes true false 0x1000#16 0x0300#16) ∧
    decodeTableWord 16 0xD100 = some (.rdbytes true 0#16 0#16) ∧ decodeTableWord 16 0x8100 = none := by decide

/-- ENC-1 and R87, from source text. -/
theorem test_assemble :
    assembleText ['A', 'D', 'D', 'R', 'R', ' ', '0', 'x', '4', '0', ' ', ';', 'r', '\n', '\n',
      'W', 'R', 'B', 'Y', 'T', 'E', 'S', ' ', '1', ',', ' ', '0', ',', '0', 'x', '0', '3', '0', '0', ',', ' ', '1'] =
      .words [0x6000#16, 0x8041#16, 0xC200#16, 0x0300#16, 0x0001#16] ∧
    assembleText ['I', 'N', 'I', 'T', '\n', 'W', 'R', 'B', 'I', 'T', ' ', '2'] = .refused 2 (.outOfRange .v) ∧
    assembleStatements [.addrw 0x41] = .refused 1 (.outOfRange .a) := by decide

/-! ### Steps -/

/-- Start state I (95_test_vectors.md section 1), the working registers and RESULT 0, and with the environment's answers. -/
def stateI (cfg : Cfg) (env : List EnvSample) : State :=
  { State.powerOn cfg with
    configured := true, out := cfg.initOut, ddr := cfg.initDdr, env := env
    shift := 0#8, bitcnt := 0#4, nackacc := false, idx := 0#16, result := ⟨0#3, 0#8⟩ }

/-- Start state T. -/
def stateT (cfg : Cfg) (env : List EnvSample) : State := { stateI cfg env with started := true, out := 0x00#8 }

/-- Start state A. -/
def stateA (cfg : Cfg) (env : List EnvSample) : State := { stateI cfg env with started := true, out := 0x01#8 }

/-- An answer in which CLOCK is held low, DATA is held low, or neither is. -/
def holdC : EnvSample := ⟨true, false⟩
def holdD : EnvSample := ⟨false, true⟩
def free (n : Nat) : List EnvSample := List.replicate n .free

/-- The answers of a slave that presents a byte: DATA low where the bit is 0. -/
def presents (b : Byte) : List EnvSample := (msbFirst b).map fun bit => ⟨false, !bit⟩

/-- The next state. -/
def after : Host.Outcome State Fault Refusal → Option State
  | .next t => some t
  | .fault _ => none
  | .refused _ => none

/-- An event with what the spec leaves to a draw set to 0: a sample's value, and the value of a condition. -/
def seen (e : Event) : Event :=
  match e with
  | .portRead a v => if a = 0x8000#16 then .portRead a v else .portRead a 0#8
  | .portWrite a v => .portWrite a v
  | .memRead a v => .memRead a v
  | .memWrite a v => .memWrite a v
  | .done cmd c v => .done cmd c (if c = .ok then v else 0#8)

/-- `RMW a→b`, a sample, and a completion. -/
def rmw (a b : Byte) : List Event := [.portRead 0x8000#16 a, .portWrite 0x8000#16 b]
def sample : List Event := [.portRead 0x8001#16 0#8]
def done (i : Instr) (c : Condition) (v : Byte) : List Event := [.done (.legal i) c v]

/-- What a command records, and then OUT, `started` and COND at its end. -/
def runs (i : Instr) (s : State) : Option (List Event × Byte × Bool × BitVec 3) :=
  (after (exec i s)).map fun t => (t.history.map seen, t.out, t.started, t.result.cond)

/-- How many port accesses a command makes, the RESULT it leaves, and the buffer reads. -/
def counts (i : Instr) (s : State) : Option (Nat × Word × List (Word × Byte)) :=
  (after (exec i s)).map fun t => (portAccesses t.history, t.resultWord, bufferReads t.history)

/-- LD-7: under EXCFG-AL a release clears the bit. -/
theorem test_release_activeLow : runs (.release .data) { stateI cfgAL [] with out := 0x03#8 } =
    some (rmw 0x03 0x02 ++ done (.release .data) .ok 0#8, 0x02#8, false, 0#3) := by decide +kernel

/-- LD-10: on the shared port both pins read low, driven by the engine. -/
theorem test_release_shared : runs (.release .clock) { stateI cfgSH (free 1) with out := 0x00#8 } =
    some (rmw 0x00 0x02 ++ done (.release .clock) .ok 0#8, 0x02#8, false, 0#3) := by decide +kernel

/-- LD-6: bits 7..2 kept. -/
theorem test_drivelow_keeps : runs (.drivelow .clock) { stateI Cfg.excfg [] with out := 0xA7#8 } =
    some (rmw 0xA7 0xA5 ++ done (.drivelow .clock) .ok 0#8, 0xA5#8, false, 0#3) := by decide +kernel

/-- LD-9: bit 7 is DATA, bit 6 is CLOCK, bits 5..0 are the latch. -/
theorem test_readline_shared : runs (.readline .data) (stateI cfgSH [holdD]) =
    some ([.portRead 0x8000#16 0x43#8] ++ done (.readline .data) .ok 0#8, 0x03#8, false, 0#3) := by decide +kernel

/-- LD-11: with the output bits as inputs the engine drives nothing. -/
theorem test_readline_inputs : runs (.readline .data) { stateI Cfg.excfg (free 1) with out := 0x00#8, ddr := 0x00#8 } =
    some (sample ++ done (.readline .data) .ok 1#8, 0x00#8, false, 0#3) := by decide +kernel

/-- BT-4: arbitration lost, and no CLOCK drive after the check. -/
theorem test_wrbit_lost : runs (.wrbit true) (stateT cfgARB [holdD]) =
    some (rmw 0 1 ++ rmw 1 3 ++ sample ++ done (.wrbit true) .arbLost 0#8, 0x03#8, false, 1#3) := by decide +kernel

/-- BT-9: CLOCK stretched for one poll, then the check. -/
theorem test_wrbit_stretched : runs (.wrbit true) (stateT cfgW3A [holdC, .free, .free]) =
    some (rmw 0 1 ++ rmw 1 3 ++ sample ++ sample ++ sample ++ rmw 3 1 ++ done (.wrbit true) .ok 0#8, 0x01#8, true, 0#3) := by
  decide +kernel

/-- BT-7: two polls low, the third high, then DATA low. -/
theorem test_rdbit_stretched : runs .rdbit (stateA cfgW3 [holdC, holdC, .free, holdD]) =
    some (rmw 1 1 ++ rmw 1 3 ++ sample ++ sample ++ sample ++ sample ++ rmw 3 1 ++ done .rdbit .ok 0#8, 0x01#8, true, 0#3) := by
  decide +kernel

/-- BT-8: the last read-modify-write is the cleanup that releases DATA. -/
theorem test_rdbit_timeout : runs .rdbit (stateA cfgW3 [holdC, holdC, holdC]) =
    some (rmw 1 1 ++ rmw 1 3 ++ sample ++ sample ++ sample ++ rmw 3 3 ++ done .rdbit .busTimeout 0#8, 0x03#8, false, 2#3) := by
  decide +kernel

/-- PE-1: another master holds DATA low at a first START. -/
theorem test_start_lost : runs .start (stateI cfgARB [holdD]) =
    some (sample ++ done .start .arbLost 0#8, 0x03#8, false, 1#3) := by decide +kernel

/-- PE-2: the repeated START with a poll and a check. -/
theorem test_start_repeated : runs .start (stateA cfgW3A (free 2)) =
    some (rmw 1 1 ++ rmw 1 3 ++ sample ++ sample ++ rmw 3 2 ++ rmw 2 0 ++ done .start .ok 0#8, 0x00#8, true, 0#3) := by
  decide +kernel

/-- PE-6: DATA held low by another agent after the release. -/
theorem test_stop_lost : runs .stop (stateA cfgARB [holdD]) =
    some (rmw 1 0 ++ rmw 0 2 ++ rmw 2 3 ++ sample ++ done .stop .arbLost 0#8, 0x03#8, false, 1#3) := by decide +kernel

/-- PE-8: the reference behaviour leaves `started` 1. -/
theorem test_stop_keepsStarted : runs .stop (stateA cfgNS []) =
    some (rmw 1 0 ++ rmw 0 2 ++ rmw 2 3 ++ done .stop .ok 0#8, 0x03#8, true, 0#3) := by decide +kernel

/-- PE-3: the full trace of WRBYTE 0xA5, acknowledged. -/
theorem test_wrbyte_trace : runs (.wrbyte 0xA5#8) (stateT Cfg.excfg [holdD]) =
    some (rmw 0 1 ++ rmw 1 3 ++ rmw 3 1 ++ rmw 1 0 ++ rmw 0 2 ++ rmw 2 0 ++ rmw 0 1 ++ rmw 1 3 ++ rmw 3 1 ++
      rmw 1 0 ++ rmw 0 2 ++ rmw 2 0 ++ rmw 0 0 ++ rmw 0 2 ++ rmw 2 0 ++ rmw 0 1 ++ rmw 1 3 ++ rmw 3 1 ++
      rmw 1 0 ++ rmw 0 2 ++ rmw 2 0 ++ rmw 0 1 ++ rmw 1 3 ++ rmw 3 1 ++
      rmw 1 1 ++ rmw 1 3 ++ sample ++ rmw 3 1 ++ done (.wrbyte 0xA5#8) .ok 0#8, 0x01#8, true, 0#3) := by decide +kernel

/-- PE-4: another master drives DATA low from the third bit on: 19 accesses. -/
theorem test_wrbyte_lost :
    (after (exec (.wrbyte 0xFF#8) (stateT cfgARB [.free, .free, holdD]))).map
      (fun t => (portAccesses t.history, t.out, t.started, t.result.cond)) = some (19, 0x03#8, false, 1#3) := by decide +kernel

/-- PE-5: the slave presents 0x3C. -/
theorem test_rdbyte_value : counts (.rdbyte false) (stateA Cfg.excfg (presents 0x3C#8)) =
    some (62, 0x3C00#16, []) := by decide +kernel

/-- PE-5: DATA held low through the NACK bit: 61 accesses, and the partial byte is not returned. -/
theorem test_rdbyte_lost :
    (after (exec (.rdbyte true) (stateA cfgARB (presents 0x5A#8 ++ [holdD])))).map
      (fun t => (portAccesses t.history, t.out, t.started, t.result.cond)) = some (61, 0x03#8, false, 1#3) := by decide +kernel

/-- BH-1: INIT at power-on. -/
theorem test_init : (after (exec .init { State.powerOn Cfg.excfg with out := 0x5A#8 })).map
      (fun t => (t.history, t.out, t.ddr, t.started, t.configured, t.resultWord)) =
    some ([.portWrite 0x8000#16 0x03#8, .portWrite 0x8002#16 0xFF#8] ++ done .init .ok 0#8,
      0x03#8, 0xFF#8, false, true, 0x0000#16) := by decide +kernel

/-- BH-3: RESET, the direction register first. -/
theorem test_reset : (after (exec .reset (stateI Cfg.excfg []))).map
      (fun t => (t.history, t.out, t.ddr, t.configured, t.resultWord)) =
    some ([.portWrite 0x8002#16 0x00#8, .portWrite 0x8000#16 0x00#8] ++ done .reset .ok 0#8,
      0x00#8, 0x00#8, false, 0x0000#16) := by decide +kernel

/-- Bytes 0x11, 0x22, 0x33 at 0x0300. -/
def mem3 : Memory := [(0x300, 0x11#8), (0x301, 0x22#8), (0x302, 0x33#8)]

/-- SRC-2: a NACK on byte 1 of 3, and no early end. -/
theorem test_wrbytes_nack :
    counts (.wrbytes true true 0x0300#16 3#16) { stateI Cfg.excfg [holdD, .free, holdD] with mem := mem3 } =
      some (175, 0x0100#16, [(0x0300#16, 0x11#8), (0x0301#16, 0x22#8), (0x0302#16, 0x33#8)]) := by decide +kernel

/-- EX-2: a timeout in byte 1: 77 accesses, byte 2 is never read and no STOP is issued. -/
theorem test_wrbytes_timeout :
    (after (exec (.wrbytes true false 0x0300#16 3#16) { stateI cfgW3 (free 9 ++ [holdD] ++ List.replicate 3 holdC) with
        mem := [(0x300, 0xA5#8), (0x301, 0x3C#8), (0x302, 0xFF#8)] })).map
      (fun t => (portAccesses t.history, bufferReads t.history, t.out, t.started, t.result.cond)) =
      some (77, [(0x0300#16, 0xA5#8), (0x0301#16, 0x3C#8)], 0x03#8, false, 2#3) := by decide +kernel

/-- SRC-4: three bytes, ACK, ACK, NACK, STOP. -/
theorem test_rdbytes_value :
    (after (exec (.rdbytes true 0x0400#16 3#16)
        (stateA Cfg.excfg (presents 0x11#8 ++ presents 0x22#8 ++ presents 0x33#8)))).map
      (fun t => (portAccesses t.history, t.result, t.mem, t.out, t.started)) =
      some (192, ⟨0#3, 0x33#8⟩, [(0x400, 0x11#8), (0x401, 0x22#8), (0x402, 0x33#8)], 0x03#8, false) := by decide +kernel

/-- EX-3: arbitration lost at the NACK of byte 1: 123 accesses, and 0x0401 is not written. -/
theorem test_rdbytes_lost :
    (after (exec (.rdbytes true 0x0400#16 2#16) (stateA cfgARB (presents 0x11#8 ++ presents 0x22#8 ++ [holdD])))).map
      (fun t => (portAccesses t.history, t.mem, t.started, t.result.cond)) =
      some (123, [(0x400, 0x11#8)], false, 1#3) := by decide +kernel

/-- BH-11 to BH-14: the buffer check. -/
theorem test_bufferOk :
    [(0xFFFF#16, 2#16), (0x0100#16, 1#16), (0x7FFF#16, 2#16), (0x0000#16, 0#16), (0x7FFF#16, 1#16)].map
      (fun b => bufferOk Cfg.excfg b.1 b.2) = [false, false, false, true, true] := by decide

/-- ENC-3 and EX-1: what is checked first, by a step right after reset. -/
theorem test_priority :
    (after (step (State.reset.withFetchWord 16 0xE000))).map (fun t => t.result.cond) = some 3#3 ∧
    (after (step (State.reset.withFetchWord 48 0x0002FFFFC000))).map (fun t => t.result.cond) = some 4#3 ∧
    (after (step (State.reset.withFetchWord 16 0xA000))).map (fun t => (t.configured, t.out)) = some (true, 0x03#8) := by
  decide +kernel

/-! ### Witnesses: for each statement with hypotheses, states and operands that meet them together -/

/-- Start state A with an environment of free answers. -/
def quiet (cfg : Cfg) (n : Nat) : State := stateA cfg (free n)

/-- A configured engine on an idle bus. -/
def idle (cfg : Cfg) (n : Nat) : State := stateI cfg (free n)

theorem clockFree_of {s : State} {n : Nat} (h : decide (n ≤ s.env.length ∧ ∀ e ∈ s.env, e.clockLow = false) = true) :
    ClockFree s n := (of_decide_eq_true h : n ≤ s.env.length ∧ ∀ e ∈ s.env, e.clockLow = false)

theorem clockHeld_of {s : State} {n : Nat} (h : decide (n ≤ s.env.length ∧ ∀ e ∈ s.env, e.clockLow = true) = true) :
    ClockHeld s n := (of_decide_eq_true h : n ≤ s.env.length ∧ ∀ e ∈ s.env, e.clockLow = true)

theorem bufferOK_of {cfg : Cfg} {buf len : Word} (h : bufferOk cfg buf len = true) : BufferOK cfg buf len :=
  (bufferOk_iff cfg buf len).mp h

theorem not_bufferOK_of {cfg : Cfg} {buf len : Word} (h : bufferOk cfg buf len = false) : ¬ BufferOK cfg buf len := by
  rw [← bufferOk_iff, h]
  decide

theorem witness_EncodeOfDecode :
    fetchCommand [0xC3FF#16 &&& 0xFF00#16, 0xFFFF#16, 0xFFFF#16, 7#16] =
      some (.legal (.wrbytes true true 0xFFFF#16 0xFFFF#16), [7#16]) := by decide

theorem witness_PacketLengthIsDecidedByOp :
    opField 0xC400#16 = 0xC#4 ∧ opField 0xDFFF#16 = 0xD#4 ∧ (opField 0xB000#16 ≠ 0xC#4 ∧ opField 0xB000#16 ≠ 0xD#4) ∧
      (opField 0xE000#16 ≠ 0xC#4 ∧ opField 0xE000#16 ≠ 0xD#4) := by decide

/-- The least operand out of each range, an odd address, and statements that stand before. -/
theorem witness_AssemblerStatementsEncode : bitAt 0xFE#8 0 = false ∧ bitAt 0x00#8 0 = false ∧ 1 < 2 ∧ 255 < 256 ∧
    65535 < 65536 ∧ 0x41 % 2 = 1 ∧ assembleStatements [.init, .restart] = .words [0xA000#16, 0x6000#16] := by decide

theorem witness_StepRunsTheDecodedCommand :
    Cfg.excfg.wellFormed = true ∧
      fetchCommand { idle Cfg.excfg 0 with stream := [0xD100#16, 0xFFFF#16, 1#16] }.stream =
        some (.legal (.rdbytes true 0xFFFF#16 1#16), []) ∧
      { idle Cfg.excfg 0 with stream := [0x6000#16, 7#16] }.stream = encode .start ++ [7#16] := by decide

/-- The illegal words of ENC-2 that begin a packet of three words and of one, and both points of R85. -/
theorem witness_IllegalPacketOnlyReports :
    Cfg.excfg.wellFormed = true ∧ IllegalWord 0xD200#16 ∧ IllegalWord 0xE000#16 ∧ IllegalWord 0x8100#16 ∧
      { State.reset with stream := [0xD200#16, 0x0300#16, 0x0001#16] }.stream =
        (if opField 0xD200#16 = 0xC#4 ∨ opField 0xD200#16 = 0xD#4 then [0xD200#16, 0x0300#16, 0x0001#16] else [0xD200#16]) ++ [] ∧
      ∃ t, exec .start State.reset = .next t := by
  refine ⟨by decide, ?_, ?_, ?_, by decide, _, rfl⟩ <;> (unfold IllegalWord; decide)

theorem witness_StepRefusesExactlyBadConfigurations :
    Cfg.excfg.stretch ≠ .wait 0#16 ∧ (∃ r, step (State.powerOn { Cfg.excfg with dataOutBit := 1 }) = .refused r) :=
  ⟨by decide, _, rfl⟩

theorem witness_WaitingEngineLetsTheHostMove :
    Cfg.excfg.wellFormed = true ∧ fetchCommand { State.reset with stream := [0xC000#16, 1#16] }.stream = none ∧
      State.reset.host = [] ∧ { State.reset with host := [.send 1#16] }.host = .send 1#16 :: [] ∧
      ({ State.reset with host := [.store 0xFFFF#16 1#8] }.host = .store 0xFFFF#16 1#8 :: [] ∧
        0xFFFF#16 ≠ Cfg.excfg.portOutAddr ∧ 0xFFFF#16 ≠ Cfg.excfg.portInAddr ∧ 0xFFFF#16 ≠ Cfg.excfg.ddrAddr) ∧
      { State.reset with host := [.store 0x8000#16 1#8] }.host = .store State.reset.cfg.portOutAddr 1#8 :: [] ∧
      { State.reset with host := [.store 0x8002#16 1#8] }.host = .store State.reset.cfg.ddrAddr 1#8 :: [] := by
  refine ⟨by decide, by decide, rfl, rfl, ⟨rfl, by decide, by decide, by decide⟩, rfl, rfl⟩

theorem witness_PowerOnState : cfgW3A.wellFormed = true := by decide

theorem witness_StepKeepsTheInvariant :
    Inv (quiet Cfg.excfg 0) ∧ ∃ t, step ((quiet Cfg.excfg 0).withFetchWord 16 0x80A5) = .next t :=
  ⟨⟨by decide, by decide⟩, _, rfl⟩

theorem witness_StepKeepsThePortSetUp :
    PortSetUp (idle cfgSH 0) ∧ HostLeavesDdr { idle cfgSH 0 with host := [.store 0x8000#16 0#8] } ∧
      ∃ t, step { idle cfgSH 0 with host := [.store 0x8000#16 0#8] } = .next t := by
  refine ⟨⟨by decide, fun _ => ⟨⟨by decide, by decide⟩, fun _ => ⟨by decide, by decide⟩⟩⟩, ?_, _, rfl⟩
  intro _ _ a v rest h
  cases h
  decide

theorem witness_ConfigurationNeverChanges :
    (∃ t, exec .reset (idle Cfg.excfg 0) = .next t) ∧ ∃ t, step State.reset = .next t := ⟨⟨_, rfl⟩, _, rfl⟩

/-- For InitClaimsTheLines, ResetGivesTheLinesBack and ResetAndInitRepeat. -/
theorem witness_InitAndReset :
    cfgAL.wellFormed = true ∧ ∃ t u v w, exec .reset (idle cfgAL 0) = .next t ∧ exec .reset t = .next u ∧
      exec .init u = .next v ∧ exec .init v = .next w := ⟨by decide, _, _, _, _, rfl, rfl, rfl, rfl⟩

/-- For ReleaseIsOneReadModifyWrite, DrivelowIsOneReadModifyWrite and ReadlineReturnsTheLevel: an output bit that is no sense
bit, on a shared port and not; a line that the engine drives low; an answer. -/
theorem witness_LineDriver :
    (idle cfgSH 1).configured = true ∧ isOutput (idle cfgSH 1) 5 = true ∧
      (5 : BitIndex) ≠ cfgSH.clkInBit ∧ (5 : BitIndex) ≠ cfgSH.dataInBit ∧ isOutput (idle Cfg.excfg 1) 7 = true ∧
      cfgSH.wellFormed = true ∧ engineLow (stateT cfgSH []) .data = true ∧ (idle cfgSH 1).env = .free :: [] := by decide

/-- Clause by clause: no stretch wait; the last poll reads high; all polls read low. -/
theorem witness_StretchWaitPollsUntilClockIsHigh :
    Cfg.excfg.stretch = .none ∧ cfgW3.wellFormed = true ∧ cfgW3.stretch = .wait 3#16 ∧
      engineLow (stateI cfgW3 [holdC, holdC, .free]) .clock = false ∧ (∀ x ∈ [holdC, holdC], x.clockLow = true) ∧
      EnvSample.free.clockLow = false ∧ [holdC, holdC].length < (3#16 : Word).toNat ∧
      (∀ x ∈ [holdC, holdC, holdC], x.clockLow = true) ∧ [holdC, holdC, holdC].length = (3#16 : Word).toNat := by decide

theorem witness_ArbCheckSamplesDataOnce :
    cfgARB.wellFormed = true ∧ Cfg.excfg.arbDetect = false ∧ cfgARB.arbDetect = true ∧
      (idle cfgARB 1).env = .free :: [] ∧ (stateI cfgARB [holdD]).env = holdD :: [] := by decide

/-- For WrbitClocksOneBitOut and RdbitReturnsTheSample: CLOCK stretched for one poll before a check (BT-9: 9 accesses) and for
all polls but the last (BT-7: 10 accesses), a 0 bit that is not checked, and a shared port. -/
theorem witness_Bits :
    cfgW3A.wellFormed = true ∧ (stateT cfgW3A [holdC, .free, .free]).configured = true ∧
      hear cfgW3A (writeAsks true) [holdC, .free, .free] = ⟨.through, 9, 2, [], 0, []⟩ ∧
      hear cfgW3 readAsks [holdC, holdC, .free, holdD] = ⟨.through, 10, 3, [false], 0, []⟩ ∧
      hear cfgARB (writeAsks false) [] = ⟨.through, 6, 0, [], 0, []⟩ ∧
      (hear cfgSH (writeAsks true) [holdD, holdC, holdD]).ending = .through ∧
      LinesAreOutputs (stateT cfgW3A [holdC, .free, .free]) :=
  ⟨by decide, by decide, by decide, by decide, by decide, by decide, by decide, by decide⟩

/-- For StartMakesAStartCondition: a first START on a free bus, with and without its check, and a repeated START (PE-2: 10
accesses). For StopMakesAStopCondition: a STOP with CLOCK stretched. -/
theorem witness_StartAndStop :
    cfgARB.wellFormed = true ∧ cfgW3A.wellFormed = true ∧ (idle cfgARB 1).configured = true ∧
      (idle cfgARB 1).started = false ∧ (hear cfgARB (startAsks (idle cfgARB 1)) (free 1)).ending = .through ∧
      Cfg.excfg.arbDetect = false ∧ (idle Cfg.excfg 0).started = false ∧
      (stateA cfgW3A (free 2)).started = true ∧
      hear cfgW3A (startAsks (stateA cfgW3A (free 2))) (free 2) = ⟨.through, 10, 1, [], 0, []⟩ ∧
      hear cfgW3A stopAsks [holdC, holdC, .free, .free] = ⟨.through, 10, 3, [], 0, []⟩ := by decide

/-- Clause by clause, under ARB_DETECT: a START from released lines, a repeated START and a STOP with CLOCK low, a STOP on an
idle bus. -/
theorem witness_ConditionsOnTheWire :
    cfgARB.wellFormed = true ∧ (idle cfgARB 1).configured = true ∧ (quiet cfgARB 1).configured = true ∧
      LinesAreOutputs (idle cfgARB 1) ∧ LinesAreOutputs (quiet cfgARB 1) ∧ (idle cfgARB 1).started = false ∧
      (quiet cfgARB 1).started = true ∧ (∀ l, engineLow (idle cfgARB 1) l = false) ∧
      engineLow (quiet cfgARB 1) .clock = true ∧
      (∃ t, exec .start (idle cfgARB 1) = .next t ∧ t.result.cond = 0#3) ∧
      (∃ t, exec .start (quiet cfgARB 1) = .next t ∧ t.result.cond = 0#3) ∧
      (∃ t, exec .stop (quiet cfgARB 1) = .next t ∧ t.result.cond = 0#3) ∧
      ∃ t, exec .stop (idle cfgARB 1) = .next t ∧ t.result.cond = 0#3 :=
  ⟨by decide, by decide, by decide, ⟨by decide, by decide⟩, ⟨by decide, by decide⟩, by decide, by decide,
    fun l => by cases l <;> decide, by decide, ⟨_, rfl, by decide +kernel⟩, ⟨_, rfl, by decide +kernel⟩,
    ⟨_, rfl, by decide +kernel⟩, _, rfl, by decide +kernel⟩

theorem witness_ZeroBitsAndReadsNeverLoseArbitration :
    cfgARB.wellFormed = true ∧ (∃ t, exec (.wrbit false) (stateT cfgARB [holdD]) = .next t) ∧
      (∃ t, exec .rdbit (stateT cfgARB [holdD]) = .next t) ∧ (∃ t, exec (.rdbyte false) (stateT cfgARB []) = .next t) ∧
      ∃ t, exec (.wrbyte 0x00#8) (stateT cfgARB []) = .next t := ⟨by decide, ⟨_, rfl⟩, ⟨_, rfl⟩, ⟨_, rfl⟩, _, rfl⟩

/-- Clause by clause: DATA held low at the check of a WRBIT and of a repeated START, of a first START, and of a STOP; then
DATA driven low by the engine at a first START. -/
theorem witness_ArbitrationLossEndsTheCommand :
    cfgARB.wellFormed = true ∧ cfgARB.arbDetect = true ∧ (stateT cfgARB (holdD :: free 8)).configured = true ∧
      ClockFree (stateT cfgARB (holdD :: free 8)) 8 ∧ (stateT cfgARB (holdD :: free 8)).started = true ∧
      dataSeen (stateT cfgARB (holdD :: free 8)) (sharedSamples cfgARB 2 + pollsWhenFree cfgARB) = false ∧
      dataSeen (stateT cfgARB (holdD :: free 8)) (sharedSamples cfgARB 3 + pollsWhenFree cfgARB) = false ∧
      (stateI cfgARB (holdD :: free 8)).started = false ∧ dataSeen (stateI cfgARB (holdD :: free 8)) 0 = false ∧
      engineLow { stateI cfgARB (free 8) with out := 0x02#8 } .data = true :=
  ⟨by decide, by decide, by decide, clockFree_of (by decide), by decide, by decide, by decide, by decide, by decide, by decide⟩

theorem witness_BusTimeoutReleasesDataAndEnds :
    cfgW3.wellFormed = true ∧ cfgW3.stretch = .wait 3#16 ∧ (stateA cfgW3 (List.replicate 6 holdC)).configured = true ∧
      ClockHeld (stateA cfgW3 (List.replicate 6 holdC)) ((3#16 : Word).toNat + 3) ∧
      (stateA cfgW3 (List.replicate 6 holdC)).started = true :=
  ⟨by decide, by decide, by decide, clockHeld_of (by decide), by decide⟩

theorem witness_UnconfiguredCommandsOnlyReport :
    State.reset.configured = false ∧ (Instr.wrbytes false false 0xFFFF#16 2#16 ≠ .init) ∧
      (Instr.wrbytes false false 0xFFFF#16 2#16 ≠ .reset) := by decide

/-- Both clauses, at the ends of the address space and of the admitted range. -/
theorem witness_BadBuffersOnlyReport :
    (idle Cfg.excfg 0).configured = true ∧ ¬ BufferOK Cfg.excfg 0xFFFF#16 2#16 ∧ ¬ BufferOK Cfg.excfg 0x7FFF#16 2#16 ∧
      BufferOK Cfg.excfg 0x7FFF#16 1#16 ∧ BufferOK Cfg.excfg 0xFFFF#16 0#16 ∧
      ∃ t, exec (.wrbytes false false 0x7FFF#16 1#16) (idle Cfg.excfg 0) = .next t :=
  ⟨by decide, not_bufferOK_of (by decide), not_bufferOK_of (by decide), bufferOK_of (by decide), bufferOK_of (by decide), _, rfl⟩

/-- Both conditions are reached (BT-4 and BT-8); the first-start path of a WRBYTES, and a later loss of one. -/
theorem witness_StateAfterABusCondition :
    cfgARB.wellFormed = true ∧ (∃ t, exec (.wrbit true) (stateT cfgARB [holdD]) = .next t ∧ t.result.cond = 1#3) ∧
      (∃ t, exec (.wrbytes true false 0x0300#16 1#16) (stateI cfgARB [holdD]) = .next t ∧ t.result.cond = 1#3) ∧
      (∃ t, exec (.wrbytes true true 0x0300#16 0#16) (stateI cfgARB [.free, holdD]) = .next t ∧ t.result.cond = 1#3) ∧
      cfgW3.wellFormed = true ∧ ∃ t, exec .rdbit (stateA cfgW3 [holdC, holdC, holdC]) = .next t ∧ t.result.cond = 2#3 :=
  ⟨by decide, ⟨_, rfl, by decide +kernel⟩, ⟨_, rfl, by decide +kernel⟩, ⟨_, rfl, by decide +kernel⟩, by decide, _, rfl,
    by decide +kernel⟩

theorem witness_NoConditionWithoutItsFeature :
    Cfg.excfg.wellFormed = true ∧ Cfg.excfg.arbDetect = false ∧ Cfg.excfg.stretch = .none ∧
      ∃ t, exec .start (stateA Cfg.excfg [⟨true, true⟩]) = .next t := ⟨by decide, by decide, by decide, _, rfl⟩

/-- For WrbyteReturnsTheAcknowledgment: under ARB_DETECT a slave that acknowledges 0xFF (PE-4: 63 accesses) and one that echoes
0xA5 and acknowledges it (SRC-1). For RdbyteAssemblesTheSamples: under ARB_DETECT a slave that presents 0x3C and leaves the NACK
bit to the master; under WAIT(3) with CLOCK stretched in every bit. -/
theorem witness_Bytes :
    cfgARB.wellFormed = true ∧ cfgW3.wellFormed = true ∧ (quiet cfgARB 0).configured = true ∧
      hear cfgARB (writeByteAsks 0xFF#8) (free 8 ++ [holdD]) = ⟨.through, 63, 0, [false], 0, []⟩ ∧
      hear cfgARB (writeByteAsks 0xA5#8) (free 4 ++ [holdD]) = ⟨.through, 59, 0, [false], 0, []⟩ ∧
      hear cfgARB (readByteAsks true) (presents 0x3C#8 ++ free 1) = ⟨.through, 63, 0, msbFirst 0x3C#8, 0, []⟩ ∧
      byteOfMsbFirst (msbFirst 0x3C#8) = 0x3C#8 ∧
      (hear cfgW3 (readByteAsks false) ((List.replicate 9 [holdC, .free, holdD]).flatten)).ending = .through := by
  decide +kernel

theorem witness_WrbyteSendsMostSignificantBitFirst :
    cfgARB.wellFormed = true ∧ (stateA cfgARB (free 4 ++ [holdD])).configured = true ∧
      LinesAreOutputs (stateA cfgARB (free 4 ++ [holdD])) ∧ engineLow (stateA cfgARB (free 4 ++ [holdD])) .clock = true ∧
      ∃ t, exec (.wrbyte 0xA5#8) (stateA cfgARB (free 4 ++ [holdD])) = .next t ∧ t.result.cond = 0#3 :=
  ⟨by decide, by decide, ⟨by decide, by decide⟩, by decide, _, rfl, by decide +kernel⟩

/-- Clause by clause: START, STOP, a command that keeps `started`, a condition, INIT; each ends as the clause says. -/
theorem witness_StartedFollowsItsTable :
    Cfg.excfg.wellFormed = true ∧ cfgARB.wellFormed = true ∧
      (∃ t, exec .start (idle Cfg.excfg 0) = .next t ∧ t.result.cond = 0#3) ∧
      (∃ t, exec .stop (quiet Cfg.excfg 0) = .next t ∧ t.result.cond = 0#3) ∧
      (∃ t, exec (.wrbit true) (quiet Cfg.excfg 0) = .next t ∧ t.result.cond = 0#3) ∧
      (∃ t, exec (.wrbit true) (stateT cfgARB [holdD]) = .next t ∧ t.result.cond = 1#3) ∧
      ∃ t, exec .init (quiet Cfg.excfg 0) = .next t :=
  ⟨by decide, by decide, ⟨_, rfl, by decide +kernel⟩, ⟨_, rfl, by decide +kernel⟩, ⟨_, rfl, by decide +kernel⟩,
    ⟨_, rfl, by decide +kernel⟩, _, rfl⟩

theorem witness_ClockStaysLowBetweenBits :
    Cfg.excfg.wellFormed = true ∧ (idle Cfg.excfg 0).configured = true ∧
      (∃ t, exec .start (idle Cfg.excfg 0) = .next t ∧ t.result.cond = 0#3) ∧
      ∃ t, exec (.wrbytes true false 0x0300#16 1#16) (stateI Cfg.excfg [holdD]) = .next t ∧ t.result.cond = 0#3 :=
  ⟨by decide, by decide, ⟨_, rfl, by decide +kernel⟩, _, rfl, by decide +kernel⟩

/-- Bytes 0x40, 0x01 at the last two admitted addresses. -/
def mem2 : Memory := [(0x7FFE, 0x40#8), (0x7FFF, 0x01#8)]

/-- For WrbytesSendsTheBuffer and WrbytesClocksEveryByteOut, under ARB_DETECT: a first START, two bytes of which the first is
acknowledged, a STOP; and a repeated START with CLOCK low at entry. -/
theorem witness_Wrbytes :
    cfgARB.wellFormed = true ∧ BufferOK cfgARB 0x7FFE#16 2#16 ∧
      (let s := { stateI cfgARB [.free, .free, holdD, .free, .free, .free] with mem := mem2 }
       s.configured = true ∧ LinesAreOutputs s ∧ s.started = false ∧
        hear cfgARB (asksOf s (.wrbytes true true 0x7FFE#16 2#16)) s.env = ⟨.through, 124, 0, [false, true], 2, []⟩ ∧
        ∃ t, exec (.wrbytes true true 0x7FFE#16 2#16) s = .next t ∧ t.result.cond = 0#3) ∧
      (let s := { stateA cfgARB (free 6) with mem := mem2 }
       LinesAreOutputs s ∧ engineLow s .clock = true ∧
        (hear cfgARB (asksOf s (.wrbytes true true 0x7FFE#16 2#16)) s.env).ending = .through ∧
        ∃ t, exec (.wrbytes true true 0x7FFE#16 2#16) s = .next t ∧ t.result.cond = 0#3) :=
  ⟨by decide, bufferOK_of (by decide),
    ⟨by decide, ⟨by decide, by decide⟩, by decide, by decide +kernel, _, rfl, by decide +kernel⟩,
    ⟨by decide, by decide⟩, by decide, by decide +kernel, _, rfl, by decide +kernel⟩

/-- For RdbytesFillsTheBuffer and RdbytesAcknowledgesAllButTheLast, under ARB_DETECT: a slave that presents 0x11 and 0x22 and
leaves the last bit to the master, at the last two admitted addresses. -/
theorem witness_Rdbytes :
    cfgARB.wellFormed = true ∧ BufferOK cfgARB 0x7FFE#16 2#16 ∧
      (let s := stateA cfgARB (presents 0x11#8 ++ presents 0x22#8 ++ free 2)
       s.configured = true ∧ s.mem.wf = true ∧ LinesAreOutputs s ∧ engineLow s .clock = true ∧
        hear cfgARB (asksOf s (.rdbytes true 0x7FFE#16 2#16)) s.env =
          ⟨.through, 132, 0, msbFirst 0x11#8 ++ msbFirst 0x22#8, 2, []⟩ ∧
        ∃ t, exec (.rdbytes true 0x7FFE#16 2#16) s = .next t ∧ t.result.cond = 0#3) :=
  ⟨by decide, bufferOK_of (by decide), by decide, by decide, ⟨by decide, by decide⟩, by decide, by decide +kernel, _, rfl,
    by decide +kernel⟩

/-- EX-2 and EX-3: the timeout in byte 1 (75 accesses before the cleanup, bytes 0 and 1 read) and the loss at the last NACK (123
accesses, byte 0 stored); and commands without a buffer. -/
theorem witness_ConditionsEndACommandWhereTheyArise :
    cfgW3.wellFormed = true ∧ cfgARB.wellFormed = true ∧ BufferOK cfgW3 0x0300#16 3#16 ∧ BufferOK cfgARB 0x0400#16 2#16 ∧
      (let s := { stateI cfgW3 (free 9 ++ [holdD] ++ List.replicate 3 holdC) with
          mem := [(0x300, 0xA5#8), (0x301, 0x3C#8), (0x302, 0xFF#8)] }
       s.configured = true ∧
        hear cfgW3 (asksOf s (.wrbytes true false 0x0300#16 3#16)) s.env = ⟨.timedOut, 75, 12, [false], 2, []⟩) ∧
      (let s := stateA cfgARB (presents 0x11#8 ++ presents 0x22#8 ++ [holdD])
       hear cfgARB (asksOf s (.rdbytes true 0x0400#16 2#16)) s.env =
        ⟨.lost, 123, 0, msbFirst 0x11#8 ++ msbFirst 0x22#8, 1, []⟩) ∧
      (hear cfgARB (asksOf (idle cfgARB 0) .start) [holdD]).ending = .lost ∧
      (∀ st p buf len, Instr.start ≠ .wrbytes st p buf len) ∧ (∀ p buf len, Instr.start ≠ .rdbytes p buf len) :=
  ⟨by decide, by decide, bufferOK_of (by decide), bufferOK_of (by decide), ⟨by decide, by decide +kernel⟩,
    by decide +kernel, by decide, nofun, nofun⟩

theorem split_at {l : List Event} {n : Nat} {e : Event} (h : l[n]? = some e) : l = l.take n ++ e :: l.drop (n + 1) := by
  obtain ⟨hn, rfl⟩ := List.getElem?_eq_some_iff.mp h
  rw [← List.drop_eq_getElem_cons hn, List.take_append_drop]

/-- A buffer read after 55 accesses of the first byte, and the buffer write after 62 accesses. -/
theorem witness_BufferAccessesStandBetweenBytes :
    Cfg.excfg.wellFormed = true ∧ LinesAreOutputs (stateA Cfg.excfg []) ∧
      (∃ t before after a x, exec (.wrbytes false false 0x7FFE#16 2#16) { stateA Cfg.excfg [holdD] with mem := mem2 } = .next t ∧
        newEvents { stateA Cfg.excfg [holdD] with mem := mem2 } t = before ++ .memRead a x :: after) ∧
      ∃ t before after a x, exec (.rdbytes false 0x7FFF#16 1#16) (stateA Cfg.excfg (presents 0x3C#8)) = .next t ∧
        newEvents (stateA Cfg.excfg (presents 0x3C#8)) t = before ++ .memWrite a x :: after :=
  ⟨by decide, ⟨by decide, by decide⟩,
    ⟨_, _, _, 0x7FFF#16, 0x01#8, rfl, split_at (n := 56) (by decide +kernel)⟩,
    _, _, _, 0x7FFF#16, 0x3C#8, rfl, split_at (n := 62) (by decide +kernel)⟩

/-- For BufferIsTouchedInOrder, EmptyReadMakesNoAccess, ResultHoldsACodeOfTheTable, PortAccessesAreBounded, HistoryIsNeverRead
and WorkingRegistersAreWrittenBeforeRead: a transaction that completes with OK, one that a condition ends, an empty read, and a
command with no buffer. -/
theorem witness_EveryCommand :
    Cfg.excfg.wellFormed = true ∧ (stateA Cfg.excfg (presents 0x11#8)).configured = true ∧
      (∃ t, exec (.rdbytes false 0x0400#16 1#16) (stateA Cfg.excfg (presents 0x11#8)) = .next t ∧ t.result.cond = 0#3) ∧
      (∃ t, exec (.wrbytes false false 0x0300#16 1#16) (stateA cfgW3 [holdC, holdC, holdC]) = .next t ∧ t.result.cond = 2#3) ∧
      (∃ t, exec (.rdbytes false 0x0400#16 0#16) (quiet Cfg.excfg 0) = .next t) ∧
      (∀ st p buf len, Instr.start ≠ .wrbytes st p buf len) ∧ (∀ p buf len, Instr.start ≠ .rdbytes p buf len) ∧
      ∃ t, exec .start (quiet Cfg.excfg 0) = .next t :=
  ⟨by decide, by decide, ⟨_, rfl, by decide +kernel⟩, ⟨_, rfl, by decide +kernel⟩, ⟨_, rfl⟩, nofun, nofun, _, rfl⟩

/-- On a shared port: bit 5 is an output bit, no line bit and no sense bit. -/
theorem witness_OtherOutputBitsAreKept :
    Instr.start ≠ .init ∧ Instr.start ≠ .reset ∧ SenseBitsAreInputs (idle cfgSH 2) ∧
      (∃ t, exec .start (idle cfgSH 2) = .next t) ∧ (5 : BitIndex) ≠ cfgSH.clkOutBit ∧ (5 : BitIndex) ≠ cfgSH.dataOutBit ∧
      isOutput (idle cfgSH 2) 5 = true :=
  ⟨by decide, by decide, fun _ => ⟨by decide, by decide⟩, ⟨_, rfl⟩, by decide, by decide, by decide⟩

theorem witness_OnlyInitAndResetConfigure :
    Cfg.excfg.wellFormed = true ∧ Instr.stop ≠ .init ∧ Instr.stop ≠ .reset ∧
      ∃ t, exec .stop (quiet Cfg.excfg 0) = .next t := ⟨by decide, by decide, by decide, _, rfl⟩

theorem witness_StartedIsNotReadBeforeInit :
    State.reset.configured = false ∧ (∃ t, exec .start State.reset = .next t) ∧ Instr.start ≠ .init ∧ Instr.start ≠ .reset ∧
      ∃ t, exec .init State.reset = .next t := ⟨by decide, ⟨_, rfl⟩, by decide, by decide, _, rfl⟩

theorem witness_HostBitsOfThePortArePreserved :
    ∃ t u, step { idle Cfg.excfg 0 with host := [.store 0x8000#16 0xA7#8] } = .next t ∧ exec (.drivelow .clock) t = .next u ∧
      Cfg.excfg.wellFormed = true ∧ fetchCommand (idle Cfg.excfg 0).stream = none ∧
      (HostMove.store 0x8000#16 0xA7#8 = .store (idle Cfg.excfg 0).cfg.portOutAddr 0xA7#8) ∧
      SenseBitsAreInputs (idle Cfg.excfg 0) ∧ (7 : BitIndex) ≠ Cfg.excfg.clkOutBit ∧ (7 : BitIndex) ≠ Cfg.excfg.dataOutBit ∧
      isOutput (idle Cfg.excfg 0) 7 = true :=
  ⟨_, _, rfl, rfl, by decide, by decide, rfl, fun h => absurd h (by decide), by decide, by decide, by decide⟩

end Sys2Proof.Tests
end

section
/-! SUPPORT. The conditions of 00_scope.md R7 as propositions, and when a step refuses. -/
namespace Sys2Proof.Machine

/-! ### The conditions of R7 -/

theorem meets_outBitsDistinct (cfg : Cfg) :
    cfg.meets .outBitsDistinct = true ↔ cfg.clkOutBit ≠ cfg.dataOutBit := by
  simp [Cfg.meets]

theorem meets_inBitsDistinct (cfg : Cfg) :
    cfg.meets .inBitsDistinct = true ↔ cfg.clkInBit ≠ cfg.dataInBit := by
  simp [Cfg.meets]

theorem meets_sharedPortMasksDistinct (cfg : Cfg) :
    cfg.meets .sharedPortMasksDistinct = true ↔ (cfg.portInAddr = cfg.portOutAddr →
      cfg.clkInBit ≠ cfg.clkOutBit ∧ cfg.clkInBit ≠ cfg.dataOutBit ∧
      cfg.dataInBit ≠ cfg.clkOutBit ∧ cfg.dataInBit ≠ cfg.dataOutBit) := by
  simp [Cfg.meets, and_assoc, imp_iff_not_or]

theorem meets_ddrAddrDistinct (cfg : Cfg) :
    cfg.meets .ddrAddrDistinct = true ↔ cfg.ddrAddr ≠ cfg.portOutAddr ∧ cfg.ddrAddr ≠ cfg.portInAddr := by
  simp [Cfg.meets]

theorem meets_initDrivesLines (cfg : Cfg) :
    cfg.meets .initDrivesLines = true ↔ bitAt cfg.initDdr cfg.clkOutBit = cfg.ddrOutValue ∧
      bitAt cfg.initDdr cfg.dataOutBit = cfg.ddrOutValue := by
  simp [Cfg.meets, bitAt]

theorem meets_initSensesLines (cfg : Cfg) :
    cfg.meets .initSensesLines = true ↔ (cfg.portInAddr = cfg.portOutAddr →
      bitAt cfg.initDdr cfg.clkInBit ≠ cfg.ddrOutValue ∧ bitAt cfg.initDdr cfg.dataInBit ≠ cfg.ddrOutValue) := by
  simp [Cfg.meets, bitAt, imp_iff_not_or]

theorem meets_initReleasesLines (cfg : Cfg) :
    cfg.meets .initReleasesLines = true ↔ bitAt cfg.initOut cfg.clkOutBit = relBit cfg ∧
      bitAt cfg.initOut cfg.dataOutBit = relBit cfg := by
  simp [Cfg.meets, bitAt, relBit]

theorem meets_stretchBoundPositive (cfg : Cfg) :
    cfg.meets .stretchBoundPositive = true ↔ cfg.stretch ≠ .wait 0#16 := by
  simp [Cfg.meets]

/-- A configuration within the ranges of R6 is well formed exactly when the seven conditions of R7 hold. -/
theorem wellFormed_iff_conditions {cfg : Cfg} (hN : cfg.stretch ≠ .wait 0#16) :
    cfg.wellFormed = true ↔
      cfg.meets .outBitsDistinct = true ∧ cfg.meets .inBitsDistinct = true ∧
      cfg.meets .sharedPortMasksDistinct = true ∧ cfg.meets .ddrAddrDistinct = true ∧
      cfg.meets .initDrivesLines = true ∧ cfg.meets .initSensesLines = true ∧ cfg.meets .initReleasesLines = true := by
  have hlast : cfg.meets .stretchBoundPositive = true := (meets_stretchBoundPositive cfg).mpr hN
  simp only [Cfg.wellFormed, ConfigCheck.all, List.all_cons, List.all_nil, Bool.and_eq_true, hlast, and_true]

/-- INIT_DDR makes the line bits outputs (R7). -/
theorem Cfg.initDdr_outBits {cfg : Cfg} (h : cfg.wellFormed = true) :
    bitAt cfg.initDdr cfg.clkOutBit = cfg.ddrOutValue ∧ bitAt cfg.initDdr cfg.dataOutBit = cfg.ddrOutValue :=
  (meets_initDrivesLines cfg).mp (meets_of_wellFormed h .initDrivesLines)

/-- INIT_DDR makes the sense bits of a shared port inputs (R7). -/
theorem Cfg.initDdr_inBits {cfg : Cfg} (h : cfg.wellFormed = true) (hp : cfg.portInAddr = cfg.portOutAddr) :
    bitAt cfg.initDdr cfg.clkInBit ≠ cfg.ddrOutValue ∧ bitAt cfg.initDdr cfg.dataInBit ≠ cfg.ddrOutValue :=
  (meets_initSensesLines cfg).mp (meets_of_wellFormed h .initSensesLines) hp

/-! ### Refusals -/

/-- The check that a refusal names fails. -/
theorem meets_of_failedCheck {cfg : Cfg} {c : ConfigCheck} (h : cfg.failedCheck = some c) : cfg.meets c = false := by
  simpa using List.find?_some h

theorem failedCheck_eq_none_iff (cfg : Cfg) : cfg.failedCheck = none ↔ cfg.wellFormed = true := by
  simp [Cfg.failedCheck, Cfg.wellFormed]

theorem step_of_failedCheck {s : State} {c : ConfigCheck} (h : s.cfg.failedCheck = some c) :
    step s = .refused (.configuration c) := by
  simp [step, h]

/-- With no complete packet waiting a step is the host's turn. -/
theorem step_of_waiting {s : State} (hw : s.cfg.wellFormed = true) (hf : fetchCommand s.stream = none) :
    step s = .next (hostTurn s) := by
  simp [step, failedCheck_of_wellFormed hw, hf]

theorem execCommand_isNext (cmd : Command) (s : State) : ∃ t, execCommand cmd s = .next t := by
  cases cmd with
  | legal i => exact exec_isNext i s
  | illegal why words => exact ⟨_, rfl⟩

/-- Under a well-formed configuration every step answers a next state. -/
theorem step_isNext {s : State} (hw : s.cfg.wellFormed = true) : ∃ t, step s = .next t := by
  cases hf : fetchCommand s.stream with
  | none => exact ⟨_, step_of_waiting hw hf⟩
  | some packet =>
    obtain ⟨t, ht⟩ := execCommand_isNext packet.1 (s.setStream packet.2)
    exact ⟨t, by simp [step, failedCheck_of_wellFormed hw, hf, ht]⟩

/-- What a step can answer: a next state under a well-formed configuration, or the refusal of one that is not. -/
theorem step_outcome (s : State) :
    (s.cfg.wellFormed = true ∧ ∃ t, step s = .next t) ∨
      (s.cfg.wellFormed = false ∧ ∃ c, step s = .refused (.configuration c) ∧ s.cfg.meets c = false) := by
  cases hc : s.cfg.failedCheck with
  | none =>
    have hw := (failedCheck_eq_none_iff s.cfg).mp hc
    exact .inl ⟨hw, step_isNext hw⟩
  | some c =>
    have hw : s.cfg.wellFormed = false := by
      rw [← Bool.not_eq_true, ← failedCheck_eq_none_iff, hc]
      simp
    exact .inr ⟨hw, c, step_of_failedCheck hc, meets_of_failedCheck hc⟩

/-- A step refuses exactly the configurations that are not well formed. -/
theorem step_refuses_iff (s : State) : (∃ r, step s = .refused r) ↔ ¬ s.cfg.wellFormed = true := by
  obtain ⟨hw, t, ht⟩ | ⟨hw, c, hc, -⟩ := step_outcome s
  · simp [hw, ht]
  · simp [hw, hc]

/-- Settles O9: a step refuses what is not well formed, and that is what fails a condition of R7. -/
theorem stepRefusesExactlyBadConfigurations : Obligations.StepRefusesExactlyBadConfigurations := by
  intro s hN
  refine ⟨?_, fun r hr => ?_, fun f hf => ?_⟩
  · rw [step_refuses_iff, wellFormed_iff_conditions hN, meets_outBitsDistinct, meets_inBitsDistinct,
      meets_sharedPortMasksDistinct, meets_ddrAddrDistinct, meets_initDrivesLines, meets_initSensesLines,
      meets_initReleasesLines, and_assoc (a := s.cfg.ddrAddr ≠ s.cfg.portOutAddr)]
  · obtain ⟨-, t, ht⟩ | ⟨-, c, hc, hm⟩ := step_outcome s
    · simp [ht] at hr
    · rw [hc, Host.Outcome.refused.injEq] at hr
      exact ⟨c, hr.symm, hm⟩
  · obtain ⟨-, t, ht⟩ | ⟨-, c, hc, -⟩ := step_outcome s
    · simp [ht] at hf
    · simp [hc] at hf

end Sys2Proof.Machine
end

section
/-! SUPPORT. What the host's turn does, move by move. -/
namespace Sys2Proof.Machine

theorem hostTurn_of_nil {s : State} (h : s.host = []) : hostTurn s = s := by
  simp [hostTurn, h]

theorem hostTurn_of_cons {s : State} {m : HostMove} {ms : List HostMove} (h : s.host = m :: ms) :
    hostTurn s = hostMove m (s.setHost ms) := by
  simp [hostTurn, h]

theorem hostStore_portOutAddr (v : Byte) (s : State) : hostStore s.cfg.portOutAddr v s = s.setOut v := by
  simp [hostStore, isPortAddr, latchPort]

theorem hostStore_ddrAddr (v : Byte) (s : State) (h : s.cfg.ddrAddr ≠ s.cfg.portOutAddr) :
    hostStore s.cfg.ddrAddr v s = s.setDdr v := by
  simp [hostStore, isPortAddr, latchPort, h]

theorem hostStore_memory {a : Word} (v : Byte) (s : State) (ho : a ≠ s.cfg.portOutAddr) (hi : a ≠ s.cfg.portInAddr)
    (hd : a ≠ s.cfg.ddrAddr) : hostStore a v s = s.setMem (writeCell s.mem a.toNat v) := by
  simp [hostStore, isPortAddr, ho, hi, hd]

/-- Settles O10: a step is then the host's turn, which is its next move. -/
theorem waitingEngineLetsTheHostMove : Obligations.WaitingEngineLetsTheHostMove := by
  intro s hw hf
  rw [step_of_waiting hw hf]
  refine ⟨fun h => ?_, fun w ms h => ?_, fun a v ms h ho hi hd => ?_, fun v ms h => ?_, fun v ms h => ?_⟩
  · rw [hostTurn_of_nil h]
  · rw [hostTurn_of_cons h]
    rfl
  · rw [hostTurn_of_cons h]
    exact congrArg _ (hostStore_memory v (s.setHost ms) ho hi hd)
  · rw [hostTurn_of_cons h]
    exact congrArg _ (hostStore_portOutAddr v (s.setHost ms))
  · rw [hostTurn_of_cons h]
    exact congrArg _ (hostStore_ddrAddr v (s.setHost ms) (Cfg.ddrAddr_ne hw))

end Sys2Proof.Machine
end

section
/-! SUPPORT. The port set-up (10_state.md R26) through commands and moves of the host. -/
namespace Sys2Proof.Machine

/-- The port set-up is kept where the configuration and `configured` stay, and DDR stays while the engine is configured. -/
theorem PortSetUp.of_frame {s t : State} (h : PortSetUp s) (hcfg : t.cfg = s.cfg) (hconf : t.configured = s.configured)
    (hddr : s.configured = true → t.ddr = s.ddr) : PortSetUp t := by
  obtain ⟨hw, hport⟩ := h
  refine ⟨by rw [hcfg]; exact hw, fun hc => ?_⟩
  rw [hconf] at hc
  have hout (k : BitIndex) : isOutput t k = isOutput s k := by simp [isOutput, hcfg, hddr hc]
  simpa [LinesAreOutputs, SenseBitsAreInputs, hout, hcfg] using hport hc

/-- INIT writes INIT_DDR to the direction register (43_bus_handle.md R170). -/
theorem exec_init_ddr {s t : State} (hd : s.cfg.ddrAddr ≠ s.cfg.portOutAddr) (h : exec .init s = .next t) :
    t.ddr = s.cfg.initDdr := by
  cases h
  simp [runProc, initCommand, initPort, complete, portWrite, latchPort, hd]

/-- RESET leaves the engine unconfigured (43_bus_handle.md R171). -/
theorem exec_reset_configured {s t : State} (h : exec .reset s = .next t) : t.configured = false := by
  cases h
  rfl

/-- INIT sets the port up: a well-formed configuration's INIT_DDR has the right directions (R7). -/
theorem exec_init_portSetUp {s t : State} (hw : s.cfg.wellFormed = true) (h : exec .init s = .next t) :
    PortSetUp t := by
  have hcfg : t.cfg = s.cfg := (exec_initReset h (.inl rfl)).1
  have hout (k : BitIndex) : isOutput t k = (bitAt s.cfg.initDdr k == s.cfg.ddrOutValue) := by
    rw [isOutput, exec_init_ddr (Cfg.ddrAddr_ne hw) h, hcfg]
  refine ⟨by rw [hcfg]; exact hw, fun _ => ⟨?_, fun hp => ?_⟩⟩
  · simpa [LinesAreOutputs, hout, hcfg] using Cfg.initDdr_outBits hw
  · rw [hcfg] at hp
    simpa [hout, hcfg] using Cfg.initDdr_inBits hw hp

/-- Every command keeps the port set-up. -/
theorem exec_portSetUp {i : Instr} {s t : State} (hs : PortSetUp s) (h : exec i s = .next t) : PortSetUp t := by
  by_cases hi : i = .init
  · subst hi
    exact exec_init_portSetUp hs.1 h
  by_cases hr : i = .reset
  · subst hr
    refine ⟨?_, fun hc => ?_⟩
    · rw [(exec_initReset h (.inr rfl)).1]
      exact hs.1
    · simp [exec_reset_configured h] at hc
  · obtain ⟨u, c, v, hu, rfl⟩ := exec_runFrame h hi hr
    exact hs.of_frame hu.cfg hu.configured fun _ => hu.ddr

/-- Settles O14: a command, an illegal packet and a move of the host each keep the port set-up. -/
theorem stepKeepsThePortSetUp : Obligations.StepKeepsThePortSetUp := by
  intro s t hs hhost h
  obtain ⟨-, ⟨i, rest, -, hexec⟩ | ⟨why, ws, rest, -, rfl⟩ | ⟨hwait, rfl⟩⟩ := step_cases h
  · exact exec_portSetUp (hs.of_frame (t := s.setStream rest) rfl rfl fun _ => rfl) hexec
  · exact hs.of_frame rfl rfl fun _ => rfl
  · obtain ⟨hcfg, hconf, -, -, hddr⟩ := hostTurn_frame s
    exact hs.of_frame hcfg hconf (hddr hhost hwait)

end Sys2Proof.Machine
end

section
/-! SUPPORT. The drives of a START and of a STOP that complete with OK, and the conditions they make on the wire. -/
namespace Sys2Proof.Machine

/-- A bus condition never has the code of OK (60_exceptions.md R200). -/
theorem BusCondition.code_ne_ok (c : BusCondition) : c.condition.code ≠ 0#3 := by
  cases c <;> decide

/-- A command without a buffer that completes with OK on a configured engine is its procedure's normal end. -/
theorem procOf_ok_of_exec {i : Instr} {s t : State} (hc : s.configured = true) (hb : bufferOf i = none)
    (h : exec i s = .next t) (hok : t.result.cond = 0#3) :
    ∃ v u, procOf i s = .ok v u ∧ t = complete .ok v (.legal i) u := by
  obtain ⟨hc', -⟩ | ⟨buf, len, hb', -⟩ | ⟨-, -, hrun | ⟨c, u, -, rfl⟩⟩ := exec_cases h
  · simp [hc] at hc'
  · simp [hb] at hb'
  · exact hrun
  · exact absurd hok c.code_ne_ok

/-- START completed with OK: its drives (42_protocol_engine.md R141). -/
theorem drives_of_start_ok {s t : State} (hw : s.cfg.wellFormed = true) (hc : s.configured = true)
    (ho : LinesAreOutputs s) (h : exec .start s = .next t) (hok : t.result.cond = 0#3) :
    drives s t = startDrives s := by
  obtain ⟨v, u, hp, rfl⟩ := procOf_ok_of_exec hc rfl h hok
  have hrun : Wp (procOf .start) s (fun _ u => Drove s u (startDrives s)) (fun _ _ => True) :=
    Wp.bind ((startCondition_wp s hw).imp (fun _ _ h => h.2.2.1) (fun _ _ _ => trivial))
  exact ((hrun.of_ok hp).completed _ _ _).2 ho

/-- STOP completed with OK: its drives (R142). -/
theorem drives_of_stop_ok {s t : State} (hw : s.cfg.wellFormed = true) (hc : s.configured = true)
    (ho : LinesAreOutputs s) (h : exec .stop s = .next t) (hok : t.result.cond = 0#3) :
    drives s t = stopDrives (!engineLow s .clock) := by
  obtain ⟨v, u, hp, rfl⟩ := procOf_ok_of_exec hc rfl h hok
  have hrun : Wp (procOf .stop) s (fun _ u => Drove s u (stopDrives (!engineLow s .clock))) (fun _ _ => True) :=
    Wp.bind ((stopCondition_wp s hw).imp (fun _ _ h => h.2.2) (fun _ _ _ => trivial))
  exact ((hrun.of_ok hp).completed _ _ _).2 ho

/-- A first START from released lines makes one START condition (00_scope.md R12). -/
theorem wireConditions_firstStart {s : State} (hs : s.started = false) (hclk : engineLow s .clock = false) :
    wireConditions ⟨true, true⟩ (startDrives s) = [.start] := by
  simp [startDrives, hs, hclk, wireConditions]

/-- A repeated START with CLOCK low makes one START condition and no STOP: DATA rises while CLOCK is still low. -/
theorem wireConditions_repeatedStart {s : State} (d : Bool) (hs : s.started = true) (hclk : engineLow s .clock = true) :
    wireConditions ⟨false, d⟩ (startDrives s) = [.start] := by
  simp [startDrives, hs, hclk, wireConditions]

/-- STOP with CLOCK low makes one STOP condition. -/
theorem wireConditions_stop (d : Bool) : wireConditions ⟨false, d⟩ (stopDrives false) = [.stop] := by
  simp [stopDrives, wireConditions]

/-- STOP on an idle bus first makes a START condition: DATA falls while CLOCK is high (70_reset_and_hazards.md R235). -/
theorem wireConditions_idleStop : wireConditions ⟨true, true⟩ (stopDrives true) = [.start, .stop] := by
  simp [stopDrives, wireConditions]

/-- Settles O36: the conditions on the wire are those of the drives of a completed START or STOP. -/
theorem conditionsOnTheWire : Obligations.ConditionsOnTheWire := by
  intro s t hw hc hok ho
  refine ⟨fun h hs hclk _ => ?_, fun h hs hclk => ?_, fun h hclk => ?_, fun h hclk _ => ?_⟩
  · rw [drives_of_start_ok hw hc ho h hok, wireConditions_firstStart hs hclk]
  · rw [drives_of_start_ok hw hc ho h hok, wireConditions_repeatedStart _ hs hclk]
  · rw [drives_of_stop_ok hw hc ho h hok, hclk]
    exact wireConditions_stop _
  · rw [drives_of_stop_ok hw hc ho h hok, hclk]
    exact wireConditions_idleStop

end Sys2Proof.Machine
end

section
/-! SUPPORT. What every command keeps or leaves behind, INIT and RESET among them, said once. -/
namespace Sys2Proof.Machine

/-- Every command leaves the configuration alone (10_state.md R20), keeps the invariant (R23, R30) and leaves a condition's code
and a value in RESULT (30_encoding.md R91): INIT and RESET touch neither memory nor BITCNT, and any other command is a run
within its frame and a completion. -/
theorem exec_keeps {i : Instr} {s t : State} (h : exec i s = .next t) :
    t.cfg = s.cfg ∧ (Inv s → Inv t) ∧ ∃ (c : Condition) (v : Byte), t.result = ⟨c.code, v⟩ := by
  by_cases hi : i = .init ∨ i = .reset
  · obtain ⟨hcfg, hmem, hbit, -, -, -, -, -, hres⟩ := exec_initReset h hi
    exact ⟨hcfg, fun ⟨hm, hb⟩ => ⟨hmem ▸ hm, hbit ▸ hb⟩, .ok, 0x00#8, hres⟩
  · rw [not_or] at hi
    obtain ⟨u, c, v, hu, rfl⟩ := exec_runFrame h hi.1 hi.2
    exact ⟨hu.cfg, fun ⟨hm, hb⟩ => ⟨hu.mem hm, hu.bitcnt hb⟩, c, v, rfl⟩

/-- Settles O49: the run of a command keeps these bits, and its completion does not write OUT. -/
theorem otherOutputBitsAreKept : Obligations.OtherOutputBitsAreKept := by
  intro i s t k hi hr hsense h hclk hdata hout
  obtain ⟨u, c, v, hu, rfl⟩ := exec_runFrame h hi hr
  exact hu.out hsense k hclk hdata hout

end Sys2Proof.Machine
end

section
/-! SUPPORT. What RESULT can hold after a command, and the layout of its word (10_state.md R24, 60_exceptions.md R200). -/
namespace Sys2Proof.Machine

/-- The codes of the table are 0 to 5; 6 and 7 are reserved (R200). -/
theorem Condition.code_le (c : Condition) : c.code.toNat ≤ 5 := by
  cases c <;> decide

theorem ResultReg.word_cond (r : ResultReg) : r.word.extractLsb' 0 3 = r.cond :=
  BitVec.extractLsb'_append_eq_right

theorem ResultReg.word_reserved (r : ResultReg) : r.word.extractLsb' 3 5 = 0#5 := by
  rw [ResultReg.word, BitVec.extractLsb'_append_eq_of_le (by decide)]
  exact BitVec.extractLsb'_append_eq_right

theorem ResultReg.word_value (r : ResultReg) : r.word.extractLsb' 8 8 = r.value := by
  rw [ResultReg.word, BitVec.extractLsb'_append_eq_of_le (by decide)]
  exact BitVec.extractLsb'_append_eq_left

/-- Settles O52: RESULT holds a condition's code, and the word is VALUE, five zeros and COND put together. -/
theorem resultHoldsACodeOfTheTable : Obligations.ResultHoldsACodeOfTheTable := by
  refine ⟨fun i s t h => ?_, fun s => ⟨s.result.word_cond, s.result.word_reserved, s.result.word_value⟩⟩
  obtain ⟨-, -, c, v, hres⟩ := exec_keeps h
  rw [hres]
  exact c.code_le

end Sys2Proof.Machine
end

section
/-! SUPPORT. The invariants at power-on, and what every step keeps. -/
namespace Sys2Proof.Machine

/-! ### Power-on -/

/-- Nothing is delivered at power-on and the host has no move, so a step changes nothing (70_reset_and_hazards.md R230). -/
theorem step_powerOn {cfg : Cfg} (hw : cfg.wellFormed = true) :
    step (State.powerOn cfg) = .next (State.powerOn cfg) := by
  rw [step_of_waiting (s := State.powerOn cfg) hw rfl, hostTurn_of_nil rfl]

/-- Settles O11: the registers are as power-on writes them, and a step waits. -/
theorem powerOnState : Obligations.PowerOnState :=
  fun _ => ⟨rfl, rfl, rfl, rfl, rfl, step_powerOn⟩

/-- BITCNT at power-on is a draw reduced into its range (log 6). -/
theorem powerOn_bitcnt_le (cfg : Cfg) : (State.powerOn cfg).bitcnt ≤ 8#4 := by
  have h : (State.powerOn cfg).bitcnt = BitVec.ofNat 4 ((Config.freeByte 1).toNat % 9) := rfl
  rw [h, BitVec.le_def, BitVec.toNat_ofNat, BitVec.toNat_ofNat]
  omega

theorem inv_powerOn (cfg : Cfg) : Inv (State.powerOn cfg) := ⟨rfl, powerOn_bitcnt_le cfg⟩

/-- At power-on the engine is not configured, so nothing is asked of the port. -/
theorem portSetUp_powerOn {cfg : Cfg} (hw : cfg.wellFormed = true) : PortSetUp (State.powerOn cfg) :=
  ⟨hw, fun hc => nomatch hc⟩

/-- Settles O12: reset is power-on under EXCFG, and the invariants hold at power-on. -/
theorem invariantsHoldAtReset : Obligations.InvariantsHoldAtReset :=
  ⟨rfl, inv_powerOn Cfg.excfg, portSetUp_powerOn (by decide)⟩

/-! ### The configuration -/

/-- Settles O15: a command, an illegal packet and a move of the host each leave the configuration alone. -/
theorem configurationNeverChanges : Obligations.ConfigurationNeverChanges := by
  refine ⟨fun i s t h => (exec_keeps h).1, fun s t h => ?_⟩
  obtain ⟨-, ⟨i, rest, -, hexec⟩ | ⟨why, ws, rest, -, rfl⟩ | ⟨-, rfl⟩⟩ := step_cases h
  · exact (exec_keeps hexec).1.trans (s.setStream_cfg rest)
  · rfl
  · exact (hostTurn_frame s).1

/-! ### The invariant -/

/-- Settles O13: a command, an illegal packet and a move of the host each keep the invariant. -/
theorem stepKeepsTheInvariant : Obligations.StepKeepsTheInvariant := by
  intro s t hs h
  obtain ⟨-, ⟨i, rest, -, hexec⟩ | ⟨why, ws, rest, -, rfl⟩ | ⟨-, rfl⟩⟩ := step_cases h
  · have hrest : Inv (s.setStream rest) := hs
    exact (exec_keeps hexec).2.1 hrest
  · exact hs
  · obtain ⟨hmem, hbit⟩ := hs
    obtain ⟨-, -, hb, hm, -⟩ := hostTurn_frame s
    exact ⟨hm hmem, hb ▸ hbit⟩

end Sys2Proof.Machine
end

section
/-! SUPPORT. From a relation that the accesses to the lines cannot see to one that every command keeps, and the two relations
of this kind: another history before the same state, and other working registers (10_state.md R23, R31). -/
namespace Sys2Proof.Machine

/-- A relation that a completion and a draw keep as well, and that leaves `configured` alone: with `Blind`, all that a command
does outside its procedure. -/
structure Completes (R : StateRel) : Prop where
  blind : Blind R
  configured : ∀ s s', R s s' → s'.configured = s.configured
  complete : ∀ s s', R s s' → ∀ c v cmd, R (complete c v cmd s) (complete c v cmd s')
  draw : ∀ s s', R s s' → (draw8 s').1 = (draw8 s).1 ∧ R (draw8 s).2 (draw8 s').2

/-- Releasing a line keeps what the line accesses cannot see. -/
theorem Blind.releaseLine {R : StateRel} (hb : Blind R) {s s' : State} (h : R s s') (l : Line) :
    R (releaseLine l s) (releaseLine l s') :=
  (Sim.rel hb (fun _ _ h => h) l s s' h).2

theorem Blind.cleanup {R : StateRel} (hb : Blind R) {s s' : State} (h : R s s') (c : Condition) :
    R (cleanup c s) (cleanup c s') := by
  cases c with
  | arbLost => exact hb.started _ _ h false
  | busTimeout => exact hb.started _ _ (hb.releaseLine h .data) false
  | ok | illegalCommand | notConfigured | bufferFault => exact h

theorem Completes.raiseCondition {R : StateRel} (hR : Completes R) {s s' : State} (h : R s s') (c : Condition)
    (cmd : Command) : R (raiseCondition c cmd s) (raiseCondition c cmd s') := by
  obtain ⟨hv, ht⟩ := hR.draw _ _ (hR.blind.cleanup h c)
  simp only [Machine.raiseCondition, hv]
  exact hR.complete _ _ ht c _ cmd

/-- A relation that every procedure keeps is kept by every command. -/
theorem Completes.exec {R : StateRel} (hR : Completes R) (hproc : ∀ i, Sim R R R (procOf i)) {i : Instr} {s s' t : State}
    (h : exec i s = .next t) (hr : R s s') : ∃ t', Machine.exec i s' = .next t' ∧ R t t' :=
  exec_sim (fun s s' h => ⟨(hR.blind.cfg s s' h).1, hR.configured s s' h⟩) hproc hR.complete
    (fun _ _ h => hR.raiseCondition h) h hr

/-! ### The history -/

theorem moreHistory_completes (before : List Event) : Completes (MoreHistory before) where
  blind := moreHistory_blind before
  configured := by rintro s s' rfl; rfl
  complete := by
    rintro s s' rfl c v cmd
    simp [MoreHistory, complete_eq]
  draw := by rintro s s' rfl; exact ⟨rfl, rfl⟩

/-- Settles O54: every command keeps the relation of a state to the one with more events before its history. -/
theorem historyIsNeverRead : Obligations.HistoryIsNeverRead := by
  intro i s t before h
  obtain ⟨t', ht', rfl⟩ :=
    (moreHistory_completes before).exec (procOf_moreHistory before) (s' := s.withBefore before) h rfl
  exact ht'

/-! ### The working registers -/

theorem sameButWork_completes : Completes SameButWork where
  blind := sameButWorking_blind _ _ _ _
  configured := by
    intro s s' h
    rw [h.eq]
  complete := by
    intro s s' h c v cmd
    obtain ⟨sh, bc, na, ix, rfl, -⟩ := h.cases
    exact ⟨rfl, nofun, nofun, nofun, nofun⟩
  draw := by
    intro s s' h
    obtain ⟨sh, bc, na, ix, rfl, -⟩ := h.cases
    exact ⟨rfl, rfl, nofun, nofun, nofun, nofun⟩

/-- Settles O55: every command keeps the relation of states that differ in the working registers only. -/
theorem workingRegistersAreWrittenBeforeRead : Obligations.WorkingRegistersAreWrittenBeforeRead := by
  intro i s t sh bc na ix h
  have hstart : SameButWork s (s.withWorking sh bc na ix) := .intro nofun nofun nofun nofun
  obtain ⟨t', ht', hend⟩ := sameButWork_completes.exec procOf_sim h hstart
  obtain ⟨sh', bc', na', ix', rfl, -⟩ := hend.cases
  exact ⟨sh', bc', na', ix', ht'⟩

end Sys2Proof.Machine
end

section
/-! SUPPORT. A command word by its fields (30_encoding.md R81): a word is its fields, a row of the opcode map asks one thing
of each of them, and OP alone tells the rows apart; then packets, and the round trip of decoder and encoder. -/
namespace Sys2Proof

open Machine

/-! ### Fields -/

/-- The reserved bits W0[11:10] (R81). -/
def reservedField (w0 : Word) : BitVec 2 := w0.extractLsb' 10 2

/-- Two words with the same fields are the same word. -/
theorem word_eq_iff_fields (w w' : Word) :
    w = w' ↔ opField w = opField w' ∧ reservedField w = reservedField w' ∧ sField w = sField w' ∧
      fField w = fField w' ∧ imm8Field w = imm8Field w' := by
  refine ⟨fun h => h ▸ ⟨rfl, rfl, rfl, rfl, rfl⟩, fun ⟨hop, hres, hs, hf, himm⟩ => ?_⟩
  have hbits : ∀ {n : Nat} (k : Nat), w.extractLsb' k n = w'.extractLsb' k n →
      ∀ i, k ≤ i → i < k + n → w.getLsbD i = w'.getLsbD i := by
    intro n k h i hk hn
    have := congrArg (·.getLsbD (i - k)) h
    simpa [show i - k < n by omega, Nat.add_sub_cancel' hk] using this
  apply BitVec.eq_of_getLsbD_eq
  intro i hi
  obtain h | rfl | rfl | h | h : i < 8 ∨ i = 8 ∨ i = 9 ∨ (10 ≤ i ∧ i < 12) ∨ 12 ≤ i := by omega
  · exact hbits 0 himm i (by omega) (by omega)
  · exact hf
  · exact hs
  · exact hbits 10 hres i h.1 h.2
  · exact hbits 12 hop i h hi

@[simp] theorem opField_and (w m : Word) : opField (w &&& m) = opField w &&& opField m := BitVec.extractLsb'_and
@[simp] theorem reservedField_and (w m : Word) : reservedField (w &&& m) = reservedField w &&& reservedField m :=
  BitVec.extractLsb'_and
@[simp] theorem sField_and (w m : Word) : sField (w &&& m) = (sField w && sField m) := BitVec.getLsbD_and
@[simp] theorem fField_and (w m : Word) : fField (w &&& m) = (fField w && fField m) := BitVec.getLsbD_and
@[simp] theorem imm8Field_and (w m : Word) : imm8Field (w &&& m) = imm8Field w &&& imm8Field m :=
  BitVec.extractLsb'_and

section
variable (op : BitVec 4) (s f : Bool) (b : Byte)

@[simp] theorem opField_commandWord : opField (commandWord op s f b) = op := by
  simp only [opField, commandWord, BitVec.extractLsb'_append_eq_of_le, Nat.reduceLeDiff, Nat.reduceSub,
    BitVec.extractLsb'_eq_self]
@[simp] theorem reservedField_commandWord : reservedField (commandWord op s f b) = 0#2 := by
  simp only [reservedField, commandWord, BitVec.extractLsb'_append_eq_of_le, Nat.reduceLeDiff, Nat.reduceSub,
    BitVec.extractLsb'_append_eq_right]
@[simp] theorem sField_commandWord : sField (commandWord op s f b) = s := by
  simp only [sField, commandWord, BitVec.getLsbD_append, BitVec.getLsbD_ofBool]
  simp
@[simp] theorem fField_commandWord : fField (commandWord op s f b) = f := by
  simp only [fField, commandWord, BitVec.getLsbD_append, BitVec.getLsbD_ofBool]
  simp
@[simp] theorem imm8Field_commandWord : imm8Field (commandWord op s f b) = b := imm8Field_append _ b

end

/-- A word whose reserved bits are zero is put together from its other fields. -/
theorem commandWord_fields {w0 : Word} (h : reservedField w0 = 0#2) :
    commandWord (opField w0) (sField w0) (fField w0) (imm8Field w0) = w0 :=
  (word_eq_iff_fields _ _).mpr (by simp [h])

/-! ### The rows of the opcode map (R82), by their mnemonics -/

/-- OP of the row (R82). -/
def Mnemonic.op : Mnemonic → BitVec 4
  | .release => 0x1#4 | .drivelow => 0x2#4 | .readline => 0x3#4 | .wrbit => 0x4#4 | .rdbit => 0x5#4
  | .start => 0x6#4 | .stop => 0x7#4 | .wrbyte => 0x8#4 | .rdbyte => 0x9#4 | .init => 0xA#4
  | .reset => 0xB#4 | .wrbytes => 0xC#4 | .rdbytes => 0xD#4

/-- Is `S` an operand of the row (R83)? -/
def Mnemonic.readsS : Mnemonic → Bool
  | .wrbytes => true
  | _ => false

/-- Is `F` an operand of the row, as L, V, LAST or P (R83)? -/
def Mnemonic.readsF : Mnemonic → Bool
  | .release | .drivelow | .readline | .wrbit | .rdbyte | .wrbytes | .rdbytes => true
  | _ => false

/-- Is `IMM8` an operand of the row (R83)? -/
def Mnemonic.readsImm8 : Mnemonic → Bool
  | .wrbyte => true
  | _ => false

/-- Are the two extension words operands of the row (R84)? -/
def Mnemonic.readsWords : Mnemonic → Bool
  | .wrbytes | .rdbytes => true
  | _ => false

/-- The row admits these fields: what is no operand of it is zero. -/
def Mnemonic.Admits (m : Mnemonic) (s f : Bool) (b : Byte) : Prop :=
  (s = true → m.readsS = true) ∧ (f = true → m.readsF = true) ∧ (m.readsImm8 = false → b = 0#8)

theorem exists_row (m : Mnemonic) : ∃ r ∈ opcodeTable, r.mnemonic = m := by
  cases m <;> decide

/-- Every pattern is an OP with zeros below it, and every mask covers OP, the reserved bits and what is no operand. -/
theorem row_fields : ∀ r ∈ opcodeTable,
    r.pattern = commandWord r.mnemonic.op false false 0#8 ∧ opField r.mask = 0xF#4 ∧ reservedField r.mask = 3#2 ∧
      sField r.mask = !r.mnemonic.readsS ∧ fField r.mask = !r.mnemonic.readsF ∧
      imm8Field r.mask = if r.mnemonic.readsImm8 then 0#8 else 0xFF#8 := by decide

/-- A word selects a row when it has the row's OP and zeros in its reserved bits, and the row admits its other fields. -/
theorem selects_iff_fields {r : OpcodeRow} (hr : r ∈ opcodeTable) (w : Word) :
    r.selects w = true ↔ opField w = r.mnemonic.op ∧ reservedField w = 0#2 ∧
      r.mnemonic.Admits (sField w) (fField w) (imm8Field w) := by
  obtain ⟨hpat, hop, hres, hs, hf, hb⟩ := row_fields r hr
  have hall4 (x : BitVec 4) : x &&& 0xF#4 = x := BitVec.and_allOnes
  have hall2 (x : BitVec 2) : x &&& 3#2 = x := BitVec.and_allOnes
  have hall8 (x : Byte) : x &&& 0xFF#8 = x := BitVec.and_allOnes
  rw [OpcodeRow.selects, beq_iff_eq, word_eq_iff_fields, hpat, Mnemonic.Admits]
  simp only [opField_and, reservedField_and, sField_and, fField_and, imm8Field_and, hop, hres, hs, hf, hb,
    opField_commandWord, reservedField_commandWord, sField_commandWord, fField_commandWord, imm8Field_commandWord,
    hall4, hall2]
  refine and_congr_right fun _ => and_congr_right fun _ => and_congr ?_ (and_congr ?_ ?_)
  · cases sField w <;> simp
  · cases fField w <;> simp
  · cases r.mnemonic.readsImm8 <;> simp [hall8]

/-- No two rows have the same OP. -/
theorem row_eq_of_op : ∀ r ∈ opcodeTable, ∀ r' ∈ opcodeTable, r.mnemonic.op = r'.mnemonic.op → r = r' := by
  decide

/-- Every OP is that of a row or one of the reserved three, and never both (R82, R85). -/
theorem row_of_op_iff : ∀ op : BitVec 4,
    (∃ r ∈ opcodeTable, r.mnemonic.op = op) ↔ ¬ (op = 0x0#4 ∨ op = 0xE#4 ∨ op = 0xF#4) := by
  decide

theorem opField_pattern {r : OpcodeRow} (hr : r ∈ opcodeTable) : opField r.pattern = r.mnemonic.op := by
  obtain ⟨hpat, -⟩ := row_fields r hr
  rw [hpat, opField_commandWord]

theorem opField_of_selects {r : OpcodeRow} {w : Word} (hr : r ∈ opcodeTable) (h : r.selects w = true) :
    opField w = r.mnemonic.op := ((selects_iff_fields hr w).mp h).1

/-- A word selects at most one row. -/
theorem row_eq_of_selects {r r' : OpcodeRow} {w : Word} (hr : r ∈ opcodeTable) (hr' : r' ∈ opcodeTable)
    (h : r.selects w = true) (h' : r'.selects w = true) : r = r' :=
  row_eq_of_op r hr r' hr' ((opField_of_selects hr h).symm.trans (opField_of_selects hr' h'))

theorem opcodeRow_of_selects {r : OpcodeRow} {w : Word} (hr : r ∈ opcodeTable) (h : r.selects w = true) :
    opcodeRow w = some r := by
  cases h' : opcodeRow w with
  | none => exact absurd h (List.find?_eq_none.mp h' r hr)
  | some r' =>
    have hw : r'.selects w = true := List.find?_some (p := fun r => OpcodeRow.selects r w) h'
    rw [row_eq_of_selects (List.mem_of_find?_eq_some h') hr hw h]

/-- The conditions of R85, the row of the word's OP being named. -/
theorem illegalWord_iff_not_selects {r : OpcodeRow} {w : Word} (hr : r ∈ opcodeTable) (hop : r.mnemonic.op = opField w) :
    IllegalWord w ↔ ¬ r.selects w = true := by
  have hsel (r : OpcodeRow) : w &&& r.mask ≠ r.pattern ↔ ¬ r.selects w = true := by simp [OpcodeRow.selects]
  have hres := (row_of_op_iff (opField w)).mp ⟨r, hr, hop⟩
  simp only [not_or] at hres
  simp only [IllegalWord, hres, false_or, hsel]
  constructor
  · rintro ⟨r', hr', hop', hw⟩
    rw [opField_pattern hr', ← hop] at hop'
    exact row_eq_of_op r' hr' r hr hop' ▸ hw
  · exact fun hw => ⟨r, hr, (opField_pattern hr).trans hop, hw⟩

/-- A word is illegal exactly when it selects no row (R85, R90). -/
theorem illegalWord_iff_no_row (w : Word) : IllegalWord w ↔ ∀ r ∈ opcodeTable, ¬ r.selects w = true := by
  by_cases hop : ∃ r ∈ opcodeTable, r.mnemonic.op = opField w
  · obtain ⟨r, hr, hop⟩ := hop
    rw [illegalWord_iff_not_selects hr hop]
    refine ⟨fun h r' hr' hw => ?_, fun h => h r hr⟩
    exact h (row_eq_of_op r' hr' r hr ((opField_of_selects hr' hw).symm.trans hop.symm) ▸ hw)
  · refine ⟨fun _ r hr hw => hop ⟨r, hr, (opField_of_selects hr hw).symm⟩, fun _ => ?_⟩
    rw [row_of_op_iff, not_not] at hop
    unfold IllegalWord
    tauto

theorem exists_row_of_not_illegalWord {w : Word} (h : ¬ IllegalWord w) : ∃ r ∈ opcodeTable, r.selects w = true := by
  simpa [illegalWord_iff_no_row] using h

/-! ### What the decoder answers -/

theorem decode_of_selects {r : OpcodeRow} {w0 : Word} (hr : r ∈ opcodeTable) (h : r.selects w0 = true) (w1 w2 : Word) :
    decode w0 w1 w2 = .legal (readOperands r.mnemonic w0 w1 w2) := by
  simp [decode, opcodeRow_of_selects hr h]

theorem decode_of_illegalWord {w0 : Word} (h : IllegalWord w0) (w1 w2 : Word) :
    decode w0 w1 w2 = .illegal (illegalReason w0) (packetWords w0 w1 w2) := by
  have hrow : opcodeRow w0 = none := List.find?_eq_none.mpr ((illegalWord_iff_no_row w0).mp h)
  simp [decode, hrow]

/-- The decoder gives a command exactly when the command word is legal (R90). -/
theorem decode_isLegal_iff (w0 w1 w2 : Word) : (∃ i, decode w0 w1 w2 = .legal i) ↔ ¬ IllegalWord w0 := by
  by_cases h : IllegalWord w0
  · simp [decode_of_illegalWord h, h]
  · obtain ⟨r, hr, hw⟩ := exists_row_of_not_illegalWord h
    simp [decode_of_selects hr hw, h]

/-- A command is read through the row that its command word selects. -/
theorem row_of_decode {w0 w1 w2 : Word} {i : Instr} (h : decode w0 w1 w2 = .legal i) :
    ∃ r ∈ opcodeTable, r.selects w0 = true ∧ readOperands r.mnemonic w0 w1 w2 = i := by
  obtain ⟨r, hr, hw⟩ := exists_row_of_not_illegalWord ((decode_isLegal_iff w0 w1 w2).mp ⟨i, h⟩)
  rw [decode_of_selects hr hw, Command.legal.injEq] at h
  exact ⟨r, hr, hw, h⟩

/-- Settles O4: at most one row is selected, an illegal word is one that selects none, and the decoder follows the row. -/
theorem everyWordSelectsOneRowOrIsIllegal : Obligations.EveryWordSelectsOneRowOrIsIllegal := by
  intro w
  have hsel (r : OpcodeRow) : w &&& r.mask = r.pattern ↔ r.selects w = true := by simp [OpcodeRow.selects]
  simp only [ne_eq, hsel]
  refine ⟨?_, decode_isLegal_iff w⟩
  by_cases h : IllegalWord w
  · exact .inr ⟨(illegalWord_iff_no_row w).mp h, h⟩
  · obtain ⟨r, hr, hw⟩ := exists_row_of_not_illegalWord h
    exact .inl ⟨⟨r, hr, hw, fun r' hr' hw' => row_eq_of_selects hr' hr hw' hw⟩, h⟩

/-! ### Packets (R80, R86) -/

theorem hasExtension_iff (w0 : Word) : hasExtension w0 = true ↔ opField w0 = 0xC#4 ∨ opField w0 = 0xD#4 := by
  simp [hasExtension]

theorem packetWords_of_oneWord {w0 : Word} (h : hasExtension w0 = false) (w1 w2 : Word) :
    packetWords w0 w1 w2 = [w0] := by simp [packetWords, h]

theorem packetWords_of_threeWords {w0 : Word} (h : hasExtension w0 = true) (w1 w2 : Word) :
    packetWords w0 w1 w2 = [w0, w1, w2] := by simp [packetWords, h]

/-- A row reads extension words when its packets have them. -/
theorem hasExtension_of_selects {r : OpcodeRow} {w0 : Word} (hr : r ∈ opcodeTable) (h : r.selects w0 = true) :
    hasExtension w0 = r.mnemonic.readsWords := by
  rw [hasExtension, opField_of_selects hr h]
  cases r.mnemonic <;> rfl

theorem readOperands_of_oneWord {m : Mnemonic} (h : m.readsWords = false) (w0 w1 w2 : Word) :
    readOperands m w0 w1 w2 = readOperands m w0 0#16 0#16 := by
  cases m
  case wrbytes | rdbytes => cases h
  all_goals rfl

/-- The words after a packet of one word have no part in its command. -/
theorem decode_of_oneWord {w0 : Word} (h : hasExtension w0 = false) (w1 w2 : Word) :
    decode w0 w1 w2 = decode w0 0#16 0#16 := by
  by_cases hw : IllegalWord w0
  · simp only [decode_of_illegalWord hw, packetWords_of_oneWord h]
  · obtain ⟨r, hr, hsel⟩ := exists_row_of_not_illegalWord hw
    rw [hasExtension_of_selects hr hsel] at h
    rw [decode_of_selects hr hsel, decode_of_selects hr hsel, readOperands_of_oneWord h]

theorem fetchCommand_of_oneWord {w0 : Word} (h : hasExtension w0 = false) (rest : List Word) :
    fetchCommand (w0 :: rest) = some (decode w0 0#16 0#16, rest) := by simp [fetchCommand, h]

theorem fetchCommand_of_threeWords {w0 : Word} (h : hasExtension w0 = true) (w1 w2 : Word) (rest : List Word) :
    fetchCommand (w0 :: w1 :: w2 :: rest) = some (decode w0 w1 w2, rest) := by simp [fetchCommand, h]

theorem fetchCommand_of_noExtension {w0 : Word} (h : hasExtension w0 = true) : fetchCommand [w0] = none := by
  simp [fetchCommand, h]

theorem fetchCommand_of_halfExtension {w0 : Word} (h : hasExtension w0 = true) (w1 : Word) :
    fetchCommand [w0, w1] = none := by simp [fetchCommand, h]

/-- Settles O5: what `fetchCommand` answers in each case. -/
theorem packetLengthIsDecidedByOp : Obligations.PacketLengthIsDecidedByOp := by
  intro w0 w1 w2 rest
  rw [← not_or, ← hasExtension_iff, Bool.not_eq_true]
  exact ⟨fun h => ⟨fetchCommand_of_threeWords h w1 w2 rest, fetchCommand_of_noExtension h,
    fetchCommand_of_halfExtension h w1⟩, fun h => fetchCommand_of_oneWord h rest⟩

/-- A packet at the front of the stream is decoded and taken whole. -/
theorem fetchCommand_packet (w0 w1 w2 : Word) (rest : List Word) :
    fetchCommand (packetWords w0 w1 w2 ++ rest) = some (decode w0 w1 w2, rest) := by
  cases h : hasExtension w0 with
  | false => simp [packetWords_of_oneWord h, fetchCommand_of_oneWord h, decode_of_oneWord h w1 w2]
  | true => simp [packetWords_of_threeWords h, fetchCommand_of_threeWords h]

/-- What is read from the stream is the packet in front of it. -/
theorem packet_of_fetchCommand {ws rest : List Word} {cmd : Command} (h : fetchCommand ws = some (cmd, rest)) :
    ∃ w0 w1 w2, ws = packetWords w0 w1 w2 ++ rest ∧ decode w0 w1 w2 = cmd := by
  match ws with
  | [] => cases h
  | w0 :: tail =>
    cases hx : hasExtension w0 with
    | false =>
      simp only [fetchCommand_of_oneWord hx, Option.some.injEq, Prod.mk.injEq] at h
      exact ⟨w0, 0#16, 0#16, by simp [packetWords_of_oneWord hx, h.2], h.1⟩
    | true =>
      match tail with
      | [] => simp [fetchCommand_of_noExtension hx] at h
      | [w1] => simp [fetchCommand_of_halfExtension hx] at h
      | w1 :: w2 :: tail =>
        simp only [fetchCommand_of_threeWords hx, Option.some.injEq, Prod.mk.injEq] at h
        exact ⟨w0, w1, w2, by simp [packetWords_of_threeWords hx, h.2], h.1⟩

/-! ### The round trip (R82 to R84) -/

@[simp] theorem bitOfLine_lineOfBit (x : Bool) : bitOfLine (lineOfBit x) = x := by cases x <;> rfl

@[simp] theorem lineOfBit_bitOfLine (l : Line) : lineOfBit (bitOfLine l) = l := by cases l <;> rfl

/-- The encoder writes the fields that a row reads, and its zeros in the others. -/
theorem encode_readOperands {m : Mnemonic} {w0 : Word} (h : m.Admits (sField w0) (fField w0) (imm8Field w0))
    (w1 w2 : Word) :
    encode (readOperands m w0 w1 w2) =
      commandWord m.op (sField w0) (fField w0) (imm8Field w0) :: if m.readsWords then [w1, w2] else [] := by
  obtain ⟨hs, hf, hb⟩ := h
  cases m <;>
    simp_all [readOperands, encode, Mnemonic.op, Mnemonic.readsS, Mnemonic.readsF, Mnemonic.readsImm8, Mnemonic.readsWords]

/-- The words of a command that is read from a packet are that packet. -/
theorem encode_of_decode {w0 w1 w2 : Word} {i : Instr} (h : decode w0 w1 w2 = .legal i) :
    encode i = packetWords w0 w1 w2 := by
  obtain ⟨r, hr, hsel, rfl⟩ := row_of_decode h
  obtain ⟨hop, hres, hadm⟩ := (selects_iff_fields hr w0).mp hsel
  rw [encode_readOperands hadm, ← hop, commandWord_fields hres, packetWords, hasExtension_of_selects hr hsel]
  cases r.mnemonic.readsWords <;> rfl

/-- A row decodes the word of its OP and any fields it admits. -/
theorem decode_commandWord {m : Mnemonic} {s f : Bool} {b : Byte} (h : m.Admits s f b) (w1 w2 : Word) :
    decode (commandWord m.op s f b) w1 w2 = .legal (readOperands m (commandWord m.op s f b) w1 w2) := by
  obtain ⟨r, hr, rfl⟩ := exists_row m
  exact decode_of_selects hr ((selects_iff_fields hr _).mpr (by simpa using h)) w1 w2

/-- Every command is what its row reads from some fields. -/
theorem exists_fields (i : Instr) : ∃ s f b w1 w2,
    (rowOf i).Admits s f b ∧ readOperands (rowOf i) (commandWord (rowOf i).op s f b) w1 w2 = i := by
  cases i with
  | rdbit | start | stop | init | reset => exact ⟨false, false, 0#8, 0#16, 0#16, ⟨nofun, nofun, fun _ => rfl⟩, rfl⟩
  | release l | drivelow l | readline l =>
    exact ⟨false, bitOfLine l, 0#8, 0#16, 0#16, ⟨nofun, fun _ => rfl, fun _ => rfl⟩, by simp [rowOf, readOperands]⟩
  | wrbit x | rdbyte x =>
    exact ⟨false, x, 0#8, 0#16, 0#16, ⟨nofun, fun _ => rfl, fun _ => rfl⟩, by simp [rowOf, readOperands]⟩
  | wrbyte b => exact ⟨false, false, b, 0#16, 0#16, ⟨nofun, nofun, nofun⟩, by simp [rowOf, readOperands]⟩
  | wrbytes s p buf len =>
    exact ⟨s, p, 0#8, buf, len, ⟨fun _ => rfl, fun _ => rfl, fun _ => rfl⟩, by simp [rowOf, readOperands]⟩
  | rdbytes p buf len =>
    exact ⟨false, p, 0#8, buf, len, ⟨nofun, fun _ => rfl, fun _ => rfl⟩, by simp [rowOf, readOperands]⟩

/-- Settles O2: the command is read from some packet, and its words are that packet. -/
theorem decodeOfEncode : Obligations.DecodeOfEncode := by
  intro i rest
  obtain ⟨s, f, b, w1, w2, hadm, hi⟩ := exists_fields i
  have h := decode_commandWord hadm w1 w2
  rw [hi] at h
  rw [encode_of_decode h, fetchCommand_packet, h]

/-- Settles O3: what was read is a packet, and it is the command's words. -/
theorem encodeOfDecode : Obligations.EncodeOfDecode := by
  intro ws rest i h
  obtain ⟨w0, w1, w2, rfl, hdec⟩ := packet_of_fetchCommand h
  rw [encode_of_decode hdec]

end Sys2Proof
end

section
/-! SUPPORT. A step that reads a packet (30_encoding.md R80, R89), and how a command can complete (R91,
60_exceptions.md R200). -/
namespace Sys2Proof.Machine

/-! ### Steps that read a packet -/

theorem step_of_fetch {s : State} {cmd : Command} {rest : List Word} (hw : s.cfg.wellFormed = true)
    (hf : fetchCommand s.stream = some (cmd, rest)) : step s = execCommand cmd (s.setStream rest) := by
  simp [step, failedCheck_of_wellFormed hw, hf]

/-- Settles O7: a step executes what it read, and the words of a command are read as that command. -/
theorem stepRunsTheDecodedCommand : Obligations.StepRunsTheDecodedCommand := by
  intro s i rest hw
  have hstep (hf : fetchCommand s.stream = some (.legal i, rest)) : step s = exec i { s with stream := rest } :=
    step_of_fetch hw hf
  exact ⟨hstep, fun h => hstep (by rw [h, decodeOfEncode])⟩

/-- An illegal packet in front of the stream is taken whole and raises ILLEGAL_COMMAND, whatever `configured` is (R85,
R205). -/
theorem step_of_illegalWord {s : State} {w0 w1 w2 : Word} {rest : List Word} (hw : s.cfg.wellFormed = true)
    (hill : IllegalWord w0) (hs : s.stream = packetWords w0 w1 w2 ++ rest) :
    step s = .next (illegalCommand (illegalReason w0) (packetWords w0 w1 w2) (s.setStream rest)) := by
  rw [step_of_fetch hw (by rw [hs, fetchCommand_packet]), decode_of_illegalWord hill]
  rfl

/-! ### Completions of a command -/

/-- A bus condition is ARB_LOST or BUS_TIMEOUT, so never ILLEGAL_COMMAND. -/
theorem BusCondition.code_ne_illegalCommand (c : BusCondition) : c.condition.code ≠ 3#3 := by
  cases c <;> decide

/-- No command completes with ILLEGAL_COMMAND (R205). -/
theorem exec_cond_ne_illegalCommand {i : Instr} {s t : State} (h : exec i s = .next t) : t.result.cond ≠ 3#3 := by
  obtain ⟨-, -, rfl⟩ | ⟨buf, len, -, -, -, rfl⟩ | ⟨-, -, ⟨v, u, -, rfl⟩ | ⟨c, u, -, rfl⟩⟩ := exec_cases h
  · rw [raiseCondition_cond]; decide
  · rw [raiseCondition_cond]; decide
  · exact (by decide : Condition.ok.code ≠ 3#3)
  · exact c.code_ne_illegalCommand

/-- Settles O8: the packet raises ILLEGAL_COMMAND, and no command does. -/
theorem illegalPacketOnlyReports : Obligations.IllegalPacketOnlyReports := by
  refine ⟨fun s w0 w1 w2 rest hw hill hs => ?_, fun i s t h => exec_cond_ne_illegalCommand h⟩
  have hpacket : (if opField w0 = 0xC#4 ∨ opField w0 = 0xD#4 then [w0, w1, w2] else [w0]) = packetWords w0 w1 w2 := by
    simp only [packetWords, hasExtension_iff]
  rw [hpacket] at hs
  refine ⟨illegalReason w0, packetWords w0 w1 w2, Config.freeByte s.draws, ?_⟩
  rw [step_of_illegalWord hw hill hs, illegalCommand, raiseCondition_fault_eq _ _ _ rfl]
  rfl

/-- A completion with OK is the normal end of the command's procedure. -/
theorem procOf_ok_of_cond {i : Instr} {s t : State} (h : exec i s = .next t) (hok : t.result.cond = 0#3) :
    ∃ v u, procOf i s = .ok v u ∧ t = complete .ok v (.legal i) u := by
  obtain ⟨-, -, rfl⟩ | ⟨buf, len, -, -, -, rfl⟩ | ⟨-, -, hend | ⟨c, u, -, rfl⟩⟩ := exec_cases h
  · exact absurd hok (by rw [raiseCondition_cond]; decide)
  · exact absurd hok (by rw [raiseCondition_cond]; decide)
  · exact hend
  · exact absurd hok c.code_ne_ok

/-- A procedure that returns a fixed value after all else ends normally with that value. -/
theorem value_of_bind_pure {α : Type} {p : Proc α} {b v : Byte} {s t : State}
    (h : (p >>= fun _ => pure b) s = .ok v t) : v = b := by
  rw [bind_run] at h
  cases hp : p s with
  | ok a u =>
    simp only [hp, pure_run, EStateM.Result.ok.injEq] at h
    exact h.1.symm
  | error c u => simp [hp] at h

/-- The commands whose rule returns nothing (R91). -/
def ReturnsNothing (i : Instr) : Prop :=
  (∃ l, i = .release l ∨ i = .drivelow l) ∨ (∃ b, i = .wrbit b) ∨ i = .start ∨ i = .stop ∨ i = .init ∨ i = .reset

/-- Their procedures return 0x00. -/
theorem value_of_returnsNothing {i : Instr} {s t : State} {v : Byte} (hi : ReturnsNothing i)
    (h : procOf i s = .ok v t) : v = 0x00#8 := by
  obtain ⟨l, rfl | rfl⟩ | ⟨b, rfl⟩ | rfl | rfl | rfl | rfl := hi <;> exact value_of_bind_pure h

/-- Every command appends events without a completion and then its own completion, which RESULT holds (R31, R91). -/
theorem exec_completesOnce {i : Instr} {s t : State} (h : exec i s = .next t) :
    ∃ evs c v, t.history = s.history ++ evs ++ [.done (.legal i) c v] ∧ completions evs = [] ∧ t.result = ⟨c.code, v⟩ := by
  by_cases hi : i = .init ∨ i = .reset
  · obtain ⟨-, -, -, -, -, evs, hhist, hevs, hres⟩ := exec_initReset h hi
    exact ⟨evs, .ok, 0x00#8, hhist, hevs, hres⟩
  · rw [not_or] at hi
    obtain ⟨u, c, v, hu, rfl⟩ := exec_runFrame h hi.1 hi.2
    obtain ⟨evs, hhist, hevs, -⟩ := hu.events
    exact ⟨evs, c, v, by simp [complete_eq, hhist], hevs, rfl⟩

/-- Settles O51: a command completes once, and a completion with OK holds what its procedure returned. -/
theorem everyCommandCompletesOnce : Obligations.EveryCommandCompletesOnce := by
  intro i s
  obtain ⟨t, h⟩ := exec_isNext i s
  obtain ⟨evs, c, v, hhist, hevs, hres⟩ := exec_completesOnce h
  refine ⟨t, evs, c, v, h, hhist, hevs, hres, fun hi hc => ?_⟩
  obtain ⟨v', u, hp, rfl⟩ := procOf_ok_of_cond h (by rw [hres, hc]; rfl)
  have hv : v = v' := (congrArg ResultReg.value hres).symm
  rw [hv, value_of_returnsNothing hi hp]

end Sys2Proof.Machine
end

section
/-! SUPPORT. The assembler (30_encoding.md R87, R88): what each kind of operand is read as or refused for, what one statement
encodes, and where a program is refused. -/
namespace Sys2Proof.Machine

/-! ### Reading operands in order: the first that is refused ends it -/

@[simp] theorem except_ok_bind {ε α β : Type} (a : α) (f : α → Except ε β) : (Except.ok a >>= f) = f a := rfl

@[simp] theorem except_error_bind {ε α β : Type} (e : ε) (f : α → Except ε β) :
    ((Except.error e : Except ε α) >>= f) = .error e := rfl

/-! ### Operands -/

section
variable (o : AsmOperand)

@[simp] theorem asmBit_toNat (x : Bool) : asmBit o x.toNat = .ok x := by cases x <;> rfl

@[simp] theorem asmByte_toNat (b : Byte) : asmByte o b.toNat = .ok b := by simp [asmByte, b.isLt]

@[simp] theorem asmWord_toNat (w : Word) : asmWord o w.toNat = .ok w := by simp [asmWord, w.isLt]

theorem asmBit_of_gt {n : Nat} (h : 1 < n) : asmBit o n = .error (.outOfRange o) := by
  simp [asmBit, show n ≠ 0 by omega, show n ≠ 1 by omega]

theorem asmByte_of_gt {n : Nat} (h : 255 < n) : asmByte o n = .error (.outOfRange o) := by
  simp [asmByte, show ¬ n < 256 by omega]

theorem asmWord_of_gt {n : Nat} (h : 65535 < n) : asmWord o n = .error (.outOfRange o) := by
  simp [asmWord, show ¬ n < 65536 by omega]

end

/-- An even byte is a device address (R88). -/
theorem asmAddress_toNat {a : Byte} (h : bitAt a 0 = false) : asmAddress a.toNat = .ok a := by
  have heven : a.toNat % 2 = 0 := by
    simpa [bitAt, BitVec.getLsbD, Nat.testBit_zero] using h
  simp [asmAddress, a.isLt, heven]

theorem asmAddress_refused {n : Nat} (h : 255 < n ∨ n % 2 = 1) : asmAddress n = .error (.outOfRange .a) := by
  simp [asmAddress, show ¬ (n < 256 ∧ n % 2 = 0) by omega]

/-! ### Programs -/

/-- A program of one statement encodes that statement's commands. -/
theorem assembleStatements_single {st : Statement} {is : List Instr} (h : st.commands = .ok is) :
    assembleStatements [st] = .words (is.flatMap encode) := by
  simp [assembleStatements, assembleFrom, h]

/-- The first statement of a program that is encoded gives commands, and the rest of the program is encoded. -/
theorem words_of_assembleFrom_cons {line : Nat} {st : Statement} {rest : List (Except AsmReason (Option Statement))}
    {ws : List Word} (h : assembleFrom line (.ok (some st) :: rest) = .words ws) :
    ∃ is ws', st.commands = .ok is ∧ assembleFrom (line + 1) rest = .words ws' := by
  cases hc : st.commands with
  | error reason => simp [assembleFrom, hc] at h
  | ok is =>
    cases hr : assembleFrom (line + 1) rest with
    | refused l reason => simp [assembleFrom, hc, hr] at h
    | words ws' => exact ⟨is, ws', rfl, rfl⟩

/-- A refused statement after statements that are encoded refuses the program, by the line it stands on. -/
theorem assembleFrom_refused {st : Statement} {reason : AsmReason} (hst : st.commands = .error reason)
    (before : List Statement) (line : Nat) {ws : List Word}
    (h : assembleFrom line (before.map fun st => .ok (some st)) = .words ws) :
    assembleFrom line ((before ++ [st]).map fun st => .ok (some st)) = .refused (line + before.length) reason := by
  induction before generalizing line ws with
  | nil => simp [assembleFrom, hst]
  | cons b before ih =>
    obtain ⟨is, ws', hb, hrest⟩ := words_of_assembleFrom_cons h
    simp only [List.cons_append, List.map_cons, assembleFrom, hb, ih (line + 1) hrest, List.length_cons]
    congr 1
    omega

theorem refusedByNameAndLine_of_commands {st : Statement} {o : AsmOperand}
    (h : st.commands = .error (.outOfRange o)) : RefusedByNameAndLine st o := by
  intro before ws hws
  rw [assembleStatements, assembleFrom_refused h before 1 hws, Nat.add_comm]

/-! ### Words (R81) -/

theorem commandWord_imm8 (b : Byte) : commandWord 0x8#4 false false b = 0x8000#16 ||| b.setWidth 16 := rfl

theorem commandWord_wrbytes (s p : Bool) : commandWord 0xC#4 s p 0#8 =
    0xC000#16 ||| (BitVec.ofNat 16 s.toNat <<< 9) ||| (BitVec.ofNat 16 p.toNat <<< 8) := by
  cases s <;> cases p <;> rfl

theorem commandWord_rdbytes (p : Bool) :
    commandWord 0xD#4 false p 0#8 = 0xD000#16 ||| (BitVec.ofNat 16 p.toNat <<< 8) := by
  cases p <;> rfl

/-! ### Statements -/

theorem wrbyte_encodes (b : Byte) :
    assembleStatements [.wrbyte b.toNat] = .words [0x8000#16 ||| b.setWidth 16] := by
  rw [assembleStatements_single (is := [.wrbyte b]) (by simp [Statement.commands]), ← commandWord_imm8]
  rfl

theorem wrbytes_encodes (s p : Bool) (buf len : Word) :
    assembleStatements [.wrbytes s.toNat p.toNat buf.toNat len.toNat] =
      .words [0xC000#16 ||| (BitVec.ofNat 16 s.toNat <<< 9) ||| (BitVec.ofNat 16 p.toNat <<< 8), buf, len] := by
  rw [assembleStatements_single (is := [.wrbytes s p buf len]) (by simp [Statement.commands]), ← commandWord_wrbytes]
  rfl

theorem rdbytes_encodes (p : Bool) (buf len : Word) :
    assembleStatements [.rdbytes p.toNat buf.toNat len.toNat] =
      .words [0xD000#16 ||| (BitVec.ofNat 16 p.toNat <<< 8), buf, len] := by
  rw [assembleStatements_single (is := [.rdbytes p buf len]) (by simp [Statement.commands]), ← commandWord_rdbytes]
  rfl

theorem addrw_encodes {a : Byte} (h : bitAt a 0 = false) :
    assembleStatements [.addrw a.toNat] = .words [0x6000#16, 0x8000#16 ||| a.setWidth 16] := by
  rw [assembleStatements_single (is := [.start, .wrbyte a]) (by simp [Statement.commands, asmAddress_toNat h]),
    ← commandWord_imm8]
  rfl

theorem addrr_encodes {a : Byte} (h : bitAt a 0 = false) :
    assembleStatements [.addrr a.toNat] = .words [0x6000#16, 0x8000#16 ||| (a ||| 0x01#8).setWidth 16] := by
  rw [assembleStatements_single (is := [.start, .wrbyte (a ||| 0x01#8)])
    (by simp [Statement.commands, asmAddress_toNat h]), ← commandWord_imm8]
  rfl

/-! ### Refusals -/

/-- An operand of one bit is refused above 1. -/
theorem bit_refused {n : Nat} (h : 1 < n) :
    RefusedByNameAndLine (.wrbit n) .v ∧
    (∀ p buf len, RefusedByNameAndLine (.wrbytes n p buf len) .s) ∧
    (∀ (s : Bool) buf len, RefusedByNameAndLine (.wrbytes s.toNat n buf len) .p) ∧
    ∀ buf len, RefusedByNameAndLine (.rdbytes n buf len) .p := by
  refine ⟨?_, fun p buf len => ?_, fun s buf len => ?_, fun buf len => ?_⟩ <;>
    exact refusedByNameAndLine_of_commands (by simp [Statement.commands, asmBit_of_gt _ h])

/-- A word operand is refused above 65535, the operands before it being in range. -/
theorem word_refused {n : Nat} (h : 65535 < n) (s p : Bool) :
    (∀ len, RefusedByNameAndLine (.wrbytes s.toNat p.toNat n len) .buf ∧
      RefusedByNameAndLine (.rdbytes p.toNat n len) .buf) ∧
    ∀ buf : Word, RefusedByNameAndLine (.wrbytes s.toNat p.toNat buf.toNat n) .len ∧
      RefusedByNameAndLine (.rdbytes p.toNat buf.toNat n) .len := by
  refine ⟨fun len => ⟨?_, ?_⟩, fun buf => ⟨?_, ?_⟩⟩ <;>
    exact refusedByNameAndLine_of_commands (by simp [Statement.commands, asmWord_of_gt _ h])

theorem wrbyte_refused {n : Nat} (h : 255 < n) : RefusedByNameAndLine (.wrbyte n) .b :=
  refusedByNameAndLine_of_commands (by simp [Statement.commands, asmByte_of_gt _ h])

/-- A device address is refused above 255 and when it is odd (R88). -/
theorem address_refused {n : Nat} (h : 255 < n ∨ n % 2 = 1) :
    RefusedByNameAndLine (.addrw n) .a ∧ RefusedByNameAndLine (.addrr n) .a := by
  constructor <;> exact refusedByNameAndLine_of_commands (by simp [Statement.commands, asmAddress_refused h])

/-- Settles O6: a statement in range has commands, whose words these are, and one out of range is an error of its operand. -/
theorem assemblerStatementsEncode : Obligations.AssemblerStatementsEncode :=
  ⟨by decide, wrbyte_encodes, fun s p buf len => ⟨wrbytes_encodes s p buf len, rdbytes_encodes p buf len⟩,
    fun _ h => ⟨addrw_encodes h, addrr_encodes h⟩, fun _ h => bit_refused h, fun _ h => wrbyte_refused h,
    fun _ h => word_refused h, fun _ h => address_refused h⟩

end Sys2Proof.Machine
end

section
/-! SUPPORT. The Line Driver's commands (40_line_driver.md R100 to R102): the state after one line change or one sample that
completes with OK, and what the change leaves the line driven at. -/
namespace Sys2Proof.Machine

/-! ### Line changes -/

/-- The bit written for the other drive of a line (R101). -/
theorem putBit_not (v : Byte) (k : BitIndex) (x : Bool) :
    putBit v k (!x) = if x then v &&& ~~~maskBit k else v ||| maskBit k := by
  cases x <;> rfl

/-- A read of the output port takes an answer of the environment exactly when the port is shared (20_memory.md R51). -/
theorem env_of_portOutRead (s : State) :
    (if s.cfg.portOutAddr = s.cfg.portInAddr then s.env.tail else s.env) = s.env.drop (sharedSamples s.cfg 1) := by
  unfold sharedSamples
  by_cases hp : s.cfg.portInAddr = s.cfg.portOutAddr
  · simp [hp]
  · simp [hp, Ne.symm hp]

/-- A line change that completes with OK: one port read, one port write, and nothing else but RESULT. -/
theorem complete_rmwOut_eq (s : State) (k : BitIndex) (x : Bool) (cmd : Command) :
    complete .ok 0x00#8 cmd (rmwOut k x s) = { s with
      out := putBit (portRead s.cfg.portOutAddr s).1 k x
      result := ⟨0#3, 0x00#8⟩
      history := s.history ++ [.portRead s.cfg.portOutAddr (portRead s.cfg.portOutAddr s).1,
        .portWrite s.cfg.portOutAddr (putBit (portRead s.cfg.portOutAddr s).1 k x), .done cmd .ok 0x00#8]
      env := s.env.drop (sharedSamples s.cfg 1)
      draws := (rmwOut k x s).draws } := by
  rw [complete_eq, rmwOut_eq, env_of_portOutRead]
  simp [Condition.code]

/-- After its change a line is driven low exactly when its bit is an output and does not release it (10_state.md R29). For the
changed line alone this needs no well-formed configuration. -/
theorem engineLow_change_same (s : State) (l : Line) (x : Bool) :
    engineLow (rmwOut (outBit s.cfg l) x s) l = (isOutput s (outBit s.cfg l) && x == !relBit s.cfg) := by
  obtain ⟨hcfg, -, -, -, -, -, -, -, hddr, -⟩ := rmwOut_frame s (outBit s.cfg l) x
  simp only [engineLow, isOutput, hcfg, hddr, bitAt_rmwOut_same]

/-- Settles O19: the command is the completed change of the line's bit to the releasing value. -/
theorem releaseIsOneReadModifyWrite : Obligations.ReleaseIsOneReadModifyWrite := by
  intro s l hc
  have hp : procOf (.release l) s = .ok 0x00#8 (rmwOut (outBit s.cfg l) (relBit s.cfg) s) := rfl
  refine ⟨(portRead s.cfg.portOutAddr s).1, _, _, exec_of_ok (.release l) hc nofun hp, rfl, complete_rmwOut_eq s _ _ _,
    fun k ho hs => bitAt_portRead_output s k ho hs, ?_⟩
  calc engineLow (rmwOut (outBit s.cfg l) (relBit s.cfg) s) l
      _ = (isOutput s (outBit s.cfg l) && relBit s.cfg == !relBit s.cfg) := engineLow_change_same s l _
      _ = false := by simp

/-- Settles O20: the command is the completed change of the line's bit to the value that does not release it. -/
theorem drivelowIsOneReadModifyWrite : Obligations.DrivelowIsOneReadModifyWrite := by
  intro s l hc
  have hp : procOf (.drivelow l) s = .ok 0x00#8 (rmwOut (outBit s.cfg l) (!relBit s.cfg) s) := rfl
  refine ⟨(portRead s.cfg.portOutAddr s).1, _, _, exec_of_ok (.drivelow l) hc nofun hp, putBit_not _ _ _,
    complete_rmwOut_eq s _ _ _, fun k ho hs => bitAt_portRead_output s k ho hs, ?_⟩
  calc engineLow (rmwOut (outBit s.cfg l) (!relBit s.cfg) s) l
      _ = (isOutput s (outBit s.cfg l) && (!relBit s.cfg) == !relBit s.cfg) := engineLow_change_same s l _
      _ = isOutput s (outBit s.cfg l) := by simp

/-! ### Samples -/

theorem byteOfBit_eq (x : Bool) : byteOfBit x = if x then 0x01#8 else 0x00#8 := by cases x <;> rfl

/-- The sense bit of the byte read, after the input inversion policy (R102). -/
theorem readLine_fst_eq_senseBit (s : State) (l : Line) :
    (readLine l s).1 = (bitAt (portRead s.cfg.portInAddr s).1 (inBit s.cfg l) != s.cfg.inActiveLow) := by
  rw [portRead_fst, bitAt_byteOfBits]
  rfl

/-- A sample that completes with OK: one read of the input port, and nothing else but RESULT. -/
theorem complete_readLine_eq (s : State) (l : Line) (v : Byte) (cmd : Command) :
    complete .ok v cmd (readLine l s).2 = { s with
      result := ⟨0#3, v⟩
      history := s.history ++ [.portRead s.cfg.portInAddr (portRead s.cfg.portInAddr s).1, .done cmd .ok v]
      env := s.env.drop 1
      draws := (readLine l s).2.draws } := by
  rw [complete_eq, readLine_snd, portReadBits_snd]
  simp [Condition.code, portRead_fst]

/-- Settles O21: the command is one completed sample, whose value is the level of the line. -/
theorem readlineReturnsTheLevel : Obligations.ReadlineReturnsTheLevel := by
  intro s l hw hc
  have hp : procOf (.readline l) s = .ok (if (readLine l s).1 then 0x01#8 else 0x00#8) (readLine l s).2 := by
    rw [← byteOfBit_eq]
    rfl
  refine ⟨(readLine l s).1, (portRead s.cfg.portInAddr s).1, _, exec_of_ok (.readline l) hc nofun hp,
    complete_readLine_eq s l _ _, readLine_fst_eq_senseBit s l, readLine_of_engineLow s l (Cfg.inBits_ne hw),
    fun _ _ henv => readLine_of_answer s hw l henv⟩

end Sys2Proof.Machine
end

section
/-! SUPPORT. The stretch wait and the arbitration check on the answers of the environment (41_bit_transport.md R120, R121). -/
namespace Sys2Proof.Machine

/-! ### The stretch wait -/

theorem stretchWait_of_none {s : State} (h : s.cfg.stretch = .none) : stretchWait s = .ok () s := by
  simp [stretchWait, h]

theorem stretchWait_of_wait {s : State} {n : Word} (h : s.cfg.stretch = .wait n) :
    stretchWait s = pollClock n.toNat s := by
  simp [stretchWait, h]

/-- A poll that reads CLOCK high ends the wait, however many polls are left. -/
theorem pollClock_high {s : State} {e : EnvSample} {rest : List EnvSample} (n : Nat) (hw : s.cfg.wellFormed = true)
    (hc : engineLow s .clock = false) (he : e.clockLow = false) (henv : s.env = e :: rest) :
    pollClock (n + 1) s = .ok () (readLine .clock s).2 := by
  have hread : (readLine .clock s).1 = true := by simp [readLine_of_answer s hw .clock henv, hc, EnvSample.low, he]
  simp [pollClock, hread]

/-- One sample after a run that changed nothing else either: one access more, one answer fewer. -/
theorem readLine_after {s t : State} {e : EnvSample} {rest : List EnvSample} {evs : List Event} (l : Line)
    (hh : t.history = s.history ++ evs) (ht : t = { s with history := t.history, env := e :: rest, draws := t.draws }) :
    portAccesses (newEvents s (readLine l t).2) = portAccesses evs + 1 ∧
    (readLine l t).2 =
      { s with history := (readLine l t).2.history, env := rest, draws := (readLine l t).2.draws } := by
  have hread := readLine_eq t l (congrArg State.env ht)
  refine ⟨?_, ?_⟩
  · rw [newEvents_of_eq (evs := evs ++ [.portRead _ _]) (by rw [congrArg State.history hread, hh, List.append_assoc]),
      portAccesses_append]
    rfl
  · rw [hread, ht]

/-- Settles O22: the polls that read low leave the wait with as many fewer; then a poll reads high, or none is left. -/
theorem stretchWaitPollsUntilClockIsHigh : Obligations.StretchWaitPollsUntilClockIsHigh := by
  intro s hw
  refine ⟨stretchWait_of_none, fun n lows e rest hn hc hlows he hlen henv => ?_,
    fun n lows rest hn hc hlows hlen henv => ?_⟩
  · obtain ⟨t, hrun, ⟨evs, hhist, hevs⟩, -, ht⟩ := pollClock_low lows s (n.toNat - lows.length) _ hw hc hlows henv
    obtain ⟨k, hk⟩ : ∃ k, n.toNat - lows.length = k + 1 := ⟨n.toNat - lows.length - 1, by omega⟩
    have hwt : t.cfg.wellFormed = true := by rw [ht]; exact hw
    have hct : engineLow t .clock = false := by rw [ht]; exact hc
    obtain ⟨hacc, hframe⟩ := readLine_after .clock hhist ht
    refine ⟨(readLine .clock t).2, ?_, by rw [hacc, hevs], hframe⟩
    rw [stretchWait_of_wait hn, ← Nat.add_sub_of_le hlen.le, hrun, hk]
    exact pollClock_high k hwt hct he (congrArg State.env ht)
  · obtain ⟨t, hrun, ⟨evs, hhist, hevs⟩, -, ht⟩ := pollClock_low lows s 0 rest hw hc hlows henv
    refine ⟨t, ?_, by rw [newEvents_of_eq hhist, hevs, hlen], ht⟩
    rw [stretchWait_of_wait hn, ← hlen, ← Nat.add_zero lows.length, hrun]
    rfl

/-! ### The arbitration check -/

theorem arbCheck_of_noDetect {s : State} (h : s.cfg.arbDetect = false) : arbCheck s = .ok () s := by
  simp [arbCheck, h]

/-- Under ARB_DETECT the check is one sample of DATA, lost when it reads low. -/
theorem arbCheck_of_detect {s : State} (h : s.cfg.arbDetect = true) :
    arbCheck s = if (readLine .data s).1 then .ok () (readLine .data s).2 else .error .arbLost (readLine .data s).2 := by
  simp only [arbCheck, bind_run, get_run, h, onlyIf_true, sampleArbitration, modifyGet_run]
  cases (readLine .data s).1 <;> rfl

/-- Settles O23: DATA reads low exactly when the engine or the environment holds it low. -/
theorem arbCheckSamplesDataOnce : Obligations.ArbCheckSamplesDataOnce := by
  refine fun s hw => ⟨arbCheck_of_noDetect, fun e rest ha henv => ?_⟩
  have hread : (readLine .data s).1 = !(engineLow s .data || e.dataLow) := by
    rw [readLine_of_answer s hw .data henv, Bool.not_or]
    rfl
  have hs : s = { s with history := s.history, env := e :: rest, draws := s.draws } := by rw [← henv]
  obtain ⟨hacc, hframe⟩ := readLine_after (evs := []) .data (List.append_nil _).symm hs
  refine ⟨(readLine .data s).2, ?_, hacc, hframe⟩
  rw [arbCheck_of_detect ha, hread]
  cases engineLow s .data || e.dataLow <;> rfl

end Sys2Proof.Machine
end

section
/-! SUPPORT. A bit that completes: what a command leaves whose points are all passed and whose procedure is one bit on the lines
(41_bit_transport.md R122, R123, R126). -/
namespace Sys2Proof.Machine

/-- A completion after a run that changed only the lines. -/
theorem SameButLines.completed {s t : State} {rest : List EnvSample} (h : SameButLines s t) (henv : t.env = rest)
    (v : Byte) (cmd : Command) :
    complete .ok v cmd t = { s with
      out := (complete .ok v cmd t).out
      result := ⟨0#3, v⟩
      history := (complete .ok v cmd t).history
      env := rest
      draws := (complete .ok v cmd t).draws } := by
  rw [complete_eq, ← henv]
  unfold SameButLines at h
  rw [h]
  rfl

/-- Along points that are all passed a completed command makes their accesses and its polls, which are as many as its waits
allow. -/
theorem Between.completed_accesses {s t : State} {as : List Ask} (hb : Between s t (hear s.cfg as s.env))
    (h : (hear s.cfg as s.env).ending = .through) (v : Byte) (cmd : Command) :
    portAccesses (newEvents s (complete .ok v cmd t)) = asksWeight s.cfg as + (hear s.cfg as s.env).polls ∧
    PollsOf s.cfg (as.count .wait) (hear s.cfg as s.env).polls :=
  ⟨(hb.completed v cmd).1.trans (hear_accesses h), hear_polls h⟩

/-- Settles O24: the procedure of WRBIT is one bit on the lines, and its points are those of `writeAsks`. -/
theorem wrbitClocksOneBitOut : Obligations.WrbitClocksOneBitOut := by
  rintro s v h hw hc rfl hthrough
  obtain ⟨⟨⟩, t, hrun, hb, -, hbit⟩ := (writeBit_hears v s hw).through hthrough
  have hp : procOf (.wrbit v) s = .ok 0x00#8 t := by simp [procOf, wrbitCommand, hrun]
  obtain ⟨hacc, hpolls⟩ := hb.completed_accesses hthrough 0x00#8 (.legal (.wrbit v))
  rw [writeAsks_weight] at hacc
  rw [writeAsks_waits] at hpolls
  obtain ⟨hdone, hdrives⟩ := hbit.drove.completed .ok 0x00#8 (.legal (.wrbit v))
  exact ⟨_, exec_of_ok (.wrbit v) hc nofun hp, hbit.same.completed hb.env _ _, by rw [hacc]; omega, hpolls, hdone,
    hbit.clock, hbit.data, hdrives⟩

/-- Settles O25: the procedure of RDBIT is one bit driven as a 1, and its value is the one sample it hears. -/
theorem rdbitReturnsTheSample : Obligations.RdbitReturnsTheSample := by
  rintro s h hw hc rfl hthrough
  obtain ⟨bit, t, hrun, hb, hlevels, hbit⟩ := (readBit_hears s hw).through hthrough
  have hp : procOf .rdbit s = .ok (if bit then 0x01#8 else 0x00#8) t := by
    simp [procOf, rdbitCommand, hrun, byteOfBit_eq]
  obtain ⟨hacc, hpolls⟩ := hb.completed_accesses hthrough (if bit then 0x01#8 else 0x00#8) (.legal .rdbit)
  obtain ⟨hdone, hdrives⟩ := hbit.drove.completed .ok (if bit then 0x01#8 else 0x00#8) (.legal .rdbit)
  have hdata : engineLow t .data = false := by simp [hbit.data]
  exact ⟨_, bit, _, exec_of_ok .rdbit hc nofun hp, hlevels, rfl, hbit.same.completed hb.env _ _, hacc, hpolls, hdone,
    hbit.clock, hdata, hdrives⟩

end Sys2Proof.Machine
end

section
/-! SUPPORT. Which commands a bus condition can end, and under which configuration (41_bit_transport.md R122 to R124). -/
namespace Sys2Proof.Machine

theorem BusCondition.code_injective {c c' : BusCondition} (h : c.condition.code = c'.condition.code) : c = c' := by
  revert h
  cases c <;> cases c' <;> decide

/-- The codes of the bus conditions are raised by no command fault and by no normal end (60_exceptions.md R200). -/
theorem BusCondition.code_ne (c : BusCondition) :
    Condition.ok.code ≠ c.condition.code ∧ Condition.notConfigured.code ≠ c.condition.code ∧
      Condition.bufferFault.code ≠ c.condition.code := by
  cases c <;> decide

/-- A completion with a bus condition is the raising of the one that ended the command's procedure (R202). -/
theorem procOf_error_of_cond {i : Instr} {s t : State} {c : BusCondition} (h : exec i s = .next t)
    (hc : t.result.cond = c.condition.code) :
    ∃ u, procOf i s = .error c u ∧ t = raiseCondition c.condition (.legal i) u := by
  obtain ⟨hok, hnot, hbuf⟩ := c.code_ne
  obtain ⟨-, -, rfl⟩ | ⟨buf, len, -, -, -, rfl⟩ | ⟨-, -, ⟨v, u, -, rfl⟩ | ⟨c', u, hp, rfl⟩⟩ := exec_cases h
  · exact absurd hc hnot
  · exact absurd hc hbuf
  · exact absurd hc hok
  · obtain rfl := BusCondition.code_injective hc
    exact ⟨u, hp, rfl⟩

/-- What loses arbitration is no 0 bit, no bit that is read, and no byte made only of these. -/
theorem ne_of_arbLost {i : Instr} {s t : State} (hw : s.cfg.wellFormed = true) (h : exec i s = .next t)
    (hlost : t.result.cond = 1#3) : i ≠ .wrbit false ∧ i ≠ .rdbit ∧ i ≠ .rdbyte false ∧ i ≠ .wrbyte 0x00#8 := by
  obtain ⟨u, hp, -⟩ := procOf_error_of_cond (c := .arbLost) h hlost
  obtain ⟨-, hne, -⟩ := (procOf_wp i s hw).of_error hp
  exact hne rfl

/-- Settles O26: an arbitration loss ends none of these commands. -/
theorem zeroBitsAndReadsNeverLoseArbitration : Obligations.ZeroBitsAndReadsNeverLoseArbitration := by
  intro s t hw hexec hlost
  obtain h | h | h | h := hexec
  all_goals obtain ⟨hzero, hread, hbyteRead, hbyteWritten⟩ := ne_of_arbLost hw h hlost
  · exact hzero rfl
  · exact hread rfl
  · exact hbyteRead rfl
  · exact hbyteWritten rfl

/-- A bus condition that ends a command's procedure is one that the configuration has the feature for (R124). -/
theorem feature_of_procOf_error {i : Instr} {s u : State} {c : BusCondition} (hw : s.cfg.wellFormed = true)
    (h : procOf i s = .error c u) :
    (c = .arbLost → s.cfg.arbDetect = true) ∧ (c = .busTimeout → s.cfg.stretch ≠ .none) := by
  obtain ⟨hbroken | ⟨rfl, harb, -⟩, -, -⟩ := (procOf_wp i s hw).of_error h
  · exact ⟨hbroken.arb, hbroken.wait⟩
  · exact ⟨fun _ => harb, nofun⟩

/-- Settles O33: each condition needs its feature, whatever the command. -/
theorem noConditionWithoutItsFeature : Obligations.NoConditionWithoutItsFeature := by
  refine fun i s t hw h => ⟨fun harb hcond => ?_, fun hstretch hcond => ?_⟩
  · obtain ⟨u, hp, -⟩ := procOf_error_of_cond (c := .arbLost) h hcond
    have := (feature_of_procOf_error hw hp).1 rfl
    simp [harb] at this
  · obtain ⟨u, hp, -⟩ := procOf_error_of_cond (c := .busTimeout) h hcond
    exact (feature_of_procOf_error hw hp).2 rfl hstretch

end Sys2Proof.Machine
end

section
/-! SUPPORT. CLOCK between bits (41_bit_transport.md R125). -/
namespace Sys2Proof.Machine

/-- Where `p` ends normally, CLOCK is driven low, its bit being an output. -/
def LeavesClockLow {α : Type} (p : Proc α) (s : State) : Prop :=
  Wp p s (fun _ t => engineLow t .clock = isOutput s s.cfg.clkOutBit) (fun _ _ => True)

/-- Returning a value afterwards changes no line. -/
theorem LeavesClockLow.bind_pure {α β : Type} {p : Proc α} {s : State} (f : α → β) (h : LeavesClockLow p s) :
    LeavesClockLow (p >>= fun a => pure (f a)) s :=
  Wp.bind h

section
variable (s : State) (hw : s.cfg.wellFormed = true)
include hw

theorem writeBit_leavesClockLow (v : Bool) : LeavesClockLow (writeBit v) s :=
  (writeBit_wp v s hw).imp (fun _ _ h => h.clock) (fun _ _ _ => trivial)

theorem readBit_leavesClockLow : LeavesClockLow readBit s :=
  (readBit_wp s hw).imp (fun _ _ h => h.clock) (fun _ _ _ => trivial)

theorem startCondition_leavesClockLow : LeavesClockLow startCondition s :=
  (startCondition_wp s hw).imp (fun _ _ ⟨_, hlines, _⟩ => hlines .clock) (fun _ _ _ => trivial)

theorem writeByte_leavesClockLow (b : Byte) : LeavesClockLow (writeByte b) s :=
  (writeByte_wp b s hw).imp (fun _ _ ⟨_, hclock, _⟩ => hclock) (fun _ _ _ => trivial)

theorem readByte_leavesClockLow (last : Bool) : LeavesClockLow (readByte last) s :=
  (readByte_wp last s hw).imp (fun _ _ ⟨_, hclock, _⟩ => hclock) (fun _ _ _ => trivial)

/-- START alone leaves CLOCK low where the buffer is empty. -/
theorem writeBytes_leavesClockLow (buf len : Word) : LeavesClockLow (writeBytes true false buf len) s :=
  (writeBytes_wp true false buf len s hw).imp (fun _ _ ⟨_, _, _, hclock, _⟩ => hclock rfl rfl) (fun _ _ _ => trivial)

end

/-- Settles O41: a completion with OK is the normal end of a procedure that leaves CLOCK low. -/
theorem clockStaysLowBetweenBits : Obligations.ClockStaysLowBetweenBits := by
  intro i s t hw _ h hok hi
  obtain ⟨v, u, hp, rfl⟩ := procOf_ok_of_cond h hok
  show engineLow u .clock = isOutput s s.cfg.clkOutBit
  have hlow : LeavesClockLow (procOf i) s := by
    obtain rfl | ⟨v, rfl⟩ | rfl | ⟨b, rfl⟩ | ⟨last, rfl⟩ | ⟨buf, len, rfl⟩ := hi
    · exact (startCondition_leavesClockLow s hw).bind_pure _
    · exact (writeBit_leavesClockLow s hw v).bind_pure _
    · exact (readBit_leavesClockLow s hw).bind_pure _
    · exact (writeByte_leavesClockLow s hw b).bind_pure _
    · exact readByte_leavesClockLow s hw last
    · exact writeBytes_leavesClockLow s hw buf len
  exact hlow.of_ok hp

end Sys2Proof.Machine
end

section
/-! SUPPORT. A START and a STOP that complete (42_protocol_engine.md R141, R142, R146). -/
namespace Sys2Proof.Machine

/-- Where there is no stretch wait there are no polls. -/
theorem PollsOf.eq_zero {cfg : Cfg} {polls : Nat} (h : PollsOf cfg 0 polls) : polls = 0 := by
  unfold PollsOf at h
  split at h
  · exact h
  · omega

/-- A first START without ARB_DETECT meets only line changes, which nothing can stop. -/
theorem hear_firstStart_through {s : State} (hs : s.started = false) (harb : s.cfg.arbDetect = false) :
    (hear s.cfg (startAsks s) s.env).ending = .through := by
  simp [startAsks, hs, hear, hearOne, harb, Heard.andThen]

/-- Settles O34: the procedure of START is `startCondition`; the polls and the drives are those of the path taken. -/
theorem startMakesAStartCondition : Obligations.StartMakesAStartCondition := by
  rintro s h hw hc rfl
  refine ⟨hear_firstStart_through, fun hthrough => ?_⟩
  obtain ⟨⟨⟩, t, hrun, hb, -, hsame, hlines, hdrove, -⟩ :=
    ((startCondition_hears s hw).and (startCondition_wp s hw)).through hthrough
  have hp : procOf .start s = .ok 0x00#8 t := by simp [procOf, startCommand, hrun]
  obtain ⟨hacc, hpolls⟩ := hb.completed_accesses hthrough 0x00#8 (.legal .start)
  rw [startAsks_weight] at hacc
  rw [startAsks_waits] at hpolls
  obtain ⟨-, hdrives⟩ := hdrove.completed .ok 0x00#8 (.legal .start)
  refine ⟨_, exec_of_ok .start hc nofun hp, hsame.completed hb.env _ _, hlines, fun hs => ?_, fun hs => ?_⟩
  · simp only [startDrives, hs, Bool.false_eq_true, if_false] at hacc hpolls hdrives
    exact ⟨by rw [hacc, hpolls.eq_zero, Nat.add_zero], hdrives⟩
  · simp only [startDrives, hs, if_true] at hacc hpolls hdrives
    exact ⟨by rw [hacc]; omega, hpolls, hdrives⟩

/-- Settles O35: the procedure of STOP is `stopCondition`, whose one wait is that of `stopAsks`. -/
theorem stopMakesAStopCondition : Obligations.StopMakesAStopCondition := by
  rintro s h hw hc rfl hthrough
  obtain ⟨⟨⟩, t, hrun, hb, -, hsame, hlines, hdrove⟩ :=
    ((stopCondition_hears s hw).and (stopCondition_wp s hw)).through hthrough
  have hp : procOf .stop s = .ok 0x00#8 t := by simp [procOf, stopCommand, hrun]
  obtain ⟨hacc, hpolls⟩ := hb.completed_accesses hthrough 0x00#8 (.legal .stop)
  rw [stopAsks_weight] at hacc
  obtain ⟨-, hdrives⟩ := hdrove.completed .ok 0x00#8 (.legal .stop)
  exact ⟨_, exec_of_ok .stop hc nofun hp, hsame.completed hb.env _ _, by rw [hacc]; omega, hpolls, hlines, hdrives⟩

end Sys2Proof.Machine
end

section
/-! SUPPORT. A byte that completes: its value, its accesses and the bits it clocks onto the bus (42_protocol_engine.md R143, R144,
R146, R147). -/
namespace Sys2Proof.Machine

/-- Settles O37: the procedure of WRBYTE is `writeByte`, and its value is the one sample it hears. -/
theorem wrbyteReturnsTheAcknowledgment : Obligations.WrbyteReturnsTheAcknowledgment := by
  rintro s b h hw hc rfl hthrough
  obtain ⟨nack, t, hrun, hb, hlevels, hsame, hclock, hdata⟩ := (writeByte_hears b s hw).through hthrough
  have hp : procOf (.wrbyte b) s = .ok (if nack then 0x01#8 else 0x00#8) t := by
    simp [procOf, wrbyteCommand, hrun, byteOfBit_eq]
  obtain ⟨hacc, hpolls⟩ := hb.completed_accesses hthrough (if nack then 0x01#8 else 0x00#8) (.legal (.wrbyte b))
  rw [writeByteAsks_weight] at hacc
  rw [writeByteAsks_waits] at hpolls
  exact ⟨_, nack, _, exec_of_ok (.wrbyte b) hc nofun hp, hlevels, rfl, hsame.completed hb.env _ _,
    by rw [hacc]; omega, hpolls, hclock, hdata⟩

/-- Settles O39: the procedure of RDBYTE is `readByte`, and its value is the byte of the eight samples it hears. -/
theorem rdbyteAssemblesTheSamples : Obligations.RdbyteAssemblesTheSamples := by
  rintro s last h hw hc rfl hthrough
  obtain ⟨r, t, hrun, hb, hlength, hr, hsame, hclock, hdata⟩ := (readByte_hears last s hw).through hthrough
  obtain ⟨hacc, hpolls⟩ := hb.completed_accesses hthrough r (.legal (.rdbyte last))
  rw [readByteAsks_weight] at hacc
  rw [readByteAsks_waits] at hpolls
  exact ⟨_, r, exec_of_ok (.rdbyte last) hc nofun hrun, hlength, hr, hsame.completed hb.env _ _,
    by rw [hacc]; omega, hpolls, hclock, hdata⟩

/-- WRBYTE completed with OK: its drives are those of the bits of the byte, most significant first, and a released bit. -/
theorem drives_of_wrbyte_ok {s t : State} {b : Byte} (hw : s.cfg.wellFormed = true) (hc : s.configured = true)
    (ho : LinesAreOutputs s) (h : exec (.wrbyte b) s = .next t) (hok : t.result.cond = 0#3) :
    drives s t = bitsDrives (!engineLow s .clock) (msbFirst b ++ [true]) := by
  obtain ⟨v, u, hp, rfl⟩ := procOf_ok_of_exec hc rfl h hok
  have hrun : Wp (procOf (.wrbyte b)) s (fun _ u => Clocked s (msbFirst b ++ [true]) u) (fun _ _ => True) :=
    Wp.bind ((writeByte_wp b s hw).imp (fun _ _ ⟨_, _, _, hclocked, _⟩ => hclocked) (fun _ _ _ => trivial))
  exact ((hrun.of_ok hp).drove.completed _ _ _).2 ho

/-- Settles O38: from CLOCK low the drives of bits clock those bits, and DATA changes only while CLOCK is low. -/
theorem wrbyteSendsMostSignificantBitFirst : Obligations.WrbyteSendsMostSignificantBitFirst := by
  intro s t b hw hc ho hclk h hok
  rw [drives_of_wrbyte_ok hw hc ho h hok, hclk]
  exact ⟨clockedBits_bitsDrives _ _, wireConditions_bitsDrives _ _⟩

end Sys2Proof.Machine
end

section
/-! SUPPORT. The register `started` after each command (42_protocol_engine.md R140). -/
namespace Sys2Proof.Machine

/-- Where `p` ends normally, `started` is `b`. -/
def LeavesStarted {α : Type} (b : Bool) (p : Proc α) (s : State) : Prop :=
  Wp p s (fun _ t => t.started = b) (fun _ _ => True)

/-- Returning a value afterwards leaves `started` alone. -/
theorem LeavesStarted.bind_pure {α β : Type} {b : Bool} {p : Proc α} {s : State} (f : α → β) (h : LeavesStarted b p s) :
    LeavesStarted b (p >>= fun a => pure (f a)) s :=
  Wp.bind h

/-- The commands that move lines and clock bits or bytes (30_encoding.md R82). -/
def MovesLinesBitsOrBytes (i : Instr) : Prop :=
  (∃ l, i = .release l ∨ i = .drivelow l ∨ i = .readline l) ∨ (∃ v, i = .wrbit v) ∨ i = .rdbit ∨
    (∃ b, i = .wrbyte b) ∨ ∃ last, i = .rdbyte last

section
variable (s : State) (hw : s.cfg.wellFormed = true)
include hw

theorem start_leavesStarted : LeavesStarted true (procOf .start) s :=
  .bind_pure _ ((startCondition_wp s hw).imp (fun _ _ ⟨hsame, _⟩ => hsame.started) (fun _ _ _ => trivial))

theorem stop_leavesStarted :
    LeavesStarted (if s.cfg.stopClearsStarted then false else s.started) (procOf .stop) s :=
  .bind_pure _ ((stopCondition_wp s hw).imp (fun _ _ ⟨hsame, _⟩ => hsame.started) (fun _ _ _ => trivial))

/-- Line, bit and byte commands write only the lines and the working registers of a byte. -/
theorem linesBitsBytes_leaveStarted {i : Instr} (hi : MovesLinesBitsOrBytes i) :
    LeavesStarted s.started (procOf i) s := by
  obtain ⟨l, rfl | rfl | rfl⟩ | ⟨v, rfl⟩ | rfl | ⟨b, rfl⟩ | ⟨last, rfl⟩ := hi
  · exact (releaseLine_lineRun l s).same.started
  · exact (driveLineLow_lineRun l s).same.started
  · exact (readLine_lineRun l s).same.started
  · exact .bind_pure _ ((writeBit_wp v s hw).imp (fun _ _ h => h.same.started) (fun _ _ _ => trivial))
  · exact .bind_pure _ ((readBit_wp s hw).imp (fun _ _ h => h.same.started) (fun _ _ _ => trivial))
  · exact .bind_pure _ ((writeByte_wp b s hw).imp (fun _ _ ⟨hsame, _⟩ => hsame.started) (fun _ _ _ => trivial))
  · exact (readByte_wp last s hw).imp (fun _ _ ⟨hsame, _⟩ => hsame.started) (fun _ _ _ => trivial)

end

/-- A command that completes with OK leaves `started` as its procedure does. -/
theorem LeavesStarted.of_exec {b : Bool} {i : Instr} {s t : State} (hp : LeavesStarted b (procOf i) s)
    (h : exec i s = .next t) (hok : t.result.cond = 0#3) : t.started = b := by
  obtain ⟨v, u, hrun, rfl⟩ := procOf_ok_of_cond h hok
  have hu : u.started = b := hp.of_ok hrun
  exact hu

/-- A bus condition clears `started`, whatever command it ends (60_exceptions.md R203, R204). -/
theorem started_of_busCondition {i : Instr} {s t : State} {c : BusCondition} (h : exec i s = .next t)
    (hc : t.result.cond = c.condition.code) : t.started = false := by
  obtain ⟨u, -, rfl⟩ := procOf_error_of_cond h hc
  exact raiseCondition_started c _ u

/-- INIT clears `started` (43_bus_handle.md R170). -/
theorem exec_init_started {s t : State} (h : exec .init s = .next t) : t.started = false := by
  cases h
  rfl

/-- Settles O40: a completion with OK follows the command's procedure, and a bus condition clears `started`. -/
theorem startedFollowsItsTable : Obligations.StartedFollowsItsTable := by
  refine fun i s t hw h => ⟨?_, ?_, fun hi => (linesBitsBytes_leaveStarted s hw hi).of_exec h, ?_, ?_⟩
  · rintro rfl
    exact (start_leavesStarted s hw).of_exec h
  · rintro rfl
    exact (stop_leavesStarted s hw).of_exec h
  · rintro (hlost | htimeout)
    · exact started_of_busCondition (c := .arbLost) h hlost
    · exact started_of_busCondition (c := .busTimeout) h htimeout
  · rintro rfl
    exact exec_init_started h

end Sys2Proof.Machine
end

section
/-! SUPPORT. INIT and RESET in full: the state each completes in (43_bus_handle.md R170, R171), and that neither reads
`started`. -/
namespace Sys2Proof.Machine

/-! ### INIT -/

/-- The state that INIT completes in (R170). -/
def afterInit (s : State) : State := { s with
  out := s.cfg.initOut
  ddr := s.cfg.initDdr
  started := false
  configured := true
  result := ⟨0#3, 0x00#8⟩
  history := s.history ++ [.portWrite s.cfg.portOutAddr s.cfg.initOut, .portWrite s.cfg.ddrAddr s.cfg.initDdr,
    .done (.legal .init) .ok 0x00#8] }

theorem exec_init_eq {s : State} (hw : s.cfg.wellFormed = true) : exec .init s = .next (afterInit s) := by
  have hrun : exec .init s = .next (complete .ok 0x00#8 (.legal .init) (initPort s)) := rfl
  simp [hrun, complete_eq, afterInit, initPort, portWrite, latchPort, Cfg.ddrAddr_ne hw, Condition.code,
    State.setOut, State.setDdr, State.setStarted, State.setConfigured, State.log]

/-- INIT_OUT releases both lines (00_scope.md R7). -/
theorem Cfg.initOut_releases {cfg : Cfg} (h : cfg.wellFormed = true) (l : Line) :
    bitAt cfg.initOut (outBit cfg l) = relBit cfg := by
  obtain ⟨hclk, hdata⟩ := (meets_initReleasesLines cfg).mp (meets_of_wellFormed h .initReleasesLines)
  cases l
  · exact hclk
  · exact hdata

/-- A line whose bit of OUT releases it is not driven low (10_state.md R29). -/
theorem engineLow_of_released {s : State} {l : Line} (h : bitAt s.out (outBit s.cfg l) = relBit s.cfg) :
    engineLow s l = false := by
  simp [engineLow, h]

/-- Settles O16: INIT completes in `afterInit`, where INIT_DDR makes the line bits outputs and INIT_OUT releases them. -/
theorem initClaimsTheLines : Obligations.InitClaimsTheLines := by
  intro s hw
  have hexec := exec_init_eq hw
  exact ⟨afterInit s, hexec, rfl, ((exec_init_portSetUp hw hexec).2 rfl).1,
    fun l => engineLow_of_released (s := afterInit s) (Cfg.initOut_releases hw l)⟩

/-! ### RESET -/

/-- The state that RESET completes in, `started` being the draw's bit (R171). -/
def afterReset (s : State) : State := { s with
  out := s.cfg.resetOut
  ddr := s.cfg.resetDdr
  started := bitAt (Config.freeByte s.draws) 0
  configured := false
  result := ⟨0#3, 0x00#8⟩
  history := s.history ++ [.portWrite s.cfg.ddrAddr s.cfg.resetDdr, .portWrite s.cfg.portOutAddr s.cfg.resetOut,
    .done (.legal .reset) .ok 0x00#8]
  draws := s.draws + 1 }

theorem exec_reset_eq {s : State} (hw : s.cfg.wellFormed = true) : exec .reset s = .next (afterReset s) := by
  have hrun : exec .reset s = .next (complete .ok 0x00#8 (.legal .reset) (resetPort s)) := rfl
  simp [hrun, complete_eq, afterReset, resetPort, portWrite, latchPort, Cfg.ddrAddr_ne hw, Condition.code, draw8,
    State.setOut, State.setDdr, State.setStarted, State.setConfigured, State.setDraws, State.log]

/-- Settles O17: RESET completes in `afterReset`. -/
theorem resetGivesTheLinesBack : Obligations.ResetGivesTheLinesBack :=
  fun s hw => ⟨bitAt (Config.freeByte s.draws) 0, exec_reset_eq hw⟩

/-- Settles O18: none of these commands reads what the one before it wrote. -/
theorem resetAndInitRepeat : Obligations.ResetAndInitRepeat := by
  intro s t u v hw ht hu hv
  have hwt : (afterReset s).cfg.wellFormed = true := hw
  have hwu : (afterReset (afterReset s)).cfg.wellFormed = true := hw
  have hwv : (afterInit (afterReset (afterReset s))).cfg.wellFormed = true := hw
  cases (exec_reset_eq hw).symm.trans ht
  cases (exec_reset_eq hwt).symm.trans hu
  cases (exec_init_eq hwu).symm.trans hv
  refine ⟨rfl, rfl, rfl, rfl, rfl, rfl, rfl, rfl, rfl, rfl, rfl, rfl, fun w h => ?_⟩
  cases (exec_init_eq hwv).symm.trans h
  rfl

/-! ### `started` before INIT (R171) -/

theorem portWrite_setStarted (a : Word) (v : Byte) (s : State) (b : Bool) :
    portWrite a v (s.setStarted b) = (portWrite a v s).setStarted b := by
  by_cases hout : a = s.cfg.portOutAddr
  · simp [portWrite, latchPort, hout, State.setOut, State.setStarted, State.log]
  by_cases hddr : a = s.cfg.ddrAddr
  · subst hddr
    simp [portWrite, latchPort, hout, State.setDdr, State.setStarted, State.log]
  · simp [portWrite, latchPort, hout, hddr, State.setStarted, State.log]

/-- INIT overwrites `started` unread. -/
theorem exec_init_setStarted (s : State) (b : Bool) : exec .init (s.setStarted b) = exec .init s := by
  have hport : initPort (s.setStarted b) = initPort s := by
    simp only [initPort, portWrite_setStarted, State.setStarted_cfg]
    rfl
  simp only [exec, execInit, runProc, initCommand, bind_run, modify_run, pure_run, hport]

/-- RESET overwrites `started` unread. -/
theorem exec_reset_setStarted (s : State) (b : Bool) : exec .reset (s.setStarted b) = exec .reset s := by
  have hport : resetPort (s.setStarted b) = resetPort s := by
    simp only [resetPort, portWrite_setStarted, State.setStarted_cfg]
    rfl
  simp only [exec, execReset, runProc, resetCommand, bind_run, modify_run, pure_run, hport]

theorem needsConfigured_of_ne {i : Instr} (hi : i ≠ .init) (hr : i ≠ .reset) : needsConfigured i = true := by
  cases i
  case init => exact absurd rfl hi
  case reset => exact absurd rfl hr
  all_goals rfl

/-- A command that needs a configured engine only reports without one (60_exceptions.md R206). -/
theorem exec_of_notConfigured {i : Instr} {s : State} (hc : s.configured = false) (hn : needsConfigured i = true) :
    exec i s = .next (raiseCondition .notConfigured (.legal i) s) := by
  obtain ⟨t, ht⟩ := exec_isNext i s
  obtain ⟨-, -, rfl⟩ | ⟨buf, len, -, hc', -⟩ | ⟨hc' | hn', -⟩ := exec_cases ht
  · exact ht
  · simp [hc] at hc'
  · simp [hc] at hc'
  · simp [hn] at hn'

/-- Settles O56: a report of NOT_CONFIGURED carries `started` along, and INIT and RESET overwrite it. -/
theorem startedIsNotReadBeforeInit : Obligations.StartedIsNotReadBeforeInit := by
  refine fun i s t b hc h => ⟨fun hi hr => ?_, ?_⟩
  · have hn := needsConfigured_of_ne hi hr
    cases (exec_of_notConfigured hc hn).symm.trans h
    exact exec_of_notConfigured (s := s.setStarted b) hc hn
  · rintro (rfl | rfl)
    · exact (exec_init_setStarted s b).trans h
    · exact (exec_reset_setStarted s b).trans h

end Sys2Proof.Machine
end

section
/-! SUPPORT. What only INIT and RESET write (43_bus_handle.md R177), and the read that reads nothing (R173). -/
namespace Sys2Proof.Machine

/-- A completion appends `Done` to the events of the command's run. -/
theorem newEvents_complete {s u : State} {evs : List Event} (h : u.history = s.history ++ evs) (c : Condition) (v : Byte)
    (cmd : Command) : newEvents s (complete c v cmd u) = evs ++ [.done cmd c v] :=
  newEvents_of_eq (by rw [complete_eq, h, List.append_assoc])

/-- Settles O50: the run of a command other than INIT and RESET keeps its frame, and those two leave the interface alone. -/
theorem onlyInitAndResetConfigure : Obligations.OnlyInitAndResetConfigure := by
  intro i s t hw h
  by_cases hi : i = .init ∨ i = .reset
  · obtain ⟨-, -, -, hstream, hhost, -⟩ := exec_initReset h hi
    exact ⟨fun h1 h2 => absurd hi (not_or.mpr ⟨h1, h2⟩), hstream, hhost⟩
  · rw [not_or] at hi
    obtain ⟨u, c, v, hu, rfl⟩ := exec_runFrame h hi.1 hi.2
    obtain ⟨evs, hevs, -, hddr⟩ := hu.events
    refine ⟨fun _ _ => ⟨hu.ddr, hu.configured, ?_⟩, hu.stream, hu.host⟩
    rw [newEvents_complete hevs, portWritesTo_append, hddr (Cfg.ddrAddr_ne hw)]
    rfl

/-- Settles O48: no byte is read and no STOP made; the value is the draw that R173 begins with. -/
theorem emptyReadMakesNoAccess : Obligations.EmptyReadMakesNoAccess := by
  intro s buf hc
  have hp : procOf (.rdbytes false buf 0#16) s = .ok (Config.freeByte s.draws) ((draw8 s).2.setIdx 0#16) := rfl
  have hb : ∀ b l, bufferOf (.rdbytes false buf 0#16) = some (b, l) → bufferOk s.cfg b l = true := by
    rintro b l ⟨⟩
    rfl
  exact ⟨Config.freeByte s.draws, s.draws + 1, exec_of_ok _ hc hb hp⟩

end Sys2Proof.Machine
end

section
/-! SUPPORT. Which buffer bytes a command touches and where, from what its procedure does: a command that raises a condition
adds no buffer access of its own (43_bus_handle.md R174, 60_exceptions.md R202). -/
namespace Sys2Proof.Machine

/-! ### Which bytes are touched -/

/-- The command between the states read the bytes `rd` and wrote the bytes `wr`, in these orders, and memory is as it was but
for these writes. -/
def TouchedBy (s t : State) (rd wr : List (Word × Byte)) : Prop :=
  bufferReads (newEvents s t) = rd ∧ bufferWrites (newEvents s t) = wr ∧ t.mem = storeAll s.mem wr

/-- What a command touches, from what its procedure touches at a normal end (`Q`) and when a condition ends it (`E`); a
command whose procedure does not run touches nothing. -/
theorem exec_touches {i : Instr} {s t : State} {Q E : List (Word × Byte) → List (Word × Byte) → Prop} (hnone : E [] [])
    (hp : Wp (procOf i) s (fun _ u => ∃ rd wr, Touched s u rd wr ∧ Q rd wr) (fun _ u => ∃ rd wr, Touched s u rd wr ∧ E rd wr))
    (h : exec i s = .next t) :
    ∃ rd wr, TouchedBy s t rd wr ∧ (t.result.cond = 0#3 ∧ Q rd wr ∨ t.result.cond ≠ 0#3 ∧ E rd wr) := by
  obtain ⟨-, -, rfl⟩ | ⟨buf, len, -, -, -, rfl⟩ | ⟨-, -, ⟨v, u, hrun, rfl⟩ | ⟨c, u, hrun, rfl⟩⟩ := exec_cases h
  · exact ⟨[], [], (Touched.refl s).raise, .inr ⟨(by decide : Condition.notConfigured.code ≠ 0#3), hnone⟩⟩
  · exact ⟨[], [], (Touched.refl s).raise, .inr ⟨(by decide : Condition.bufferFault.code ≠ 0#3), hnone⟩⟩
  · obtain ⟨rd, wr, htouched, hq⟩ := hp.of_ok hrun
    exact ⟨rd, wr, htouched.done, .inl ⟨rfl, hq⟩⟩
  · obtain ⟨rd, wr, htouched, he⟩ := hp.of_error hrun
    exact ⟨rd, wr, htouched.raise, .inr ⟨c.code_ne_ok, he⟩⟩

theorem portWrite_untouched (a : Word) (v : Byte) (s : State) : Untouched s (portWrite a v s) := by
  obtain ⟨-, hmem, -, -, -, -, hhist⟩ := portWrite_frame a v s
  refine ⟨⟨⟨[.portWrite a v], hhist, rfl, rfl⟩, hmem⟩, ?_⟩
  simp only [portWrite, latchPort, State.log_idx]
  split_ifs <;> rfl

theorem initPort_untouched (s : State) : Untouched s (initPort s) := by
  have hwrites := (portWrite_untouched s.cfg.portOutAddr s.cfg.initOut s).trans
    (portWrite_untouched s.cfg.ddrAddr s.cfg.initDdr _)
  exact hwrites.trans (.of_eq rfl rfl rfl)

theorem resetPort_untouched (s : State) : Untouched s (resetPort s) := by
  have hwrites := (portWrite_untouched s.cfg.ddrAddr s.cfg.resetDdr s).trans
    (portWrite_untouched s.cfg.portOutAddr s.cfg.resetOut _)
  exact hwrites.trans (.of_eq rfl rfl rfl)

/-- Returning a value afterwards touches nothing. -/
theorem AlwaysUntouched.bind_pure {α β : Type} {p : Proc α} (f : α → β) (h : Always Untouched p) :
    Always Untouched (p >>= fun a => Pure.pure (f a)) :=
  AlwaysUntouched.bind h fun _ => AlwaysUntouched.pure _

/-- A command without a buffer touches no byte of memory. -/
theorem procOf_untouched {i : Instr} (hi : bufferOf i = none) : Always Untouched (procOf i) := by
  cases i with
  | wrbytes | rdbytes => cases hi
  | release l => exact AlwaysUntouched.bind_pure _ fun s => Untouched.line (releaseLine_lineRun l s)
  | drivelow l => exact AlwaysUntouched.bind_pure _ fun s => Untouched.line (driveLineLow_lineRun l s)
  | readline l => exact AlwaysUntouched.bind_pure _ fun s => Untouched.line (readLine_lineRun l s)
  | wrbit v => exact AlwaysUntouched.bind_pure _ (AlwaysUntouched.line (writeBit_lineRun v))
  | rdbit => exact AlwaysUntouched.bind_pure _ (AlwaysUntouched.line readBit_lineRun)
  | start => exact AlwaysUntouched.bind_pure _ startCondition_untouched
  | stop => exact AlwaysUntouched.bind_pure _ stopCondition_untouched
  | wrbyte b => exact AlwaysUntouched.bind_pure _ (writeByte_untouched b)
  | rdbyte last => exact readByte_untouched last
  | init => exact AlwaysUntouched.bind_pure _ initPort_untouched
  | reset => exact AlwaysUntouched.bind_pure _ resetPort_untouched

theorem bufferOf_eq_none {i : Instr} (hw : ∀ st p buf len, i ≠ .wrbytes st p buf len)
    (hr : ∀ p buf len, i ≠ .rdbytes p buf len) : bufferOf i = none := by
  cases i
  case wrbytes st p buf len => exact absurd rfl (hw st p buf len)
  case rdbytes p buf len => exact absurd rfl (hr p buf len)
  all_goals rfl

theorem exec_touches_none {i : Instr} {s t : State} (hi : bufferOf i = none) (h : exec i s = .next t) :
    TouchedBy s t [] [] := by
  have hp : Wp (procOf i) s (fun _ u => ∃ rd wr, Touched s u rd wr ∧ rd = [] ∧ wr = [])
      (fun _ u => ∃ rd wr, Touched s u rd wr ∧ rd = [] ∧ wr = []) :=
    (wp_of (procOf_untouched hi) s).imp (fun _ _ h => ⟨[], [], h.1, rfl, rfl⟩) (fun _ _ h => ⟨[], [], h.1, rfl, rfl⟩)
  obtain ⟨rd, wr, htouched, ⟨-, rfl, rfl⟩ | ⟨-, rfl, rfl⟩⟩ := exec_touches ⟨rfl, rfl⟩ hp h
  · exact htouched
  · exact htouched

/-- WRBYTES reads a beginning of its buffer, all of it where it completes with OK. -/
theorem exec_wrbytes_touches {st p : Bool} {buf len : Word} {s t : State} (h : exec (.wrbytes st p buf len) s = .next t) :
    ∃ n, n ≤ len.toNat ∧ (t.result.cond = 0#3 → n = len.toNat) ∧ TouchedBy s t (readsFrom s.mem buf 0 n) [] := by
  have hp : Wp (procOf (.wrbytes st p buf len)) s
      (fun _ u => ∃ rd wr, Touched s u rd wr ∧ rd = readsFrom s.mem buf 0 len.toNat ∧ wr = [])
      (fun _ u => ∃ rd wr, Touched s u rd wr ∧ ∃ n ≤ len.toNat, rd = readsFrom s.mem buf 0 n ∧ wr = []) :=
    (writeBytes_touched st p buf len s).imp (fun _ _ h => ⟨_, [], h, rfl, rfl⟩)
      (fun _ _ ⟨n, hn, h⟩ => ⟨_, [], h, n, hn, rfl, rfl⟩)
  obtain ⟨rd, wr, htouched, ⟨-, rfl, rfl⟩ | ⟨hcond, n, hn, rfl, rfl⟩⟩ :=
    exec_touches ⟨0, Nat.zero_le _, rfl, rfl⟩ hp h
  · exact ⟨len.toNat, le_rfl, fun _ => rfl, htouched⟩
  · exact ⟨n, hn, fun hok => absurd hok hcond, htouched⟩

/-- RDBYTES writes a beginning of its buffer, all of it where it completes with OK. -/
theorem exec_rdbytes_touches {p : Bool} {buf len : Word} {s t : State} (h : exec (.rdbytes p buf len) s = .next t) :
    ∃ n wr, n ≤ len.toNat ∧ (t.result.cond = 0#3 → n = len.toNat) ∧ wr.map Prod.fst = addressesFrom buf 0 n ∧
      TouchedBy s t [] wr := by
  have hp : Wp (procOf (.rdbytes p buf len)) s
      (fun _ u => ∃ rd wr, Touched s u rd wr ∧ rd = [] ∧ wr.map Prod.fst = addressesFrom buf 0 len.toNat)
      (fun _ u => ∃ rd wr, Touched s u rd wr ∧ ∃ n ≤ len.toNat, rd = [] ∧ wr.map Prod.fst = addressesFrom buf 0 n) :=
    (readBytes_touched p buf len s).imp (fun _ _ ⟨wr, hwr, h⟩ => ⟨[], wr, h, rfl, hwr⟩)
      (fun _ _ ⟨n, hn, wr, hwr, h⟩ => ⟨[], wr, h, n, hn, rfl, hwr⟩)
  obtain ⟨rd, wr, htouched, ⟨-, rfl, hwr⟩ | ⟨hcond, n, hn, rfl, hwr⟩⟩ :=
    exec_touches ⟨0, Nat.zero_le _, rfl, rfl⟩ hp h
  · exact ⟨len.toNat, wr, le_rfl, fun _ => rfl, hwr, htouched⟩
  · exact ⟨n, wr, hn, fun hok => absurd hok hcond, hwr, htouched⟩

/-- Settles O46: the bytes that WRBYTES, RDBYTES and every other command touch. -/
theorem bufferIsTouchedInOrder : Obligations.BufferIsTouchedInOrder := by
  intro i s t h
  refine ⟨?_, ?_, fun hw hr => ?_, fun hr => ?_⟩
  · rintro st p buf len rfl
    obtain ⟨n, hn, hall, hreads, hwrites, -⟩ := exec_wrbytes_touches h
    exact ⟨hwrites, n, hn, fun _ => hall, hreads.trans (readsFrom_zero _ _ _)⟩
  · rintro p buf len rfl
    obtain ⟨n, wr, hn, hall, haddrs, hreads, rfl, hmem⟩ := exec_rdbytes_touches h
    exact ⟨hreads, n, hn, fun _ => hall, haddrs.trans (addressesFrom_zero _ _), hmem⟩
  · obtain ⟨hreads, hwrites, -⟩ := exec_touches_none (bufferOf_eq_none hw hr) h
    exact ⟨hreads, hwrites⟩
  · by_cases hw : ∀ st p buf len, i ≠ .wrbytes st p buf len
    · obtain ⟨-, -, hmem⟩ := exec_touches_none (bufferOf_eq_none hw hr) h
      exact hmem
    · push Not at hw
      obtain ⟨st, p, buf, len, rfl⟩ := hw
      obtain ⟨n, -, -, -, -, hmem⟩ := exec_wrbytes_touches h
      exact hmem

/-! ### Where the accesses stand -/

/-- A command's buffer accesses stand where its procedure places them, however it ends. -/
theorem exec_atBuffer {i : Instr} {s t : State} {K : List Event → Event → Prop}
    (hp : Wp (procOf i) s (fun _ u => Places K s u) (fun _ u => Places K s u)) (h : exec i s = .next t) :
    AtBuffer K (newEvents s t) := by
  have hnone : Places K s (draw8 s).2 := places_of_untouched (.of_eq rfl rfl rfl) K
  obtain ⟨-, -, rfl⟩ | ⟨buf, len, -, -, -, rfl⟩ | ⟨-, -, ⟨v, u, hrun, rfl⟩ | ⟨c, u, hrun, rfl⟩⟩ := exec_cases h
  · exact hnone.completed .notConfigured _ _
  · exact hnone.completed .bufferFault _ _
  · exact (hp.of_ok hrun).completed .ok v _
  · exact (hp.of_error hrun).raised c _

/-- The bits that the bytes of a buffer clock out. -/
theorem sentBits_readsFrom (m : Memory) (buf : Word) (n : Nat) :
    sentBits (readsFrom m buf 0 n) =
      (List.range n).flatMap fun k => msbFirst (readCell m (buf + BitVec.ofNat 16 k).toNat) ++ [true] := by
  rw [sentBits, readsFrom_zero, List.flatMap_map]

/-- Settles O47: a read of WRBYTES and a write of RDBYTES stand at their places. -/
theorem bufferAccessesStandBetweenBytes : Obligations.BufferAccessesStandBetweenBytes := by
  refine fun s t st p buf len before after a x hw => ⟨fun h hev => ?_, fun h hev => ?_⟩
  · have hplaces : AtBuffer (WrbytesPlace s st buf len) (newEvents s t) :=
      exec_atBuffer (i := .wrbytes st p buf len) (writeBytes_places st p buf len s hw) h
    obtain ⟨i, hi, haccess, hdrives, hwrite⟩ := hplaces before _ after hev rfl
    rw [Event.memRead.injEq] at haccess
    rw [sentBits_readsFrom] at hdrives
    exact ⟨i, hi, haccess.1, hdrives, hwrite⟩
  · have hplaces : AtBuffer (RdbytesPlace s buf len) (newEvents s t) :=
      exec_atBuffer (i := .rdbytes p buf len) (readBytes_places p buf len s hw) h
    obtain ⟨i, hi, v, haccess, hdrives, hwrite⟩ := hplaces before _ after hev rfl
    rw [Event.memWrite.injEq] at haccess
    exact ⟨i, hi, haccess.1, hdrives, hwrite⟩

end Sys2Proof.Machine
end

section
/-! SUPPORT. The addresses of an admitted buffer in what a transaction reads (60_exceptions.md R207). -/
namespace Sys2Proof.Machine

/-- The addresses of an admitted buffer do not wrap. -/
theorem BufferOK.address {cfg : Cfg} {buf len : Word} (h : BufferOK cfg buf len) {i : Nat} (hi : i < len.toNat) :
    buf + BitVec.ofNat 16 i = BitVec.ofNat 16 (buf.toNat + i) ∧ (BitVec.ofNat 16 (buf.toNat + i)).toNat = buf.toNat + i := by
  obtain ⟨haddr, hnat⟩ := buffer_address (h.noWrap (Nat.zero_lt_of_lt hi)) hi
  exact ⟨haddr, haddr ▸ hnat⟩

section
variable {cfg : Cfg} {buf len : Word} (h : BufferOK cfg buf len)
include h

/-- The reads of a whole admitted buffer. -/
theorem readsFrom_of_bufferOK (m : Memory) :
    readsFrom m buf 0 len.toNat =
      (List.range len.toNat).map fun i => (BitVec.ofNat 16 (buf.toNat + i), readCell m (buf.toNat + i)) := by
  rw [readsFrom_zero]
  refine List.map_congr_left fun i hi => ?_
  obtain ⟨haddr, hnat⟩ := h.address (List.mem_range.mp hi)
  rw [haddr, hnat]

/-- The writes of a whole admitted buffer. -/
theorem writesFrom_of_bufferOK (levels : List Bool) :
    writesFrom buf 0#16 levels len.toNat =
      (List.range len.toNat).map fun i => (BitVec.ofNat 16 (buf.toNat + i), byteSampled levels i) := by
  refine List.map_congr_left fun i hi => ?_
  rw [BitVec.zero_add, (h.address (List.mem_range.mp hi)).1]

/-- A whole admitted buffer stored reads back byte by byte. -/
theorem readCell_storeAll_buffer {m : Memory} (hm : m.wf = true) (byte : Nat → Byte) {i : Nat} (hi : i < len.toNat) :
    readCell (storeAll m ((List.range len.toNat).map fun i => (BitVec.ofNat 16 (buf.toNat + i), byte i))) (buf.toNat + i) =
      byte i := by
  have hinj : ∀ i < len.toNat, ∀ j < len.toNat,
      (BitVec.ofNat 16 (buf.toNat + i)).toNat = (BitVec.ofNat 16 (buf.toNat + j)).toNat → i = j := by
    intro i hi j hj hij
    rw [(h.address hi).2, (h.address hj).2] at hij
    omega
  have hread := readCell_storeAll_same hm len.toNat (fun i => BitVec.ofNat 16 (buf.toNat + i)) byte hinj hi
  rwa [(h.address hi).2] at hread

/-- Storing a whole admitted buffer leaves the bytes outside it alone. -/
theorem readCell_storeAll_outside (m : Memory) (byte : Nat → Byte) {a : Nat}
    (ha : a < buf.toNat ∨ buf.toNat + len.toNat ≤ a) :
    readCell (storeAll m ((List.range len.toNat).map fun i => (BitVec.ofNat 16 (buf.toNat + i), byte i))) a =
      readCell m a := by
  refine readCell_storeAll_other m _ fun av hav => ?_
  obtain ⟨i, hmem, rfl⟩ := List.mem_map.mp hav
  have hi : i < len.toNat := List.mem_range.mp hmem
  rw [(h.address hi).2]
  omega

/-- The buffer of a command is admitted. -/
theorem bufferOk_of_bufferOf {i : Instr} (hi : bufferOf i = some (buf, len)) :
    ∀ b l, bufferOf i = some (b, l) → bufferOk cfg b l = true := by
  intro b l hbl
  rw [hi, Option.some.injEq, Prod.mk.injEq] at hbl
  obtain ⟨rfl, rfl⟩ := hbl
  exact (bufferOk_iff cfg buf len).mpr h

end

end Sys2Proof.Machine
end

section
/-! SUPPORT. The bits that a transaction clocks onto the bus (43_bus_handle.md R172, R173): its START, its bytes and its STOP,
each leaving CLOCK low for the next. -/
namespace Sys2Proof.Machine

/-- The bits between CLOCK low and an optional STOP are clocked, and a STOP clocks a 0 after them. -/
theorem clockedBits_bits_stop (d : Bool) (vs : List Bool) (p : Bool) :
    clockedBits ⟨false, d⟩ (bitsDrives false vs ++ if p then stopDrives false else []) =
      vs ++ if p then [false] else [] := by
  have hstop : ∀ x, clockedBits ⟨false, x⟩ (if p then stopDrives false else []) = if p then [false] else [] := by
    cases p <;> simp [stopDrives, clockedBits]
  rw [clockedBits_append, clockedBits_bitsDrives]
  cases vs with
  | nil => exact hstop d
  | cons v vs => rw [bitsDrives_getLastD, hstop]

/-- A repeated START from CLOCK low clocks a released bit, a first START none; both leave the lines low. -/
theorem clockedBits_start {s : State} (d : Bool) (ds : List Drive)
    (hclk : engineLow s .clock = true ∨ s.started = false) :
    clockedBits ⟨!engineLow s .clock, d⟩ (startDrives s ++ ds) =
      (if s.started then [true] else []) ++ clockedBits ⟨false, false⟩ ds := by
  cases hs : s.started with
  | false => simp [startDrives, hs, clockedBits]
  | true =>
    have hlow : engineLow s .clock = true := by simpa [hs] using hclk
    simp [startDrives, hs, hlow, clockedBits]

/-- WRBYTES completed with OK, CLOCK being low before its bits: its drives (R172). -/
theorem drives_of_wrbytes_ok {s t : State} {st p : Bool} {buf len : Word} (hw : s.cfg.wellFormed = true)
    (ho : LinesAreOutputs s) (hclk : st = true ∨ engineLow s .clock = true)
    (h : exec (.wrbytes st p buf len) s = .next t) (hok : t.result.cond = 0#3) :
    drives s t = (if st then startDrives s else []) ++
      (bitsDrives false (sentBits (readsFrom s.mem buf 0 len.toNat)) ++ if p then stopDrives false else []) := by
  obtain ⟨v, u, hrun, rfl⟩ := procOf_ok_of_cond h hok
  obtain ⟨-, -, -, -, c, hc, -, hdrove⟩ := (writeBytes_wp st p buf len s hw).of_ok hrun
  have hlow : (if st then false else !engineLow s .clock) = false := by
    rcases hclk with h | h <;> simp [h]
  rw [hc ho (hclk.imp_right .inr), hlow, List.append_assoc] at hdrove
  exact (hdrove.completed _ _ _).2 ho

/-- RDBYTES completed with OK, CLOCK being low at entry: its drives (R173). -/
theorem drives_of_rdbytes_ok {s t : State} {p : Bool} {buf len : Word} (hw : s.cfg.wellFormed = true)
    (ho : LinesAreOutputs s) (hclk : engineLow s .clock = true)
    (h : exec (.rdbytes p buf len) s = .next t) (hok : t.result.cond = 0#3) :
    drives s t = bitsDrives false (readBitsDriven len.toNat) ++ if p then stopDrives false else [] := by
  obtain ⟨v, u, hrun, rfl⟩ := procOf_ok_of_cond h hok
  obtain ⟨-, -, -, c, hc, hdrove⟩ := (readBytes_wp p buf len s hw).of_ok hrun
  rw [hc ho (.inr hclk), hclk] at hdrove
  exact (hdrove.completed _ _ _).2 ho

/-- Settles O43: START, the bytes of the buffer and STOP clock their bits one after the other. -/
theorem wrbytesClocksEveryByteOut : Obligations.WrbytesClocksEveryByteOut := by
  intro s t st p buf len hw _ hbuf ho hclk h hok
  have hbits : sentBits (readsFrom s.mem buf 0 len.toNat) =
      (List.range len.toNat).flatMap fun i => msbFirst (readCell s.mem (buf.toNat + i)) ++ [true] := by
    rw [readsFrom_of_bufferOK hbuf, sentBits, List.flatMap_map]
  rw [drives_of_wrbytes_ok hw ho (hclk.symm.imp_left And.left) h hok, ← hbits, List.append_assoc]
  cases st with
  | true =>
    have hclk' : engineLow s .clock = true ∨ s.started = false := hclk.imp_right And.right
    simp only [if_true, Bool.true_and]
    rw [clockedBits_start _ _ hclk', clockedBits_bits_stop]
  | false =>
    have hlow : engineLow s .clock = true := by simpa using hclk
    simp only [Bool.false_eq_true, if_false, Bool.false_and, List.nil_append]
    rw [hlow]
    exact clockedBits_bits_stop _ _ _

/-- Settles O45: the bytes read and STOP clock their bits one after the other. -/
theorem rdbytesAcknowledgesAllButTheLast : Obligations.RdbytesAcknowledgesAllButTheLast := by
  intro s t p buf len hw _ _ ho hclk h hok
  rw [drives_of_rdbytes_ok hw ho hclk h hok, clockedBits_bits_stop]
  rfl

end Sys2Proof.Machine
end

section
/-! SUPPORT. A WRBYTES and a RDBYTES that complete: the state, the accesses and the buffer bytes (43_bus_handle.md R172, R173,
42_protocol_engine.md R146). -/
namespace Sys2Proof.Machine

/-! ### Accesses and waits of a transaction -/

theorem bufferBytes_length (m : Memory) (buf len : Word) : (bufferBytes m buf len).length = len.toNat := by
  simp [bufferBytes]

/-- An optional STOP (R142). -/
theorem optionalStop_weight (cfg : Cfg) (p : Bool) :
    asksWeight cfg (if p then stopAsks else []) = (if p then 6 else 0) + checks cfg (if p then 1 else 0) := by
  cases p
  · simp [asksWeight, checks_zero]
  · exact stopAsks_weight cfg

theorem optionalStop_waits (p : Bool) : (if p then stopAsks else []).count .wait = if p then 1 else 0 := by
  cases p <;> rfl

/-- An optional START (R141). -/
theorem optionalStart_weight (s : State) (st : Bool) :
    asksWeight s.cfg (if st then startAsks s else []) =
      (if st then (if s.started then 8 else 4) else 0) + checks s.cfg (if st then 1 else 0) := by
  cases st
  · simp [asksWeight, checks_zero]
  · exact startAsks_weight s.cfg s

theorem optionalStart_waits (s : State) (st : Bool) :
    (if st then startAsks s else []).count .wait = if st && s.started then 1 else 0 := by
  cases st
  · rfl
  · exact startAsks_waits s

section
variable (s : State) (st p : Bool) (buf len : Word)

theorem wrbytesAsks_weight :
    asksWeight s.cfg (asksOf s (.wrbytes st p buf len)) =
      (if st then (if s.started then 8 else 4) else 0) + len.toNat * (8 * 6 + 7) + (if p then 6 else 0) +
        checks s.cfg ((if st then 1 else 0) +
          ((bufferBytes s.mem buf len).map fun b => (msbFirst b).count true).sum + (if p then 1 else 0)) := by
  rw [asksOf, asksWeight_append, asksWeight_append, optionalStart_weight, sendAsks_weight, optionalStop_weight,
    bufferBytes_length, ← checks_add, ← checks_add]
  omega

theorem wrbytesAsks_waits :
    (asksOf s (.wrbytes st p buf len)).count .wait =
      (if st && s.started then 1 else 0) + 9 * len.toNat + (if p then 1 else 0) := by
  rw [asksOf, List.count_append, List.count_append, optionalStart_waits, sendAsks_waits, optionalStop_waits,
    bufferBytes_length]

theorem rdbytesAsks_weight :
    asksWeight s.cfg (asksOf s (.rdbytes p buf len)) = len.toNat * (8 * 7 + 6) + (if p then 6 else 0) +
      checks s.cfg ((if 0 < len.toNat then 1 else 0) + (if p then 1 else 0)) := by
  rw [asksOf, asksWeight_append, receiveAsks_weight, optionalStop_weight, ← checks_add]
  omega

theorem rdbytesAsks_waits :
    (asksOf s (.rdbytes p buf len)).count .wait = 9 * len.toNat + (if p then 1 else 0) := by
  rw [asksOf, List.count_append, receiveAsks_waits, optionalStop_waits]

end

/-! ### Completions -/

/-- What a run over a buffer and its completion leave. -/
theorem SameButLoop.completed {s t : State} {b : Bool} {rest : List EnvSample} (h : SameButLoop (s.setStarted b) t)
    (henv : t.env = rest) (v : Byte) (cmd : Command) :
    complete .ok v cmd t = { s with
      started := b
      shift := t.shift, bitcnt := t.bitcnt, nackacc := t.nackacc, idx := t.idx, mem := t.mem
      out := t.out
      result := ⟨0#3, v⟩
      history := (complete .ok v cmd t).history
      env := rest
      draws := t.draws } := by
  rw [complete_eq, ← henv]
  unfold SameButLoop at h
  rw [h]
  rfl

/-- Settles O42: the procedure of WRBYTES ends as it is heard, with the bytes it touches and the state it leaves. -/
theorem wrbytesSendsTheBuffer : Obligations.WrbytesSendsTheBuffer := by
  rintro s st p buf len h hw hc hbuf rfl hthrough
  obtain ⟨v, t, hrun, hb, ⟨⟨hlength, hnack, hv⟩, hloop, hmem, hidx, -⟩, htouched⟩ :=
    (((writeBytes_hears st p buf len s hw).and (writeBytes_wp st p buf len s hw)).and
      (writeBytes_touched st p buf len s)).through hthrough
  obtain ⟨hacc, hpolls⟩ := hb.completed_accesses hthrough v (.legal (.wrbytes st p buf len))
  rw [wrbytesAsks_weight] at hacc
  rw [wrbytesAsks_waits] at hpolls
  obtain ⟨hreads, -, -⟩ := htouched.done (c := .ok) (v := v) (cmd := .legal (.wrbytes st p buf len))
  rw [readsFrom_of_bufferOK hbuf] at hreads
  refine ⟨_, _, exec_of_ok _ hc (bufferOk_of_bufferOf hbuf rfl) hrun, hlength, rfl, ?_, hreads, ?_, hpolls⟩
  · have hstate := hloop.completed hb.env v (.legal (.wrbytes st p buf len))
    rw [hmem, hidx, hnack, hv, byteOfBit_eq] at hstate
    rw [hv, byteOfBit_eq]
    exact hstate
  · rw [hacc]
    omega

/-- Settles O44: the procedure of RDBYTES ends as it is heard, and memory is what the bytes heard make of it. -/
theorem rdbytesFillsTheBuffer : Obligations.RdbytesFillsTheBuffer := by
  rintro s p buf len h hw hc hwf hbuf rfl hthrough
  obtain ⟨v, t, hrun, hb, ⟨hlength, hlast, htouched⟩, hloop, hnack, hidx, -⟩ :=
    ((readBytes_hears p buf len s hw).and (readBytes_wp p buf len s hw)).through hthrough
  obtain ⟨hacc, hpolls⟩ := hb.completed_accesses hthrough v (.legal (.rdbytes p buf len))
  rw [rdbytesAsks_weight] at hacc
  rw [rdbytesAsks_waits] at hpolls
  rw [writesFrom_of_bufferOK hbuf] at htouched
  obtain ⟨-, hwrites, hmem⟩ := htouched.done (c := .ok) (v := v) (cmd := .legal (.rdbytes p buf len))
  have hstate := hloop.completed hb.env v (.legal (.rdbytes p buf len))
  rw [hnack, hidx] at hstate
  refine ⟨_, exec_of_ok _ hc (bufferOk_of_bufferOf hbuf rfl) hrun, hlength, hstate, rfl, hlast, fun i hi => ?_,
    fun a ha => ?_, hwrites, ?_, hpolls⟩
  · rw [hmem]
    exact readCell_storeAll_buffer hbuf hwf _ hi
  · rw [hmem]
    exact readCell_storeAll_outside hbuf _ _ ha
  · rw [hacc]
    omega

end Sys2Proof.Machine
end

section
/-! SUPPORT. The command faults NOT_CONFIGURED and BUFFER_FAULT (60_exceptions.md R206 to R208): when a command reports them, and
that it then does nothing else. -/
namespace Sys2Proof.Machine

/-! ### NOT_CONFIGURED -/

/-- Code 4 is reported by no bus condition, no other fault and no normal end. -/
theorem notConfigured_of_cond {i : Instr} {s t : State} (h : exec i s = .next t) (hcond : t.result.cond = 4#3) :
    s.configured = false ∧ needsConfigured i = true := by
  obtain ⟨hc, hn, -⟩ | ⟨buf, len, -, -, -, rfl⟩ | ⟨-, -, ⟨v, u, -, rfl⟩ | ⟨c, u, -, rfl⟩⟩ := exec_cases h
  · exact ⟨hc, hn⟩
  · exact absurd hcond (by decide : Condition.bufferFault.code ≠ 4#3)
  · exact absurd hcond (by decide : Condition.ok.code ≠ 4#3)
  · exact absurd hcond.symm c.code_ne.2.1

/-- Settles O30: without a configured engine a command that needs one raises NOT_CONFIGURED, whose cleanup is empty. -/
theorem unconfiguredCommandsOnlyReport : Obligations.UnconfiguredCommandsOnlyReport := by
  refine ⟨fun s i hc hi hr => ⟨Config.freeByte s.draws, ?_⟩, fun s t i h hcond => ?_⟩
  · rw [exec_of_notConfigured hc (needsConfigured_of_ne hi hr), raiseCondition_fault_eq _ _ _ rfl]
    rfl
  · obtain ⟨hc, hn⟩ := notConfigured_of_cond h hcond
    refine ⟨hc, ?_, ?_⟩ <;> (rintro rfl; cases hn)

/-! ### BUFFER_FAULT -/

/-- The commands with a buffer. -/
theorem bufferOf_eq_some_iff {i : Instr} {buf len : Word} :
    bufferOf i = some (buf, len) ↔ (∃ st p, i = .wrbytes st p buf len) ∨ ∃ p, i = .rdbytes p buf len := by
  cases i <;> simp [bufferOf]

/-- A configured engine only reports a buffer that is not admitted (R207). -/
theorem exec_of_badBuffer {i : Instr} {s : State} {buf len : Word} (hc : s.configured = true)
    (hi : bufferOf i = some (buf, len)) (hbad : bufferOk s.cfg buf len = false) :
    exec i s = .next (raiseCondition .bufferFault (.legal i) s) := by
  obtain ⟨t, ht⟩ := exec_isNext i s
  obtain ⟨hc', -⟩ | ⟨-, -, -, -, -, rfl⟩ | ⟨-, hok, -⟩ := exec_cases ht
  · simp [hc] at hc'
  · exact ht
  · simp [hok buf len hi] at hbad

/-- Code 5 is reported by no bus condition, no other fault and no normal end. -/
theorem badBuffer_of_cond {i : Instr} {s t : State} (h : exec i s = .next t) (hcond : t.result.cond = 5#3) :
    s.configured = true ∧ ∃ buf len, bufferOf i = some (buf, len) ∧ bufferOk s.cfg buf len = false := by
  obtain ⟨-, -, rfl⟩ | ⟨buf, len, hi, hc, hbad, -⟩ | ⟨-, -, ⟨v, u, -, rfl⟩ | ⟨c, u, -, rfl⟩⟩ := exec_cases h
  · exact absurd hcond (by decide : Condition.notConfigured.code ≠ 5#3)
  · exact ⟨hc, buf, len, hi, hbad⟩
  · exact absurd hcond (by decide : Condition.ok.code ≠ 5#3)
  · exact absurd hcond.symm c.code_ne.2.2

/-- Settles O31: a buffer that is not admitted raises BUFFER_FAULT, whose cleanup is empty, and nothing else does. -/
theorem badBuffersOnlyReport : Obligations.BadBuffersOnlyReport := by
  refine ⟨fun s buf len i hc hi => ⟨fun hbad => ⟨Config.freeByte s.draws, ?_⟩, fun hok t h hcond => ?_⟩,
    fun s t i h hcond => ?_⟩
  · rw [← bufferOk_iff, Bool.not_eq_true] at hbad
    rw [exec_of_badBuffer hc (bufferOf_eq_some_iff.mpr hi) hbad, raiseCondition_fault_eq _ _ _ rfl]
    rfl
  · obtain ⟨-, b, l, hbuf, hbad⟩ := badBuffer_of_cond h hcond
    rw [bufferOk_of_bufferOf hok (bufferOf_eq_some_iff.mpr hi) b l hbuf] at hbad
    cases hbad
  · obtain ⟨hc, buf, len, hbuf, -⟩ := badBuffer_of_cond h hcond
    obtain ⟨st, p, rfl⟩ | ⟨p, rfl⟩ := bufferOf_eq_some_iff.mp hbuf
    · exact ⟨hc, .inl ⟨st, p, buf, len, rfl⟩⟩
    · exact ⟨hc, .inr ⟨p, buf, len, rfl⟩⟩

end Sys2Proof.Machine
end

section
/-! SUPPORT. What the host can rely on after a bus condition (60_exceptions.md R203, R204, R218). -/
namespace Sys2Proof.Machine

/-- A bus timeout ends no command but in a stretch wait, with CLOCK released; the cleanup then leaves both lines released
(R204). -/
theorem linesReleased_of_busTimeout {i : Instr} {s u : State} (hw : s.cfg.wellFormed = true)
    (h : procOf i s = .error .busTimeout u) (cmd : Command) (l : Line) :
    engineLow (raiseCondition .busTimeout cmd u) l = false := by
  obtain ⟨hbroken | ⟨hc, -⟩, -, -⟩ := (procOf_wp i s hw).of_error h
  · exact raiseCondition_busTimeout_engineLow cmd u (by rw [hbroken.cfg]; exact hw) hbroken.clock l
  · cases hc

/-- Where only one sample of the input port was made, the cleanup of an arbitration loss makes no access more (R203). -/
theorem OneSample.portAccesses_arbLost {s u : State} (h : OneSample s u) (cmd : Command) :
    portAccesses (newEvents s (raiseCondition .arbLost cmd u)) = 1 := by
  obtain ⟨v, hv⟩ := h
  rw [newEvents_of_eq (evs := [.portRead s.cfg.portInAddr v, .done cmd .arbLost (Config.freeByte u.draws)])
    (by show u.history ++ _ = _; rw [hv, List.append_assoc]; rfl)]
  rfl

/-- Settles O32: a timeout is raised with CLOCK released, and a loss with both lines released but at a first START. -/
theorem stateAfterABusCondition : Obligations.StateAfterABusCondition := by
  refine fun i s t hw h => ⟨fun hcond => ?_, fun hcond => ?_⟩
  · obtain ⟨u, hp, rfl⟩ := procOf_error_of_cond (c := .busTimeout) h hcond
    exact ⟨raiseCondition_started .busTimeout _ u, linesReleased_of_busTimeout hw hp _⟩
  · obtain ⟨u, hp, rfl⟩ := procOf_error_of_cond (c := .arbLost) h hcond
    refine ⟨raiseCondition_started .arbLost _ u, ?_⟩
    obtain ⟨hbroken | ⟨-, -, hstarted, hi, hout, hsample⟩, -, -⟩ := (procOf_wp i s hw).of_error hp
    · left
      rintro (_ | _)
      · exact hbroken.clock
      · exact hbroken.data rfl
    · exact .inr ⟨hi, hstarted, hout, hsample.portAccesses_arbLost _⟩

end Sys2Proof.Machine
end

section
/-! SUPPORT. A bus condition ends a command at the point it arises at, as `hear` says of the command's points: what the command
has done up to there, and what the cleanup adds (60_exceptions.md R202 to R204). -/
namespace Sys2Proof.Machine

/-! ### Where a command is abandoned -/

/-- The ending of what is heard that each bus condition stands for. -/
def BusCondition.ending : BusCondition → Ending
  | .arbLost => .lost
  | .busTimeout => .timedOut

theorem BusCondition.ending_injective {c c' : BusCondition} (h : c.ending = c'.ending) : c = c' := by
  revert h
  cases c <;> cases c' <;> decide

/-- A procedure that is heard to end by a bus condition is ended by it. -/
theorem Hears.aborted {α : Type} {p : Proc α} {s : State} {as : List Ask} {Q : List Bool → α → State → Prop}
    {E : List Bool → BusCondition → State → Prop} {c : BusCondition} (h : Hears p s as Q E)
    (he : (hear s.cfg as s.env).ending = c.ending) :
    ∃ u, p s = .error c u ∧ Between s u (hear s.cfg as s.env) ∧ E (hear s.cfg as s.env).levels c u := by
  cases c
  · exact h.lost he
  · exact h.timedOut he

/-- A command that meets no point is never heard to end by a bus condition. -/
theorem hear_nil_ne_aborted {cfg : Cfg} {env : List EnvSample} {c : BusCondition} : (hear cfg [] env).ending ≠ c.ending := by
  cases c <;> simp [hear, BusCondition.ending]

/-- What RDBYTES has stored where a bus condition ends it: whole bytes, as they were sampled (R202). -/
def StoredAsSampled (i : Instr) (levels : List Bool) (s u : State) : Prop :=
  ∀ p buf len, i = .rdbytes p buf len → ∃ k ≤ len.toNat, Touched s u [] (writesFrom buf 0#16 levels k)

/-- A command that is heard to end by a bus condition is ended by it, at the access heard last. -/
theorem procOf_aborted {i : Instr} {s : State} {c : BusCondition} (hw : s.cfg.wellFormed = true)
    (he : (hear s.cfg (asksOf s i) s.env).ending = c.ending) :
    ∃ u, procOf i s = .error c u ∧ Between s u (hear s.cfg (asksOf s i) s.env) ∧
      StoredAsSampled i (hear s.cfg (asksOf s i) s.env).levels s u := by
  by_cases hasks : asksOf s i = []
  · rw [hasks] at he
    exact absurd he hear_nil_ne_aborted
  · refine (procOf_hears i s hw ⟨?_, ?_, fun l => ⟨?_, ?_, ?_⟩⟩).aborted he <;> (rintro rfl; exact hasks rfl)

/-! ### The registers that the command does not work with -/

/-- What the cleanup of a bus condition leaves of the working registers and of memory: all (R202). -/
theorem raiseCondition_keeps (c : BusCondition) (cmd : Command) (u : State) :
    (raiseCondition c.condition cmd u).shift = u.shift ∧ (raiseCondition c.condition cmd u).bitcnt = u.bitcnt ∧
      (raiseCondition c.condition cmd u).nackacc = u.nackacc ∧ (raiseCondition c.condition cmd u).idx = u.idx ∧
      (raiseCondition c.condition cmd u).mem = u.mem := by
  rw [raiseCondition_frame]
  exact ⟨rfl, rfl, rfl, rfl, rfl⟩

/-- What an abandoned command and its cleanup can write (R202). -/
theorem AbortFrame.raised {i : Instr} {s u t : State} {c : BusCondition} {cmd : Command} (h : AbortFrame i s u)
    (ht : t = raiseCondition c.condition cmd u) :
    t = { s with
      started := false, shift := t.shift, bitcnt := t.bitcnt, nackacc := t.nackacc, idx := t.idx, mem := t.mem
      out := t.out, result := t.result, history := t.history, env := t.env, draws := t.draws } := by
  have hframe := raiseCondition_frame c cmd u
  obtain ⟨hshift, hbitcnt, hnack, hidx, hmem⟩ := raiseCondition_keeps c cmd u
  rw [← ht] at hframe hshift hbitcnt hnack hidx hmem
  rw [hshift, hbitcnt, hnack, hidx, hmem]
  have hloop := h.loop
  unfold SameButLoop at hloop
  rw [hloop] at hframe
  exact hframe

/-! ### The buffer bytes -/

/-- As many buffer bytes were touched as are heard. -/
theorem Between.length_touched {s u : State} {h : Heard} {rd wr : List (Word × Byte)} (hb : Between s u h)
    (ht : Touched s u rd wr) : rd.length + wr.length = h.buffered := by
  obtain ⟨evs, hevs, -, hcount⟩ := hb.events
  obtain ⟨evs', hevs', rfl, rfl⟩ := ht.ev
  obtain rfl : evs = evs' := List.append_cancel_left (hevs.symm.trans hevs')
  exact hcount

/-- Whatever ends a command, memory is as it was but for the bytes its events say were written. -/
theorem exec_touchedBy {i : Instr} {s t : State} (h : exec i s = .next t) : ∃ rd wr, TouchedBy s t rd wr := by
  cases i with
  | wrbytes st p buf len =>
    obtain ⟨n, -, -, htouched⟩ := exec_wrbytes_touches h
    exact ⟨_, _, htouched⟩
  | rdbytes p buf len =>
    obtain ⟨n, wr, -, -, -, htouched⟩ := exec_rdbytes_touches h
    exact ⟨_, _, htouched⟩
  | _ => exact ⟨[], [], exec_touches_none rfl h⟩

/-- The same by the recorded writes themselves (R174). -/
theorem exec_mem {i : Instr} {s t : State} (h : exec i s = .next t) :
    t.mem = storeAll s.mem (bufferWrites (newEvents s t)) := by
  obtain ⟨rd, wr, -, rfl, hmem⟩ := exec_touchedBy h
  exact hmem

section
variable {s u : State} {p : Bool} {buf len : Word} {c : BusCondition} {h : Heard} (hb : Between s u h) (cmd : Command)
include hb

/-- A WRBYTES abandoned in byte i has read bytes 0..i (R202). -/
theorem wrbytes_aborted_reads {st : Bool} (hp : procOf (.wrbytes st p buf len) s = .error c u) :
    h.buffered ≤ len.toNat ∧ bufferReads (newEvents s (raiseCondition c.condition cmd u)) =
      (List.range h.buffered).map fun k => (buf + BitVec.ofNat 16 k, readCell s.mem (buf + BitVec.ofNat 16 k).toNat) := by
  obtain ⟨k, hk, htouched⟩ := (writeBytes_touched st p buf len s).of_error hp
  obtain rfl : k = h.buffered := by simpa [readsFrom] using hb.length_touched htouched
  exact ⟨hk, htouched.raise.1.trans (readsFrom_zero _ _ _)⟩

/-- A RDBYTES abandoned in byte i has stored bytes 0..i-1 (R202). -/
theorem rdbytes_aborted_writes {levels : List Bool} (hstored : StoredAsSampled (.rdbytes p buf len) levels s u) :
    h.buffered ≤ len.toNat ∧ bufferWrites (newEvents s (raiseCondition c.condition cmd u)) =
      (List.range h.buffered).map fun k => (buf + BitVec.ofNat 16 k, byteSampled levels k) := by
  obtain ⟨k, hk, htouched⟩ := hstored p buf len rfl
  obtain rfl : k = h.buffered := by simpa [writesFrom] using hb.length_touched htouched
  refine ⟨hk, htouched.raise.2.1.trans ?_⟩
  simp [writesFrom]

end

/-- Settles O29: the command's procedure is ended where it is heard to end, and the cleanup touches neither the buffer nor a
working register. -/
theorem conditionsEndACommandWhereTheyArise : Obligations.ConditionsEndACommandWhereTheyArise := by
  rintro i s h hw hc hwrbytes hrdbytes rfl hend
  obtain ⟨c, he⟩ : ∃ c : BusCondition, (hear s.cfg (asksOf s i) s.env).ending = c.ending :=
    hend.elim (⟨.arbLost, ·⟩) (⟨.busTimeout, ·⟩)
  obtain ⟨u, hp, hb, hstored⟩ := procOf_aborted hw he
  obtain ⟨-, -, hframe⟩ := (procOf_wp i s hw).of_error hp
  obtain ⟨hacc, henv⟩ := hb.raised c (.legal i)
  obtain ⟨hshift, hbitcnt, hnack, hidx, -⟩ := raiseCondition_keeps c (.legal i) u
  have hbuf : ∀ buf len, bufferOf i = some (buf, len) → bufferOk s.cfg buf len = true := by
    intro buf len hi
    rw [bufferOk_iff]
    obtain ⟨st, p, rfl⟩ | ⟨p, rfl⟩ := bufferOf_eq_some_iff.mp hi
    · exact hwrbytes st p buf len rfl
    · exact hrdbytes p buf len rfl
  have hexec := exec_of_error i hc hbuf hp
  refine ⟨_, hexec, fun hlost => ?_, fun htimeout => ?_, hframe.raised rfl, fun hi => ?_, fun hnw => ⟨?_, fun hnr => ?_⟩,
    ?_, ?_, exec_mem hexec⟩
  · obtain rfl : c = .arbLost := BusCondition.ending_injective (he.symm.trans hlost)
    exact ⟨rfl, hacc, henv⟩
  · obtain rfl : c = .busTimeout := BusCondition.ending_injective (he.symm.trans htimeout)
    have hcfg : u.cfg = s.cfg := hframe.loop.cfg
    rw [hcfg] at henv
    exact ⟨rfl, hacc, henv, linesReleased_of_busTimeout hw hp _⟩
  · obtain ⟨hs, hbit⟩ := hframe.byte hi
    exact ⟨hshift.trans hs, hbitcnt.trans hbit⟩
  · exact hnack.trans (hframe.nack hnw)
  · exact hidx.trans (hframe.idx hnw hnr)
  · rintro st p buf len rfl
    exact wrbytes_aborted_reads hb _ hp
  · rintro p buf len rfl
    exact rdbytes_aborted_writes hb _ hstored

end Sys2Proof.Machine
end

section
/-! SUPPORT. The plain cases of a bus condition, by the answers themselves: an arbitration loss at its three points with no clock
stretching (60_exceptions.md R203), and a timeout at the first wait (R204). -/
namespace Sys2Proof.Machine

/-! ### Hearing answer by answer -/

/-- Along the points `as`, from the answer with index `j` on, a command is heard to end by `c` after `n` port accesses. -/
def AbortsAfter (s : State) (j : Nat) (as : List Ask) (c : BusCondition) (n : Nat) : Prop :=
  (hear s.cfg as (s.env.drop j)).ending = c.ending ∧ (hear s.cfg as (s.env.drop j)).accesses = n

section
variable {s : State} {j n : Nat} {as : List Ask} {c : BusCondition}

/-- A point that is passed, with `m` accesses and `k` answers taken. -/
theorem AbortsAfter.cons {a : Ask} {m k : Nat} (hpass : (hearOne s.cfg a (s.env.drop j)).ending = .through)
    (hacc : (hearOne s.cfg a (s.env.drop j)).accesses = m) (hrest : (hearOne s.cfg a (s.env.drop j)).rest = s.env.drop (j + k))
    (h : AbortsAfter s (j + k) as c n) : AbortsAfter s j (a :: as) c (m + n) := by
  obtain ⟨hend, hn⟩ := h
  simp only [AbortsAfter, hear, Heard.andThen, hpass, hacc, hrest]
  exact ⟨hend, by rw [hn]⟩

/-- A point that ends the command. -/
theorem AbortsAfter.here {a : Ask} (hend : (hearOne s.cfg a (s.env.drop j)).ending = c.ending)
    (hacc : (hearOne s.cfg a (s.env.drop j)).accesses = n) : AbortsAfter s j (a :: as) c n := by
  have hstop : hear s.cfg (a :: as) (s.env.drop j) = hearOne s.cfg a (s.env.drop j) := by
    cases c <;> simp [hear, Heard.andThen, hend, BusCondition.ending]
  exact ⟨by rw [hstop, hend], by rw [hstop, hacc]⟩

theorem AbortsAfter.change (h : AbortsAfter s (j + sharedSamples s.cfg 1) as c n) :
    AbortsAfter s j (.change :: as) c (2 + n) :=
  .cons rfl rfl List.drop_drop h

/-- The answer with index `j`, where the list goes that far. -/
theorem drop_env_eq_cons (hj : j < s.env.length) : s.env.drop j = s.env.getD j .free :: s.env.drop (j + 1) := by
  rw [List.drop_eq_getElem_cons hj, List.getD_eq_getElem _ _ hj]

/-- A stretch wait that no peer stretches polls once, or not at all (41_bit_transport.md R120). -/
theorem AbortsAfter.wait_free (hw : s.cfg.wellFormed = true) (hj : j < s.env.length)
    (hfree : ∀ e ∈ s.env, e.clockLow = false) (h : AbortsAfter s (j + pollsWhenFree s.cfg) as c n) :
    AbortsAfter s j (.wait :: as) c (pollsWhenFree s.cfg + n) := by
  have hone : hearOne s.cfg .wait (s.env.drop j) =
      ⟨.through, pollsWhenFree s.cfg, pollsWhenFree s.cfg, [], 0, s.env.drop (j + pollsWhenFree s.cfg)⟩ := by
    unfold hearOne pollsWhenFree
    cases hs : s.cfg.stretch with
    | none => rfl
    | wait bound =>
      have hpos : bound ≠ 0#16 := fun h0 =>
        (meets_stretchBoundPositive s.cfg).mp (meets_of_wellFormed hw _) (by rw [hs, h0])
      obtain ⟨m, hm⟩ := Nat.exists_eq_succ_of_ne_zero fun h0 => hpos (BitVec.eq_of_toNat_eq h0)
      have hlow : (s.env.getD j .free).clockLow = false := by
        rw [List.getD_eq_getElem _ _ hj]
        exact hfree _ (List.getElem_mem hj)
      simp only [hm, drop_env_eq_cons hj, hearPolls, hlow, Bool.false_eq_true, if_false, reduceCtorEq]
  exact .cons (by rw [hone]) (by rw [hone]) (by rw [hone]) h

/-- An arbitration check that reads DATA low is the last access (R203). -/
theorem AbortsAfter.lost {low : Bool} (harb : s.cfg.arbDetect = true) (hj : j < s.env.length)
    (hlow : low = true ∨ dataSeen s j = false) : AbortsAfter s j (.check low :: as) .arbLost 1 := by
  have hread : (low || (s.env.getD j .free).dataLow) = true := by
    simpa [dataSeen] using hlow
  have hone : hearOne s.cfg (.check low) (s.env.drop j) = ⟨.lost, 1, 0, [], 0, s.env.drop (j + 1)⟩ := by
    rw [drop_env_eq_cons hj]
    simp only [hearOne, harb, if_true, hread]
  exact .here (by rw [hone]; rfl) (by rw [hone])

/-- Polls that all read CLOCK low. -/
theorem hearPolls_held {env : List EnvSample} {m : Nat} (hm : m ≤ env.length) (hheld : ∀ e ∈ env, e.clockLow = true) :
    (hearPolls m env).ending = .timedOut ∧ (hearPolls m env).accesses = m := by
  induction m generalizing env with
  | zero => exact ⟨rfl, rfl⟩
  | succ m ih =>
    cases env with
    | nil => simp at hm
    | cons e rest =>
      obtain ⟨hend, hacc⟩ := ih (env := rest) (by simpa using hm) fun x hx => hheld x (List.mem_cons_of_mem e hx)
      simp [hearPolls, hheld e List.mem_cons_self, hend, hacc]

/-- A stretch wait that is never answered with CLOCK high times out after its N polls (R204). -/
theorem AbortsAfter.wait_held {bound : Word} (hs : s.cfg.stretch = .wait bound) (hj : j + bound.toNat ≤ s.env.length)
    (hheld : ∀ e ∈ s.env, e.clockLow = true) : AbortsAfter s j (.wait :: as) .busTimeout bound.toNat := by
  obtain ⟨hend, hacc⟩ := hearPolls_held (env := s.env.drop j) (m := bound.toNat) (by rw [List.length_drop]; omega)
    fun e he => hheld e (List.mem_of_mem_drop he)
  have hone : hearOne s.cfg .wait (s.env.drop j) = hearPolls bound.toNat (s.env.drop j) := by simp [hearOne, hs]
  exact .here (by rw [hone, hend]; rfl) (by rw [hone, hacc])

end

/-! ### A command without a buffer -/

/-- The state that a bus condition leaves after a command without a buffer: `n` accesses, the working registers of a byte
perhaps, and else what every condition writes. -/
structure AbortedAfter (i : Instr) (s : State) (c : BusCondition) (n : Nat) (t : State) : Prop where
  exec : exec i s = .next t
  cond : t.result.cond = c.condition.code
  accesses : portAccesses (newEvents s t) = n + if c = .arbLost then 0 else 2
  frame : t = { s with
    started := false, shift := t.shift, bitcnt := t.bitcnt, out := t.out, result := t.result, history := t.history
    env := t.env, draws := t.draws }
  byte : ((∃ v, i = .wrbit v) ∨ i = .rdbit ∨ i = .start ∨ i = .stop) → t.shift = s.shift ∧ t.bitcnt = s.bitcnt

/-- A command without a buffer is left so by the condition it is heard to end by. -/
theorem AbortsAfter.exec {i : Instr} {s : State} {c : BusCondition} {n : Nat} (h : AbortsAfter s 0 (asksOf s i) c n)
    (hw : s.cfg.wellFormed = true) (hc : s.configured = true) (hi : bufferOf i = none) : ∃ t, AbortedAfter i s c n t := by
  obtain ⟨hend, hacc⟩ := h
  obtain ⟨u, hp, hb, -⟩ := procOf_aborted hw hend
  obtain ⟨-, -, hframe⟩ := (procOf_wp i s hw).of_error hp
  obtain ⟨hshift, hbitcnt, hnack, hidx, -⟩ := raiseCondition_keeps c (.legal i) u
  have hexec := exec_of_error i hc (by simp [hi]) hp
  have hnw : ∀ st p buf len, i ≠ .wrbytes st p buf len := by rintro st p buf len rfl; cases hi
  have hnr : ∀ p buf len, i ≠ .rdbytes p buf len := by rintro p buf len rfl; cases hi
  obtain ⟨-, -, hmem⟩ := exec_touches_none hi hexec
  have hstate := hframe.raised (t := raiseCondition c.condition (.legal i) u) rfl
  rw [hnack.trans (hframe.nack hnw), hidx.trans (hframe.idx hnw hnr), hmem] at hstate
  refine ⟨_, hexec, rfl, (hb.raised c _).1.trans (by rw [← hacc]; rfl), hstate, fun h => ?_⟩
  obtain ⟨hs, hbit⟩ := hframe.byte h
  exact ⟨hshift.trans hs, hbitcnt.trans hbit⟩

/-- A command that does not work with SHIFT and BITCNT leaves them too. -/
theorem AbortedAfter.bitFrame {i : Instr} {s t : State} {c : BusCondition} {n : Nat} (h : AbortedAfter i s c n t)
    (hi : (∃ v, i = .wrbit v) ∨ i = .rdbit ∨ i = .start ∨ i = .stop) :
    t = { s with
      started := false, out := t.out, result := t.result, history := t.history, env := t.env, draws := t.draws } := by
  obtain ⟨hshift, hbitcnt⟩ := h.byte hi
  have hframe := h.frame
  rwa [hshift, hbitcnt] at hframe

/-- Both lines are released, but perhaps at a first START (R218). -/
theorem AbortedAfter.linesReleased {i : Instr} {s t : State} {c : BusCondition} {n : Nat} (h : AbortedAfter i s c n t)
    (hw : s.cfg.wellFormed = true) (hi : bufferOf i = none) (hstart : i = .start → s.started = true) (l : Line) :
    engineLow t l = false := by
  obtain ⟨htimeout, hlost⟩ := stateAfterABusCondition i s t hw h.exec
  cases c with
  | busTimeout => exact (htimeout h.cond).2 l
  | arbLost =>
    obtain ⟨-, hreleased | ⟨rfl | ⟨p, buf, len, rfl⟩, hs, -⟩⟩ := hlost h.cond
    · exact hreleased l
    · simp [hstart rfl] at hs
    · cases hi

/-! ### Arbitration loss (R203) -/

section
variable {s : State} (hw : s.cfg.wellFormed = true) (harb : s.cfg.arbDetect = true) (hfree : ClockFree s 8)
include hw harb hfree

/-- The check of a 1 bit and of a repeated START comes after two line changes and a stretch wait. -/
theorem abortsAfter_check (as : List Ask) (hseen : dataSeen s (sharedSamples s.cfg 2 + pollsWhenFree s.cfg) = false) :
    AbortsAfter s 0 (.change :: .change :: .wait :: .check false :: as) .arbLost (5 + pollsWhenFree s.cfg) := by
  obtain ⟨hlen, hclock⟩ := hfree
  have hss := sharedSamples_le s.cfg 1
  have hpolls := pollsWhenFree_le s.cfg
  have hchain : AbortsAfter s 0 (.change :: .change :: .wait :: .check false :: as) .arbLost
      (2 + (2 + (pollsWhenFree s.cfg + 1))) :=
    .change (.change (.wait_free hw (by omega) hclock (.lost harb (by omega) (.inr (by
      rwa [Nat.zero_add, sharedSamples_add])))))
  rwa [show 2 + (2 + (pollsWhenFree s.cfg + 1)) = 5 + pollsWhenFree s.cfg by omega] at hchain

/-- The check of a STOP comes after a third line change, the release of DATA. -/
theorem abortsAfter_stop (hseen : dataSeen s (sharedSamples s.cfg 3 + pollsWhenFree s.cfg) = false) :
    AbortsAfter s 0 stopAsks .arbLost (7 + pollsWhenFree s.cfg) := by
  obtain ⟨hlen, hclock⟩ := hfree
  have hss := sharedSamples_le s.cfg 1
  have hpolls := pollsWhenFree_le s.cfg
  have hchain : AbortsAfter s 0 stopAsks .arbLost (2 + (2 + (pollsWhenFree s.cfg + (2 + 1)))) :=
    .change (.change (.wait_free hw (by omega) hclock (.change (.lost harb (by omega) (.inr (by
      rwa [Nat.zero_add, sharedSamples_add, Nat.add_right_comm, sharedSamples_add]))))))
  rwa [show 2 + (2 + (pollsWhenFree s.cfg + (2 + 1))) = 7 + pollsWhenFree s.cfg by omega] at hchain

end

/-- A first START is lost at its first access, before it has changed a line. -/
theorem procOf_firstStart_lost {s : State} (hs : s.started = false) (harb : s.cfg.arbDetect = true)
    (hread : (readLine .data s).1 = false) : procOf .start s = .error .arbLost (readLine .data s).2 := by
  simp [procOf, startCommand, startCondition, hs, arbCheck_of_detect harb, hread]

/-- DATA reads low where the engine or the environment holds it low. -/
theorem readLine_data_low {s : State} (hw : s.cfg.wellFormed = true) (hj : 0 < s.env.length)
    (hlow : engineLow s .data = true ∨ dataSeen s 0 = false) : (readLine .data s).1 = false := by
  have henv : s.env = s.env.getD 0 .free :: s.env.drop 1 := by rw [← drop_env_eq_cons hj, List.drop_zero]
  rw [readLine_of_answer s hw .data henv]
  rcases hlow with h | h
  · rw [h, Bool.not_true, Bool.false_and]
  · rw [show (!(s.env.getD 0 .free).low .data) = false from h, Bool.and_false]

/-- A lost first START leaves OUT as it was. -/
theorem exec_firstStart_lost_out {s t : State} (hc : s.configured = true) (hs : s.started = false)
    (harb : s.cfg.arbDetect = true) (hread : (readLine .data s).1 = false) (h : exec .start s = .next t) :
    t.out = s.out := by
  cases (exec_of_error .start hc nofun (procOf_firstStart_lost hs harb hread)).symm.trans h
  exact readLine_out s .data

/-- Settles O27: in each clause the command comes to its check and is lost there; R218 says how that leaves the lines. -/
theorem arbitrationLossEndsTheCommand : Obligations.ArbitrationLossEndsTheCommand := by
  intro s hw hc harb hfree
  have hlen : 0 < s.env.length := by have := hfree.1; omega
  refine ⟨fun hseen => ?_, fun hs hseen => ?_, fun hs hlow => ?_, fun hseen => ?_⟩
  · obtain ⟨t, ht⟩ := (abortsAfter_check hw harb hfree _ hseen).exec (i := .wrbit true) hw hc rfl
    exact ⟨t, ht.exec, ht.cond, ht.accesses, ht.linesReleased hw rfl nofun, ht.bitFrame (.inl ⟨true, rfl⟩)⟩
  · have hasks : asksOf s .start = [.change, .change, .wait, .check false, .change, .change] := by
      simp [asksOf, startAsks, hs]
    obtain ⟨t, ht⟩ := (hasks ▸ abortsAfter_check hw harb hfree _ hseen).exec (i := .start) hw hc rfl
    exact ⟨t, ht.exec, ht.cond, ht.accesses, ht.linesReleased hw rfl fun _ => hs, ht.bitFrame (by simp)⟩
  · have hasks : asksOf s .start = [.check (engineLow s .data), .change, .change] := by
      simp [asksOf, startAsks, hs]
    obtain ⟨t, ht⟩ := (hasks ▸ AbortsAfter.lost harb hlen hlow).exec (i := .start) hw hc rfl
    have hframe := ht.bitFrame (by simp)
    rw [exec_firstStart_lost_out hc hs harb (readLine_data_low hw hlen hlow) ht.exec, ← hs] at hframe
    exact ⟨t, ht.exec, ht.cond, ht.accesses, hframe⟩
  · obtain ⟨t, ht⟩ := (abortsAfter_stop hw harb hfree hseen).exec (i := .stop) hw hc rfl
    exact ⟨t, ht.exec, ht.cond, ht.accesses, ht.linesReleased hw rfl nofun, ht.bitFrame (by simp)⟩

/-! ### A timeout at the first wait (R204) -/

/-- The commands that wait, but for the transactions, first change two lines and then wait. -/
theorem asksOf_waits {s : State} {i : Instr}
    (hi : (∃ v, i = .wrbit v) ∨ i = .rdbit ∨ i = .stop ∨ (i = .start ∧ s.started = true) ∨ (∃ b, i = .wrbyte b) ∨
      ∃ last, i = .rdbyte last) :
    bufferOf i = none ∧ (i = .start → s.started = true) ∧ ∃ as, asksOf s i = .change :: .change :: .wait :: as := by
  obtain ⟨v, rfl⟩ | rfl | rfl | ⟨rfl, hs⟩ | ⟨b, rfl⟩ | ⟨last, rfl⟩ := hi
  case inr.inr.inr.inl => exact ⟨rfl, fun _ => hs, _, by simp only [asksOf, startAsks, hs, if_true]; rfl⟩
  all_goals exact ⟨rfl, nofun, _, rfl⟩

/-- Settles O28: the first wait of each of these commands is never answered with CLOCK high. -/
theorem busTimeoutReleasesDataAndEnds : Obligations.BusTimeoutReleasesDataAndEnds := by
  rintro s n i hw hc hs ⟨hlen, hheld⟩ hi
  obtain ⟨hbuf, hstart, as, hasks⟩ := asksOf_waits hi
  have hss := sharedSamples_le s.cfg 1
  have hchain : AbortsAfter s 0 (asksOf s i) .busTimeout (2 + (2 + n.toNat)) := by
    rw [hasks]
    exact .change (.change (.wait_held hs (by omega) hheld))
  obtain ⟨t, ht⟩ := hchain.exec hw hc hbuf
  refine ⟨t, ht.exec, ht.cond, ?_, ht.linesReleased hw hbuf hstart, ht.frame, fun h => ht.byte ?_⟩
  · rw [ht.accesses]
    simp only [reduceCtorEq, if_false]
    omega
  · exact h.imp_right (·.imp_right Or.symm)

end Sys2Proof.Machine
end

section
/-! SUPPORT. The bounds on a command's accesses (70_reset_and_hazards.md R244), from what its procedure makes at most and which
buffer bytes it touches. -/
namespace Sys2Proof.Machine

/-- A completion is no port access (30_encoding.md R91). -/
theorem AtMost.completed {s u : State} {n : Nat} (h : AtMost s u n) (c : Condition) (v : Byte) (cmd : Command) :
    portAccesses (newEvents s (complete c v cmd u)) ≤ n := by
  obtain ⟨-, evs, hevs, hcount⟩ := h
  rw [newEvents_complete hevs, portAccesses_append]
  exact hcount

/-- Raising a condition makes the port accesses of its cleanup and no other (60_exceptions.md R202). -/
theorem AtMost.raised {s u : State} {n : Nat} {c : Condition} (h : AtMost s (cleanup c u) n) (cmd : Command) :
    portAccesses (newEvents s (raiseCondition c cmd u)) ≤ n := by
  have hdraw : AtMost (cleanup c u) (draw8 (cleanup c u)).2 0 := .zero rfl rfl
  exact (h.trans hdraw).completed c _ cmd

theorem cleanup_atMost (c : BusCondition) (u : State) : AtMost u (cleanup c.condition u) (cleanupAccesses c) := by
  cases c with
  | arbLost => exact .zero rfl rfl
  | busTimeout => exact (rmwOut_atMost u _ _).trans (.zero rfl rfl)

/-- A command fault makes no port access; any other end is within what the command's procedure takes. -/
theorem exec_portAccesses_le {i : Instr} {s t : State} (h : exec i s = .next t) :
    portAccesses (newEvents s t) ≤ accessBound s.cfg i := by
  have hfault : AtMost s s (accessBound s.cfg i) := (AtMost.zero rfl rfl).mono (Nat.zero_le _)
  obtain ⟨-, -, rfl⟩ | ⟨buf, len, -, -, -, rfl⟩ | ⟨-, -, ⟨v, u, hrun, rfl⟩ | ⟨c, u, hrun, rfl⟩⟩ := exec_cases h
  · exact AtMost.raised (c := .notConfigured) hfault _
  · exact AtMost.raised (c := .bufferFault) hfault _
  · exact ((procOf_takes i s).of_ok hrun).completed .ok v _
  · obtain ⟨k, hk, hmost⟩ := (procOf_takes i s).of_error hrun
    exact ((hmost.trans (cleanup_atMost c u)).mono hk).raised _

/-- WRBYTES reads and RDBYTES writes at most the bytes of its buffer, and no other command touches one. -/
theorem exec_bufferAccesses_le {i : Instr} {s t : State} (h : exec i s = .next t) :
    (bufferReads (newEvents s t)).length ≤ bufferReadBound i ∧ (bufferWrites (newEvents s t)).length ≤ bufferWriteBound i := by
  cases i with
  | wrbytes st p buf len =>
    obtain ⟨n, hn, -, hreads, hwrites, -⟩ := exec_wrbytes_touches h
    simpa [hreads, hwrites, readsFrom, bufferReadBound] using hn
  | rdbytes p buf len =>
    obtain ⟨n, wr, hn, -, haddrs, hreads, hwrites, -⟩ := exec_rdbytes_touches h
    have hlen : wr.length = n := by simpa [addressesFrom] using congrArg List.length haddrs
    simpa [hreads, hwrites, hlen, bufferWriteBound] using hn
  | _ =>
    obtain ⟨hreads, hwrites, -⟩ := exec_touches_none rfl h
    simp [hreads, hwrites]

/-- Settles O53: every command answers a next state, within both bounds. -/
theorem portAccessesAreBounded : Obligations.PortAccessesAreBounded := by
  intro i s
  obtain ⟨t, h⟩ := exec_isNext i s
  exact ⟨t, h, exec_portAccesses_le h, exec_bufferAccesses_le h⟩

end Sys2Proof.Machine
end

section
/-! SUPPORT. A store of the host to the output port between two commands (70_reset_and_hazards.md R242). -/
namespace Sys2Proof.Machine

/-- The step in which the host stores to the output port writes OUT and takes the move. -/
theorem step_of_hostStore_portOut {s : State} {v : Byte} {ms : List HostMove} (hw : s.cfg.wellFormed = true)
    (hf : fetchCommand s.stream = none) (hhost : s.host = .store s.cfg.portOutAddr v :: ms) :
    step s = .next ((s.setHost ms).setOut v) := by
  rw [step_of_waiting hw hf, hostTurn_of_cons hhost]
  exact congrArg Host.Outcome.next (hostStore_portOutAddr v (s.setHost ms))

/-- Settles O57: the store leaves `v` in OUT and the direction register as it was, and the next command keeps these bits. -/
theorem hostBitsOfThePortArePreserved : Obligations.HostBitsOfThePortArePreserved := by
  intro i s t u v ms k hw hf hhost hstep hi hr hsense h hclk hdata hout
  rw [step_of_hostStore_portOut hw hf hhost, Host.Outcome.next.injEq] at hstep
  subst hstep
  exact otherOutputBitsAreKept i ((s.setHost ms).setOut v) u k hi hr hsense h hclk hdata hout

end Sys2Proof.Machine
end

section
/-! SUPPORT. The command words that the spec writes out (95_test_vectors.md ENC-1). -/
namespace Sys2Proof

/-- Words that the encoder gives for a command decode to it, and no word is over. -/
theorem fetchCommand_of_encode {i : Instr} {ws : List Word} (h : encode i = ws) :
    fetchCommand ws = some (.legal i, []) := by
  have hfetch := decodeOfEncode i []
  rwa [List.append_nil, h] at hfetch

/-- Settles O1: the words of ENC-1 are the encoder's for their commands, so the round trip (R82 to R84) reads them back. -/
theorem specWordsDecode : Obligations.SpecWordsDecode := by
  refine ⟨?_, ?_, ?_, ?_, ?_, ?_, ?_, ?_, ?_, ?_, ?_⟩ <;> exact fetchCommand_of_encode rfl

end Sys2Proof
end
